-- ==== Sys2Proof/Word.lean ====
section
/-! DEFINITION. The word types of the block: 32-bit registers and command words (rule R110), 16-bit
samples (rule R9, `W` = 16) and bytes (rule R12). All arithmetic is unsigned (rule R11). -/

namespace Sys2Proof

/-- A register value or a command word: 32 bits (rules R24, R110). -/
abbrev Word := BitVec 32

/-- A byte: 8 bits (rule R12). -/
abbrev Byte := BitVec 8

/-- A sample of the pipeline: 16 bits, unsigned (rules R9, R140). -/
abbrev Sample := BitVec 16

end Sys2Proof
end

