-- ==== Sys2Proof/Machine/Crc32.lean ====
section
/-! DEFINITION. The decided CRC32 as a function of bytes: the per-byte update and the whole function (rules R166
to R168). -/

namespace Sys2Proof.Machine

/-- One of the eight rounds of `crc_step` (rule R166). -/
def crcRound (acc : Word) : Word :=
  if acc.getLsbD 0 then (acc >>> 1) ^^^ 0xEDB88320 else acc >>> 1

/-- `n` rounds. -/
def crcRounds : Nat → Word → Word
  | 0, acc => acc
  | n + 1, acc => crcRounds n (crcRound acc)

/-- `crc_step(acc, b)` (rule R166). -/
def crcStep (acc : Word) (b : Byte) : Word := crcRounds 8 (acc ^^^ b.setWidth 32)

/-- The initial accumulator (rules R167, R169). -/
def crcStart : Word := 0xFFFFFFFF

/-- Feed bytes in order (rule R168(a)). -/
def crcFeed (acc : Word) (bs : List Byte) : Word := bs.foldl crcStep acc

/-- The final XOR, which takes an accumulator to the finished value and back (rules R29, R167). -/
def crcFinish (acc : Word) : Word := acc ^^^ 0xFFFFFFFF

/-- `crc32(s)` (rule R167). -/
def crc32 (bs : List Byte) : Word := crcFinish (crcFeed crcStart bs)

end Sys2Proof.Machine
end

