-- ==== Sys2Proof/Config.lean ====
section
/-! DEFINITION. The parameters of the block: the ones the source fixes (rule R9) and the ones it leaves
open (rule R10), the latter as a configuration record with the stated constraints and defaults
(`93_implementation_defined.md` U9). -/

namespace Sys2Proof

/-- The five byte buffers of rules R56 to R60. -/
inductive Buf where
  | txbuf
  | rxbuf
  | smp
  | pln
  | pkt
  deriving DecidableEq, Repr

/-- Every buffer, in the order of the region map (rule R71). -/
def Buf.all : List Buf := [.txbuf, .rxbuf, .smp, .pln, .pkt]

/-- The functions from byte strings to 32-bit values that `CRC32FN` may be besides the decided one, numbered
(rule R165). A free value: nothing says which functions they are (log entry 2). -/
opaque otherCrc32 : Nat → List Byte → Word

/-- The choice of `CRC32FN` (rules R10, R165), as plain data. -/
inductive Crc32Fn where
  /-- The decided instance, CRC-32/ISO-HDLC (rules R166, R167). -/
  | decided
  /-- Any other function, known only as a function of the bytes and their order (log entry 2). -/
  | other (n : Nat)
  deriving DecidableEq, Repr

/-- `CRC32FN` applied to a byte string (rule R165). -/
def Crc32Fn.value : Crc32Fn → List Byte → Word
  | .decided, bs => Machine.crc32 bs
  | .other n, bs => otherCrc32 n bs

/-- The one constraint on `CRC32FN` (rules R10, R165 (ii)): any single-bit flip of its input changes its
result. -/
def Crc32Fn.FlipSensitive (f : Crc32Fn) : Prop :=
  ∀ (pre post : List Byte) (b : Byte) (j : Nat), j < 8 →
    f.value (pre ++ (b ^^^ BitVec.twoPow 8 j) :: post) ≠ f.value (pre ++ b :: post)

/-- The open parameters of rule R10: fixed when the block is built, never changed by a step
(rule R20; log entry 1). `BUS_PROTOCOL` stays abstract (log entry 3). -/
structure Config where
  /-- `MAXPACKET`: size of PKT in bytes and largest packet length `FRAME` accepts. -/
  maxPacket : Nat
  /-- `RXBUF_BYTES`: size of RXBUF in bytes. -/
  rxbufBytes : Nat
  /-- `NMAX`: largest sample count of one pipeline command. -/
  nmax : Nat
  /-- `HEX_UPPER`: the serializer emits `'A'..'F'` (true) or `'a'..'f'` (false). -/
  hexUpper : Bool
  /-- `CRC32FN`. -/
  crc32fn : Crc32Fn
  /-- `REG_BASE`, block-relative. -/
  regBase : Nat
  /-- `TXBUF_BASE`, block-relative. -/
  txbufBase : Nat
  /-- `RXBUF_BASE`, block-relative. -/
  rxbufBase : Nat
  /-- `SMP_BASE`, block-relative. -/
  smpBase : Nat
  /-- `PLN_BASE`, block-relative. -/
  plnBase : Nat
  /-- `PKT_BASE`, block-relative. -/
  pktBase : Nat
  deriving DecidableEq, Repr

/-- The decided defaults of rules R10 and R71. -/
def Config.default : Config where
  maxPacket := 65536
  rxbufBytes := 16384
  nmax := 16384
  hexUpper := true
  crc32fn := .decided
  regBase := 0x00000
  txbufBase := 0x04000
  rxbufBase := 0x08000
  smpBase := 0x10000
  plnBase := 0x18000
  pktBase := 0x20000

/-- `CRC32FN` of the block (rule R165). -/
def Config.crc32 (c : Config) (bs : List Byte) : Word := c.crc32fn.value bs

/-- The size of the register region in bytes (rule R71). -/
abbrev regRegionBytes : Nat := 256

/-- `OVERHEAD`: header and CRC field together (rule R9). -/
abbrev overheadBytes : Nat := 32

/-- `HDR_BYTES` (rule R9). -/
abbrev headerBytes : Nat := 24

/-- `CRC_CHARS` (rule R9). -/
abbrev crcChars : Nat := 8

/-- `BURST_MAX` (rule R9). -/
abbrev burstMax : Nat := 8192

/-- `RESYNC_STEP` (rule R9). -/
abbrev resyncStep : Nat := 4

/-- The block-relative address of a buffer's first byte (rule R71). -/
def Config.base (c : Config) : Buf → Nat
  | .txbuf => c.txbufBase
  | .rxbuf => c.rxbufBase
  | .smp => c.smpBase
  | .pln => c.plnBase
  | .pkt => c.pktBase

/-- The size of a buffer in bytes (rules R56 to R60, R71). -/
def Config.size (c : Config) : Buf → Nat
  | .txbuf => overheadBytes + burstMax
  | .rxbuf => c.rxbufBytes
  | .smp => 2 * c.nmax
  | .pln => 2 * c.nmax
  | .pkt => c.maxPacket

/-- The six regions as (first address, size) pairs (rule R71). -/
def Config.regions (c : Config) : List (Nat × Nat) :=
  (c.regBase, regRegionBytes) :: Buf.all.map fun b => (c.base b, c.size b)

/-- The constraints of rule R10 on the open parameters. -/
abbrev Config.Legal (c : Config) : Prop :=
  1 ≤ c.maxPacket ∧
  (c.maxPacket + 127) / 128 + 1 ≤ 65535 ∧
  overheadBytes + burstMax ≤ c.rxbufBytes ∧
  8 ≤ c.nmax ∧ c.nmax % 8 = 0 ∧
  c.crc32fn.FlipSensitive ∧
  (∀ r ∈ c.regions, r.1 % 4 = 0) ∧
  c.regions.Pairwise fun a b => a.1 + a.2 ≤ b.1 ∨ b.1 + b.2 ≤ a.1

end Sys2Proof
end

