-- ==== Sys2Proof/Syntax.lean ====
section
/-! DEFINITION. The eleven commands (rule R120), one constructor per row of the opcode table. -/

namespace Sys2Proof

/-- A command: what the host writes to `CMD`, decoded (rules R110 to R112, R120). -/
inductive Instr where
  /-- `NOP` (rule R231). -/
  | nop
  /-- `SRST` (rule R232). -/
  | srst
  /-- `CRC_INIT` (rule R169). -/
  | crcInit
  /-- `FRAME` (rule R181). -/
  | frame
  /-- `RENDER #idx` (rule R185). -/
  | render (idx : Nat)
  /-- `SCAN` (rule R202). -/
  | scan
  /-- `RXCOMPACT` (rule R215). -/
  | rxcompact
  /-- `GRAY_ENC` (rule R142). -/
  | grayEnc
  /-- `GRAY_DEC` (rule R143). -/
  | grayDec
  /-- `BP_ENC #k` (rule R152). -/
  | bpEnc (k : Nat)
  /-- `BP_DEC #k` (rule R155). -/
  | bpDec (k : Nat)
  deriving DecidableEq, Repr

end Sys2Proof
end

