-- ==== Sys2Proof/WellFormed.lean ====
section
/-! DEFINITION. Which commands have an encoding: the immediates fit their fields (rule R111). -/

namespace Sys2Proof

/-- `idx` is a 16-bit burst index and `k` a 3-bit count (rule R111); the other commands have no
operand. -/
def Instr.wellFormed : Instr → Bool
  | .nop => true
  | .srst => true
  | .crcInit => true
  | .frame => true
  | .render idx => decide (idx ≤ 65535)
  | .scan => true
  | .rxcompact => true
  | .grayEnc => true
  | .grayDec => true
  | .bpEnc k => decide (k ≤ 7)
  | .bpDec k => decide (k ≤ 7)

end Sys2Proof
end

