-- ==== Sys2Proof/Decode.lean ====
section
/-! DEFINITION. The command word: decoder (total; an illegal word is rejected by the name of what is wrong
with it) and encoder (rules R110 to R115). -/

namespace Sys2Proof

/-- Why a command word is illegal (rule R113). -/
inductive IllegalWord where
  /-- `OP` is not one of the eleven opcodes. -/
  | undefinedOp
  /-- A `MOD` bit that the format requires to be zero is one. -/
  | modNotZero
  /-- `ARG` is not zero in a format that requires it to be. -/
  | argNotZero
  deriving DecidableEq, Repr

/-- The decoder's answer on one word (rule R113: total). -/
inductive Decoded where
  | command (i : Instr)
  | illegal (why : IllegalWord)
  deriving DecidableEq, Repr

/-- Bits 7:0, the opcode (rule R110). -/
def opField (w : Word) : Nat := (w.extractLsb' 0 8).toNat

/-- Bits 15:8, the modifier (rule R110). -/
def modField (w : Word) : Nat := (w.extractLsb' 8 8).toNat

/-- Bits 31:16, the immediate (rule R110). -/
def argField (w : Word) : Nat := (w.extractLsb' 16 16).toNat

/-- Format N: `MOD` and `ARG` must be zero (rule R110). -/
def formatN (i : Instr) (md arg : Nat) : Decoded :=
  if md ≠ 0 then .illegal .modNotZero
  else if arg ≠ 0 then .illegal .argNotZero
  else .command i

/-- Format I: `MOD` must be zero, `ARG` is the burst index (rules R110, R111). -/
def formatI (i : Nat → Instr) (md arg : Nat) : Decoded :=
  if md ≠ 0 then .illegal .modNotZero else .command (i arg)

/-- Format K: `MOD` bits 2:0 are `k`, bits 7:3 must be zero, `ARG` must be zero (rules R110, R111). -/
def formatK (i : Nat → Instr) (md arg : Nat) : Decoded :=
  if 8 ≤ md then .illegal .modNotZero
  else if arg ≠ 0 then .illegal .argNotZero
  else .command (i md)

/-- The opcode map (rule R112): the whole byte is matched. -/
def decodeFields (op md arg : Nat) : Decoded :=
  match op with
  | 0x00 => formatN .nop md arg
  | 0x01 => formatN .srst md arg
  | 0x10 => formatN .crcInit md arg
  | 0x20 => formatN .frame md arg
  | 0x21 => formatI .render md arg
  | 0x30 => formatN .scan md arg
  | 0x31 => formatN .rxcompact md arg
  | 0x40 => formatN .grayEnc md arg
  | 0x41 => formatN .grayDec md arg
  | 0x42 => formatK .bpEnc md arg
  | 0x43 => formatK .bpDec md arg
  | _ => .illegal .undefinedOp

/-- The decoder of command words. -/
def decode (w : Word) : Decoded :=
  decodeFields (opField w) (modField w) (argField w)

/-- A word from its three fields (rule R110). -/
def packWord (op md arg : Nat) : Word :=
  BitVec.ofNat 16 arg ++ BitVec.ofNat 8 md ++ BitVec.ofNat 8 op

/-- The word of a command (rules R112, R114). -/
def encode : Instr → Word
  | .nop => packWord 0x00 0 0
  | .srst => packWord 0x01 0 0
  | .crcInit => packWord 0x10 0 0
  | .frame => packWord 0x20 0 0
  | .render idx => packWord 0x21 0 idx
  | .scan => packWord 0x30 0 0
  | .rxcompact => packWord 0x31 0 0
  | .grayEnc => packWord 0x40 0 0
  | .grayDec => packWord 0x41 0 0
  | .bpEnc k => packWord 0x42 k 0
  | .bpDec k => packWord 0x43 k 0

/-- The word that an opcode-table number stands for: every command is one 32-bit word (rule R115), bit 0
its least significant bit, and the bits above `nbits` are zero. -/
def tableWord (nbits w : Nat) : Word := BitVec.ofNat 32 (w % 2 ^ nbits)

/-- What the decoder reads from a word of the opcode table's numbering. -/
def decodeTableWord (nbits w : Nat) : Option Instr :=
  match decode (tableWord nbits w) with
  | .command i => some i
  | .illegal _ => none

end Sys2Proof
end

