-- ==== Sys2Proof/Machine/State.lean ====
section
/-! DEFINITION. The state of the block (rules R20 to R65), the inputs that reach it from outside (rules R75,
R76, R258, R290) and the state after hardware reset (rules R55, R291). -/

namespace Sys2Proof.Machine

/-- Buffer contents: (block-relative address, byte) pairs, addresses strictly rising, no entry equal to
what an unlisted address reads as (`Memory.wf`). All five buffers live in the one address space of
rule R71. -/
abbrev Memory := List Host.Cell

/-- Result codes of `STATUS.RESULT` (rule R250; U4 allows the enumeration). -/
inductive Result where
  | ok
  | announce
  | data
  | terminal
  | needMore
  | crcBad
  | malformed
  | fault
  deriving DecidableEq, Repr

/-- The values of `RX_KIND` (rule R40). -/
inductive RxKind where
  | none
  | announce
  | data
  | terminal
  deriving DecidableEq, Repr

/-- The seven sticky fault bits of `FAULT` (rules R26, R252). They are state the machine goes on with,
not outcomes that stop it. -/
inductive FaultBit where
  | illegalCmd
  | busyAccess
  | badCfg
  | notFramed
  | badIndex
  | badRange
  | badAccess
  deriving DecidableEq, Repr

/-- The 27 registers of rule R54. -/
inductive Reg where
  | cmd | status | fault | ien | crcAcc | crcVal | crcData
  | txSerial | txProfile | txPacket | burstSize | pktLen | burstCount | txLen
  | rxLen | rxPos | rxKind | rxSerial | rxProfile | rxPacket | rxBurst | rxValue | rxPay
  | rxCrcCalc | rxCrcRcvd | nsamp | plnLen
  deriving DecidableEq, Repr

/-- What the bus answers to one host access (rules R75, R76): data of a read (zero-extended), OK of a
write, or `BusError`, which carries no data (U2). -/
inductive BusResponse where
  | data (v : Word)
  | ok
  | busError
  deriving DecidableEq, Repr

/-- One step of an agent outside the engine's own behaviour, as the environment orders them (rules R258,
R290; log entries 4 and 5). -/
inductive Event where
  /-- The host's `MemRead(addr, n)` (rule R75). -/
  | read (addr n : Nat)
  /-- The host's `MemWrite(addr, n, v)` (rule R76). -/
  | write (addr n : Nat) (v : Word)
  /-- The engine takes its turn (rule R258). -/
  | engine
  /-- Hardware reset (rule R290); `contents` lists what the buffers hold afterwards, which is
  unspecified (U1) and so comes with the event. -/
  | hardReset (contents : List Host.Cell)
  deriving DecidableEq, Repr

/-- The block's state. Fields up to `mem` are the spec's; `cfg`, `busResp` and `script`, and `crcFed`, are
the model's own (log entries 1, 2, 4 and 6). `CMD`, `CRC_VAL` and `CRC_DATA` store nothing (rules R24, R29, R30), and
`STATUS` is a view of `done`, `framed`, `result`, `lastop`, `pending` and `fault` (rule R25). -/
structure State where
  /-- `STATUS.DONE` (rule R25). -/
  done : Bool
  /-- The hidden flag `FRAMED` (rule R62). -/
  framed : Bool
  /-- `STATUS.RESULT` (rules R25, R250). -/
  result : Result
  /-- `STATUS.LASTOP` (rule R25). -/
  lastop : BitVec 8
  /-- `FAULT` bits 6:0 (rule R26). -/
  fault : BitVec 7
  /-- `IEN` bits 1:0 (rule R27). -/
  ien : BitVec 2
  /-- `CRC_ACC` (rule R28). -/
  crcAcc : Word
  /-- The bytes fed to the CRC since the accumulator was last set (rule R29): what a `CRC32FN` other than the
  decided one can depend on (rule R165 (i)). -/
  crcFed : List Byte
  /-- `TX_SERIAL` bits 15:0 (rule R31). -/
  txSerial : BitVec 16
  /-- `TX_PROFILE` bits 15:0 (rule R32). -/
  txProfile : BitVec 16
  /-- `TX_PACKET` bits 15:0 (rule R33). -/
  txPacket : BitVec 16
  /-- `BURST_SIZE` (rule R34). -/
  burstSize : Word
  /-- `PKT_LEN` (rule R35). -/
  pktLen : Word
  /-- `BURST_COUNT` (rule R36). -/
  burstCount : Word
  /-- `TX_LEN` (rule R37). -/
  txLen : Word
  /-- `RX_LEN` (rule R38). -/
  rxLen : Word
  /-- `RX_POS` (rule R39). -/
  rxPos : Word
  /-- `RX_KIND` bits 1:0 (rule R40). -/
  rxKind : RxKind
  /-- `RX_SERIAL` bits 13:0 (rule R41). -/
  rxSerial : BitVec 14
  /-- `RX_PROFILE` bits 16:0 (rule R42). -/
  rxProfile : BitVec 17
  /-- `RX_PACKET` bits 13:0 (rule R43). -/
  rxPacket : BitVec 14
  /-- `RX_BURST` bits 9:0 (rule R44). -/
  rxBurst : BitVec 10
  /-- `RX_VALUE` bits 13:0 (rule R45). -/
  rxValue : BitVec 14
  /-- `RX_PAY` (rule R46). -/
  rxPay : Word
  /-- `RX_CRC_CALC` (rule R47). -/
  rxCrcCalc : Word
  /-- `RX_CRC_RCVD` (rule R48). -/
  rxCrcRcvd : Word
  /-- `NSAMP` (rule R49). -/
  nsamp : Word
  /-- `PLN_LEN` (rule R50). -/
  plnLen : Word
  /-- The pending-command latch (rule R61): `STATUS.BUSY` is 1 exactly when it is full. -/
  pending : Option Word
  /-- The five buffers (rules R56 to R60). -/
  mem : Memory
  /-- The parameters of rule R10. -/
  cfg : Config
  /-- The answer to the last host access; none before the first. -/
  busResp : Option BusResponse
  /-- What the environment does next, first event first. -/
  script : List Event
  deriving DecidableEq, Repr

/-- Faults that would stop the machine. There is none: every access and every command of this block has
an effect the spec gives, and the block never halts (rule R313), so the type is empty. The sticky
fault bits of rule R252 are state (`FaultBit`). -/
inductive Fault where
  deriving DecidableEq, Repr

/-- Refusals of an instruction. -/
inductive Refusal where
  /-- Raised by an arm of `exec` that has no meaning yet; no arm raises it now. Safe: the machine stops. -/
  | notModelled (mnemonic : String)
  deriving DecidableEq, Repr

/-- The state after hardware reset (rules R55, R291): every register 0 but `CRC_ACC`, nothing pending,
`FRAMED` 0, the default parameters of rule R10; no buffer byte listed (the buffers are unspecified
after reset, U1: log entry 7), no access answered yet and nothing ordered by the environment. -/
def State.reset : State where
  done := false
  framed := false
  result := .ok
  lastop := 0
  fault := 0
  ien := 0
  crcAcc := 0xFFFFFFFF
  crcFed := []
  txSerial := 0
  txProfile := 0
  txPacket := 0
  burstSize := 0
  pktLen := 0
  burstCount := 0
  txLen := 0
  rxLen := 0
  rxPos := 0
  rxKind := .none
  rxSerial := 0
  rxProfile := 0
  rxPacket := 0
  rxBurst := 0
  rxValue := 0
  rxPay := 0
  rxCrcCalc := 0
  rxCrcRcvd := 0
  nsamp := 0
  plnLen := 0
  pending := none
  mem := []
  cfg := Config.default
  busResp := none
  script := []

end Sys2Proof.Machine
end

