-- ==== Sys2Proof/Machine/Ops.lean ====
section
/-! DEFINITION. The shared operations: buffer memory, completion of a command, raising a fault and leaving the
locked state, acceptance, the bus response. -/

namespace Sys2Proof.Machine

/-! ### Memory -/

/-- What an address no cell lists reads as (log entry 7). -/
def Memory.unlisted : Byte := 0x00

/-- The canonical form: addresses strictly rising, no cell equal to what an unlisted address reads as. -/
abbrev Memory.wf (m : Memory) : Prop :=
  List.Pairwise (fun c d => c.1 < d.1) m ∧ ∀ c ∈ m, c.2 ≠ Memory.unlisted

/-- One byte of memory. -/
def Memory.read : Memory → Nat → Byte
  | [], _ => Memory.unlisted
  | (k, c) :: rest, a => if k = a then c else Memory.read rest a

/-- Put byte `b` in front of `rest` at address `a`, unless it is what an unlisted address reads as. -/
def Memory.place (a : Nat) (b : Byte) (rest : Memory) : Memory :=
  if b = Memory.unlisted then rest else (a, b) :: rest

/-- Write one byte, keeping the canonical form. -/
def Memory.write : Memory → Nat → Byte → Memory
  | [], a, b => Memory.place a b []
  | (k, c) :: rest, a, b =>
    if a < k then Memory.place a b ((k, c) :: rest)
    else if a = k then Memory.place a b rest
    else (k, c) :: Memory.write rest a b

/-- The `n` bytes from address `a` on, in rising order. -/
def Memory.readBytes (m : Memory) (a n : Nat) : List Byte :=
  (List.range n).map fun i => m.read (a + i)

/-- Write bytes from address `a` on, in rising order. -/
def Memory.writeBytes : Memory → Nat → List Byte → Memory
  | m, _, [] => m
  | m, a, b :: bs => Memory.writeBytes (m.write a b) (a + 1) bs

/-- Write the listed cells one after another. -/
def Memory.writeCells : Memory → List Host.Cell → Memory
  | m, [] => m
  | m, (a, b) :: rest => Memory.writeCells (m.write a b) rest

/-- The state with another buffer memory. -/
def State.withMem (s : State) (m : Memory) : State := { s with mem := m }

/-- Byte `i` of a buffer: `BUF[i]` (rule R14). -/
def State.bufByte (s : State) (b : Buf) (i : Nat) : Byte := s.mem.read (s.cfg.base b + i)

/-- Bytes `i` to `i + n - 1` of a buffer (rule R14). -/
def State.bufBytes (s : State) (b : Buf) (i n : Nat) : List Byte :=
  s.mem.readBytes (s.cfg.base b + i) n

/-- Write bytes into a buffer from index `i` on (rule R14). -/
def State.bufWrite (s : State) (b : Buf) (i : Nat) (bs : List Byte) : State :=
  s.withMem (s.mem.writeBytes (s.cfg.base b + i) bs)

/-- The buffer whose region holds a block-relative address (rule R71). -/
def bufAt (c : Config) (addr : Nat) : Option Buf :=
  Buf.all.find? fun b => decide (c.base b ≤ addr ∧ addr < c.base b + c.size b)

/-! ### Completion, faults, acceptance -/

/-- Completion, `result <- code; done` (rule R260): in one step with the command's own writes. -/
def State.complete (s : State) (r : Result) : State :=
  { s with result := r, done := true, pending := none }

/-- The number of a fault bit (rule R26). -/
def FaultBit.index : FaultBit → Nat
  | .illegalCmd => 0
  | .busyAccess => 1
  | .badCfg => 2
  | .notFramed => 3
  | .badIndex => 4
  | .badRange => 5
  | .badAccess => 6

/-- A fault bit as a value of `FAULT` (rule R26). -/
def FaultBit.mask (f : FaultBit) : BitVec 7 := 1#7 <<< f.index

/-- Set one sticky bit of `FAULT` beside those already set (rules R26, R268). -/
def State.setFault (s : State) (f : FaultBit) : State :=
  { s with fault := s.fault ||| f.mask }

/-- `raise X`, the fault of a command (rule R262): the fault's bit, `RESULT` 0xFF and completion, nothing
else. The block's one way of taking an exception. -/
def State.raise (s : State) (f : FaultBit) : State := (s.setFault f).complete .fault

/-- The bus answers a host access (rules R75, R76). -/
def State.respond (s : State) (r : BusResponse) : State := { s with busResp := some r }

/-- The fault of a host access (rules R79, R89, R255): the access is not performed, the bit is set and the
answer is `BusError`; the fields of `STATUS` and the pending command are not touched. -/
def State.refuseAccess (s : State) (f : FaultBit) : State := (s.setFault f).respond .busError

/-- Acceptance of a command word (rule R256). -/
def State.accept (s : State) (w : Word) : State :=
  { s with done := false, lastop := w.extractLsb' 0 8, pending := some w }

/-- The state with another order of coming events. -/
def State.withScript (s : State) (es : List Event) : State := { s with script := es }

/-! ### Leaving the locked state (rule R264) -/

/-- Hardware reset values with given parameters and buffer contents (rules R55, R291). -/
def State.powerOn (c : Config) (m : Memory) : State := { State.reset with cfg := c, mem := m }

/-- The buffer contents that an unspecified choice `cells` gives (U1): only bytes of the five buffers
count. -/
def arbitraryContents (c : Config) (cells : List Host.Cell) : Memory :=
  Memory.writeCells [] (cells.filter fun x => (bufAt c x.1).isSome)

/-- Hardware reset from any state (rule R290): the pending command is abandoned, the buffers hold
unspecified bytes, the parameters stay, the environment goes on. -/
def State.hardwareReset (s : State) (cells : List Host.Cell) : State :=
  (State.powerOn s.cfg (arbitraryContents s.cfg cells)).withScript s.script

/-- The register effect of `SRST` (rule R232): every register at its reset value, buffers unchanged,
`LASTOP` 0x01. -/
def State.softReset (s : State) : State :=
  { State.reset with
    lastop := 0x01, mem := s.mem, cfg := s.cfg, busResp := s.busResp, script := s.script }

end Sys2Proof.Machine
end

