-- ==== Sys2Proof/Machine/Flags.lean ====
section
/-! DEFINITION. Flags and codes: the fields of `STATUS`, result and kind codes, `irq` (rules R23 to R27,
R250, R265). -/

namespace Sys2Proof.Machine

/-- The code of a result (rule R250). -/
def Result.code : Result → BitVec 8
  | .ok => 0x00
  | .announce => 0x01
  | .data => 0x02
  | .terminal => 0x03
  | .needMore => 0x04
  | .crcBad => 0x05
  | .malformed => 0x06
  | .fault => 0xFF

/-- The value of `RX_KIND` (rule R40). -/
def RxKind.code : RxKind → BitVec 2
  | .none => 0
  | .announce => 1
  | .data => 2
  | .terminal => 3

/-- `STATUS.BUSY`: the pending-command latch is full (rule R61). -/
def State.busy (s : State) : Bool := s.pending.isSome

/-- `STATUS.FAULTED`: `FAULT` is not 0 (rule R25); the block is then locked (rule R263). -/
def State.faulted (s : State) : Bool := decide (s.fault ≠ 0)

/-- The `STATUS` word (rule R25): `LASTOP` 23:16, `RESULT` 15:8, `FAULTED` 3, `FRAMED` 2, `DONE` 1,
`BUSY` 0, the rest 0. -/
def State.statusWord (s : State) : Word :=
  0#8 ++ s.lastop ++ s.result.code ++ 0#4 ++
    BitVec.ofBool s.faulted ++ BitVec.ofBool s.framed ++ BitVec.ofBool s.done ++ BitVec.ofBool s.busy

/-- `IEN.DONE_IE` (rule R27). -/
def State.doneIe (s : State) : Bool := s.ien.getLsbD 0

/-- `IEN.FAULT_IE` (rule R27). -/
def State.faultIe (s : State) : Bool := s.ien.getLsbD 1

/-- The interrupt output, a pure function of the state (rule R265). -/
def State.irq (s : State) : Bool := (s.done && s.doneIe) || (s.faulted && s.faultIe)

end Sys2Proof.Machine
end

