-- ==== Sys2Proof/Machine/Operands.lean ====
section
/-! DEFINITION. Operand forms: the register map and the read value of every register (rules R24 to R55),
16-bit samples of SMP (rules R59, R73), values of the bus in big-endian bytes (rule R72), bit placement. -/

namespace Sys2Proof.Machine

/-- The offset of a register (rule R54). -/
def Reg.offset : Reg → Nat
  | .cmd => 0x00
  | .status => 0x04
  | .fault => 0x08
  | .ien => 0x0C
  | .crcAcc => 0x10
  | .crcVal => 0x14
  | .crcData => 0x18
  | .txSerial => 0x20
  | .txProfile => 0x24
  | .txPacket => 0x28
  | .burstSize => 0x2C
  | .pktLen => 0x30
  | .burstCount => 0x34
  | .txLen => 0x38
  | .rxLen => 0x40
  | .rxPos => 0x44
  | .rxKind => 0x48
  | .rxSerial => 0x4C
  | .rxProfile => 0x50
  | .rxPacket => 0x54
  | .rxBurst => 0x58
  | .rxValue => 0x5C
  | .rxPay => 0x60
  | .rxCrcCalc => 0x64
  | .rxCrcRcvd => 0x68
  | .nsamp => 0x70
  | .plnLen => 0x74

/-- Every register, in the order of the map (rule R54). -/
def Reg.all : List Reg :=
  [.cmd, .status, .fault, .ien, .crcAcc, .crcVal, .crcData] ++
  [.txSerial, .txProfile, .txPacket, .burstSize, .pktLen, .burstCount, .txLen] ++
  [.rxLen, .rxPos, .rxKind, .rxSerial, .rxProfile, .rxPacket, .rxBurst, .rxValue, .rxPay] ++
  [.rxCrcCalc, .rxCrcRcvd, .nsamp, .plnLen]

/-- The register at an offset; none at a reserved offset (rule R51) or between registers. -/
def Reg.ofOffset (o : Nat) : Option Reg := Reg.all.find? fun r => decide (r.offset = o)

/-- The value a host read of a register returns (rules R24 to R50): write-only registers and reserved bits
read 0, `CRC_VAL` is `CRC_ACC XOR 0xFFFFFFFF`. -/
def State.regValue (s : State) : Reg → Word
  | .cmd => 0
  | .status => s.statusWord
  | .fault => s.fault.setWidth 32
  | .ien => s.ien.setWidth 32
  | .crcAcc => s.crcAcc
  | .crcVal => s.crcAcc ^^^ 0xFFFFFFFF
  | .crcData => 0
  | .txSerial => s.txSerial.setWidth 32
  | .txProfile => s.txProfile.setWidth 32
  | .txPacket => s.txPacket.setWidth 32
  | .burstSize => s.burstSize
  | .pktLen => s.pktLen
  | .burstCount => s.burstCount
  | .txLen => s.txLen
  | .rxLen => s.rxLen
  | .rxPos => s.rxPos
  | .rxKind => s.rxKind.code.setWidth 32
  | .rxSerial => s.rxSerial.setWidth 32
  | .rxProfile => s.rxProfile.setWidth 32
  | .rxPacket => s.rxPacket.setWidth 32
  | .rxBurst => s.rxBurst.setWidth 32
  | .rxValue => s.rxValue.setWidth 32
  | .rxPay => s.rxPay
  | .rxCrcCalc => s.rxCrcCalc
  | .rxCrcRcvd => s.rxCrcRcvd
  | .nsamp => s.nsamp
  | .plnLen => s.plnLen

/-! ### Byte order of the bus -/

/-- The value of bytes, the first the most significant (rule R72). -/
def beValue (bs : List Byte) : Word :=
  bs.foldl (fun acc b => (acc <<< 8) ||| b.setWidth 32) 0

/-- The `n` low bytes of a value, the most significant first (rules R72, R76). -/
def beBytes (n : Nat) (v : Word) : List Byte :=
  (List.range n).map fun j => (v >>> (8 * (n - 1 - j))).setWidth 8

/-! ### Samples -/

/-- `smp(i)`: the byte at the lower offset is the more significant (rule R73). -/
def State.sample (s : State) (i : Nat) : Sample :=
  s.bufByte .smp (2 * i) ++ s.bufByte .smp (2 * i + 1)

/-- Samples 0 to `n - 1`. -/
def State.samples (s : State) (n : Nat) : List Sample := (List.range n).map s.sample

/-- The two bytes of a sample, most significant first (rule R73). -/
def sampleBytes (v : Sample) : List Byte := [v.extractLsb' 8 8, v.extractLsb' 0 8]

/-- Write samples 0, 1, ... of SMP (rule R59). -/
def State.writeSamples (s : State) (vs : List Sample) : State :=
  s.bufWrite .smp 0 (vs.flatMap sampleBytes)

/-- The `w`-bit value whose bit `p` is `f p`. -/
def ofBits (w : Nat) (f : Nat → Bool) : BitVec w :=
  (List.range w).foldl (fun acc p => acc ||| (if f p then BitVec.twoPow w p else 0)) 0

/-! ### Operand checks -/

/-- `n > NMAX`, the operand check of the four pipeline commands (rules R141, R151). -/
def State.sampleRangeBad (s : State) : Bool := decide (s.cfg.nmax < s.nsamp.toNat)

/-- `RX_LEN > RXBUF_BYTES` or `RX_POS > RX_LEN`, the range check of `SCAN` and `RXCOMPACT` (rule R203). -/
def State.rxRangeBad (s : State) : Bool :=
  decide (s.cfg.rxbufBytes < s.rxLen.toNat ∨ s.rxLen.toNat < s.rxPos.toNat)

end Sys2Proof.Machine
end

