-- ==== Sys2Proof/Machine/Text.lean ====
section
/-! DEFINITION. ASCII text of the wire formats: decimal and hexadecimal fields (rules R12, R13), the burst
header (rules R100 to R106, R184), control lines and heartbeat as data formats (rules R107, R108). -/

namespace Sys2Proof.Machine

/-- The magic `"BRST"` (rules R9, R101). -/
def magic : List Byte := [0x42, 0x52, 0x53, 0x54]

/-- `'Z'` seven times, bytes 17..23 of a terminal burst (rule R104). -/
def terminalMark : List Byte := [0x5A, 0x5A, 0x5A, 0x5A, 0x5A, 0x5A, 0x5A]

/-- The ASCII digit of `d mod 10` (rule R12). -/
def decDigit (d : Nat) : Byte := BitVec.ofNat 8 (0x30 + d % 10)

/-- `dec_n(v)`: the last `n` decimal digits of `v`, most significant first, padded with `'0'`
(rule R13). -/
def decN : Nat → Nat → List Byte
  | 0, _ => []
  | n + 1, v => decN n (v / 10) ++ [decDigit v]

/-- `isdigit(b)` (rule R13). -/
def isDigit (b : Byte) : Bool := decide (0x30 ≤ b.toNat ∧ b.toNat ≤ 0x39)

/-- `decval(s)` of a string of digits (rule R13). -/
def decVal (bs : List Byte) : Nat := bs.foldl (fun acc b => acc * 10 + (b.toNat - 0x30)) 0

/-- The hex digit of a nibble (rule R13): digits 10..15 in the case `HEX_UPPER` chooses. -/
def hexDigit (upper : Bool) (d : Nat) : Byte :=
  if d < 10 then BitVec.ofNat 8 (0x30 + d)
  else if upper then BitVec.ofNat 8 (0x41 + (d - 10))
  else BitVec.ofNat 8 (0x61 + (d - 10))

/-- `hex8(v)`: eight hex digits, most significant nibble first (rule R13). -/
def hex8 (upper : Bool) (v : Word) : List Byte :=
  (List.range 8).map fun i => hexDigit upper (v.extractLsb' (28 - 4 * i) 4).toNat

/-- `ishex(b)`: both cases are accepted (rule R13). -/
def isHex (b : Byte) : Bool :=
  isDigit b || decide (0x41 ≤ b.toNat ∧ b.toNat ≤ 0x46) || decide (0x61 ≤ b.toNat ∧ b.toNat ≤ 0x66)

/-- The value of one hex digit (rules R12, R13). -/
def hexDigitVal (b : Byte) : Nat :=
  if b.toNat ≤ 0x39 then b.toNat - 0x30
  else if b.toNat ≤ 0x46 then b.toNat - 0x41 + 10
  else b.toNat - 0x61 + 10

/-- `hexval(s)`: the first digit is the most significant nibble (rule R13). -/
def hexVal (bs : List Byte) : Word :=
  BitVec.ofNat 32 (bs.foldl (fun acc b => acc * 16 + hexDigitVal b) 0)

/-- Bytes `i` to `i + n - 1` of a string. -/
def slice (bs : List Byte) (i n : Nat) : List Byte := (bs.drop i).take n

/-! ### The burst header -/

/-- The three well-formed kinds of a header, with what distinguishes them (rule R106). -/
inductive Header where
  | announce (count : Nat)
  | data (bn size : Nat)
  | terminal
  deriving DecidableEq, Repr

/-- `bn` of rule R207. -/
def Header.bn : Header → Nat
  | .announce _ => 0
  | .data bn _ => bn
  | .terminal => 0

/-- `val` of rule R207. -/
def Header.val : Header → Nat
  | .announce count => count
  | .data _ size => size
  | .terminal => 0

/-- `sz` of rule R207: the payload length. -/
def Header.payload : Header → Nat
  | .announce _ => 0
  | .data _ size => size
  | .terminal => 0

/-- The value of `RX_KIND` for a verified burst (rule R40). -/
def Header.kind : Header → RxKind
  | .announce _ => .announce
  | .data _ _ => .data
  | .terminal => .terminal

/-- The result of a `SCAN` that verifies a burst (rule R202). -/
def Header.result : Header → Result
  | .announce _ => .announce
  | .data _ _ => .data
  | .terminal => .terminal

/-- Bytes 17..23 of a header (rules R102 to R104). -/
def Header.tail : Header → List Byte
  | .announce count => decN 3 0 ++ decN 4 count
  | .data bn size => decN 3 bn ++ decN 4 size
  | .terminal => terminalMark

/-- The 24 header bytes (rules R101 to R104). -/
def headerOf (serial profile packet : Nat) (h : Header) : List Byte :=
  magic ++ decN 4 serial ++ decN 5 profile ++ decN 4 packet ++ h.tail

/-- Classification of 24 header bytes that begin with the magic; none is *malformed* (rule R106). -/
def classify (h : List Byte) : Option Header :=
  if (slice h 4 13).all isDigit then
    if slice h 17 7 = terminalMark then some .terminal
    else if (slice h 17 7).all isDigit then
      if decVal (slice h 17 3) = 0 then some (.announce (decVal (slice h 20 4)))
      else if burstMax < decVal (slice h 20 4) then none
      else some (.data (decVal (slice h 17 3)) (decVal (slice h 20 4)))
    else none
  else none

/-! ### Control lines and heartbeat: data formats software uses -/

/-- The two keywords of a control line (rule R107). -/
inductive ControlKeyword where
  | rxed
  | rsnd
  deriving DecidableEq, Repr

/-- `"RXED"` or `"RSND"` (rule R107). -/
def ControlKeyword.bytes : ControlKeyword → List Byte
  | .rxed => [0x52, 0x58, 0x45, 0x44]
  | .rsnd => [0x52, 0x53, 0x4E, 0x44]

/-- Bytes 0..24 of a control line, through the last comma: what its CRC covers (rules R107, R172). The
burst field 999 means the whole packet. -/
def controlPrefix (kw : ControlKeyword) (serial profile packet burst : Nat) : List Byte :=
  kw.bytes ++ [0x2C] ++ decN 4 serial ++ [0x2C] ++ decN 5 profile ++ [0x2C] ++ decN 4 packet ++
    [0x2C] ++ decN 3 burst ++ [0x2C]

/-- The heartbeat line `"ALIF"` CR LF (rule R108). -/
def heartbeat : List Byte := [0x41, 0x4C, 0x49, 0x46, 0x0D, 0x0A]

end Sys2Proof.Machine
end

