-- ==== Sys2Proof/Machine/Crc.lean ====
section
/-! DEFINITION. The CRC engine of the block: the `CRC_DATA` port, the accumulator that `RENDER` and `SCAN` leave,
control lines and the command `CRC_INIT` (rules R63, R107, R165, R169 to R172). -/

namespace Sys2Proof.Machine

/-- The accumulator after one byte more (rule R170): `crc_step` for the decided function; for another one the
accumulator whose finished value is the function of all the bytes fed (rule R29; log entry 2). -/
def State.nextCrcAcc (s : State) (b : Byte) : Word :=
  match s.cfg.crc32fn with
  | .decided => crcStep s.crcAcc b
  | .other n => crcFinish ((Crc32Fn.other n).value (s.crcFed ++ [b]))

/-- The effect of a write to the `CRC_DATA` port: one byte, `w[7:0]` (rule R170). -/
def State.feedCrc (s : State) (w : Word) : State :=
  { s with crcAcc := s.nextCrcAcc (w.setWidth 8), crcFed := s.crcFed ++ [w.setWidth 8] }

/-- A command computes the CRC of its own bytes and leaves the accumulator after the last of them
(rules R63, R185, R209). -/
def State.setCrc (s : State) (bs : List Byte) : State :=
  { s with crcAcc := crcFinish (s.cfg.crc32 bs), crcFed := bs }

/-- A whole control line of 35 bytes (rule R107). -/
def controlLine (c : Config) (kw : ControlKeyword) (serial profile packet burst : Nat) : List Byte :=
  let covered := controlPrefix kw serial profile packet burst
  covered ++ hex8 c.hexUpper (c.crc32 covered) ++ [0x0D, 0x0A]

/-- `CRC_INIT` (rule R169). -/
def execCrcInit (s : State) : Host.Outcome State Fault Refusal :=
  .next ({ s with crcAcc := crcStart, crcFed := [] }.complete .ok)

end Sys2Proof.Machine
end

