-- ==== Sys2Proof/Machine/Bus.lean ====
section
/-! DEFINITION. Host accesses: what is legal, reads, writes and their side effects, accesses while BUSY, the
lock (rules R70 to R89, R255 to R257, R263, R267). -/

namespace Sys2Proof.Machine

/-- What a legal access reaches: a register, or a buffer from a byte index on. -/
inductive Target where
  | reg (r : Reg)
  | buf (b : Buf) (off : Nat)
  deriving DecidableEq, Repr

/-- The register region holds the address (rule R71). -/
def inRegRegion (c : Config) (addr : Nat) : Bool :=
  decide (c.regBase ≤ addr ∧ addr < c.regBase + regRegionBytes)

/-- `legal(addr, n, kind)` together with what the access reaches; none when it is illegal (rule R77;
the rule is the same for reads and writes). -/
def target (c : Config) (addr n : Nat) : Option Target :=
  if inRegRegion c addr then
    if n = 4 ∧ addr % 4 = 0 then (Reg.ofOffset (addr - c.regBase)).map .reg else none
  else
    match bufAt c addr with
    | none => none
    | some b =>
      if (n = 1 ∨ n = 2 ∨ n = 4) ∧ addr % n = 0 ∧ addr + n - 1 < c.base b + c.size b then
        some (.buf b (addr - c.base b))
      else none

/-- The two registers that may be read while BUSY (rules R25, R26, R89). -/
def Target.readableWhileBusy : Target → Bool
  | .reg r => decide (r = .status ∨ r = .fault)
  | .buf _ _ => false

/-- The value a performed read returns (rules R72, R75). -/
def State.readTarget (s : State) (n : Nat) : Target → Word
  | .reg r => s.regValue r
  | .buf b off => beValue (s.bufBytes b off n)

/-- `MemRead(addr, n)` (rule R75). -/
def State.hostRead (s : State) (addr n : Nat) : State :=
  match target s.cfg addr n with
  | none => s.refuseAccess .badAccess
  | some t =>
    if s.busy && !t.readableWhileBusy then s.refuseAccess .busyAccess
    else s.respond (.data (s.readTarget n t))

/-- A write to `CMD` while not BUSY: ignored while locked unless it is exactly `SRST`, else accepted
(rules R256, R263). -/
def State.issue (s : State) (w : Word) : State :=
  if s.faulted && decide (w ≠ 0x00000001) then s else s.accept w

/-- The write effect of each register (rules R24 to R50, R53, R80): read-only registers ignore it. -/
def State.writeReg (s : State) (v : Word) : Reg → State
  | .cmd => s.issue v
  | .status => if v.getLsbD 1 then { s with done := false } else s
  | .fault => s
  | .ien => { s with ien := v.setWidth 2 }
  | .crcAcc => s
  | .crcVal => s
  | .crcData => s.feedCrc v
  | .txSerial => { s with txSerial := v.setWidth 16 }
  | .txProfile => { s with txProfile := v.setWidth 16 }
  | .txPacket => { s with txPacket := v.setWidth 16 }
  | .burstSize => { s with burstSize := v, framed := false }
  | .pktLen => { s with pktLen := v, framed := false }
  | .burstCount => s
  | .txLen => s
  | .rxLen => { s with rxLen := v }
  | .rxPos => { s with rxPos := v }
  | .rxKind => s
  | .rxSerial => s
  | .rxProfile => s
  | .rxPacket => s
  | .rxBurst => s
  | .rxValue => s
  | .rxPay => s
  | .rxCrcCalc => s
  | .rxCrcRcvd => s
  | .nsamp => { s with nsamp := v }
  | .plnLen => s

/-- The effect of a performed write of `n` bytes (rules R72, R76). -/
def State.writeTarget (s : State) (n : Nat) (v : Word) : Target → State
  | .reg r => s.writeReg v r
  | .buf b off => s.bufWrite b off (beBytes n v)

/-- `MemWrite(addr, n, v)` (rule R76). -/
def State.hostWrite (s : State) (addr n : Nat) (v : Word) : State :=
  match target s.cfg addr n with
  | none => s.refuseAccess .badAccess
  | some t =>
    if s.busy then s.refuseAccess .busyAccess else (s.writeTarget n v t).respond .ok

end Sys2Proof.Machine
end

