-- ==== Sys2Proof/Machine/Framer.lean ====
section
/-! DEFINITION. The burst-framing serializer: `FRAME` and `RENDER` (rules R180 to R187). -/

namespace Sys2Proof.Machine

/-- The seven legal burst sizes (rules R9, R34). -/
def legalBurstSizes : List Nat := [128, 256, 512, 1024, 2048, 4096, 8192]

/-- The operand checks of `FRAME`, in order (rule R181). -/
def State.frameCfgBad (s : State) : Bool :=
  !legalBurstSizes.contains s.burstSize.toNat || decide (s.cfg.maxPacket < s.pktLen.toNat)

/-- `ceil(L / S)` (rules R11, R181). -/
def ceilDiv (l d : Nat) : Nat := (l + d - 1) / d

/-- `FRAME` (rule R181). -/
def execFrame (s : State) : Host.Outcome State Fault Refusal :=
  if s.frameCfgBad then .next (s.raise .badCfg)
  else
    let n := ceilDiv s.pktLen.toNat s.burstSize.toNat
    .next ({ s with burstCount := BitVec.ofNat 32 n, framed := true }.complete .ok)

/-- `offset(b)` (rule R182). -/
def State.burstOffset (s : State) (b : Nat) : Nat := (b - 1) * s.burstSize.toNat

/-- `size(b)`: the last burst has what the full ones leave (rule R182, conflict C2). -/
def State.burstLen (s : State) (b : Nat) : Nat :=
  if b < s.burstCount.toNat then s.burstSize.toNat
  else s.pktLen.toNat - (s.burstCount.toNat - 1) * s.burstSize.toNat

/-- The kind of burst `idx` and its fields (rule R184). -/
def State.burstHeader (s : State) (idx : Nat) : Header :=
  if idx = 0 then .announce s.burstCount.toNat
  else if idx ≤ s.burstCount.toNat then .data idx (s.burstLen idx)
  else .terminal

/-- `hdr(idx)`, from the identity registers as they stand now (rule R184). -/
def State.renderedHeader (s : State) (idx : Nat) : List Byte :=
  headerOf s.txSerial.toNat s.txProfile.toNat s.txPacket.toNat (s.burstHeader idx)

/-- The payload of burst `idx`: a slice of PKT for a data burst, else empty (rule R185). -/
def State.burstPayload (s : State) (idx : Nat) : List Byte :=
  s.bufBytes .pkt (s.burstOffset idx) (s.burstHeader idx).payload

/-- The bytes the CRC of burst `idx` covers: header and payload (rules R172, R185). -/
def State.burstCovered (s : State) (idx : Nat) : List Byte :=
  s.renderedHeader idx ++ s.burstPayload idx

/-- The burst in wire order: header, CRC characters, payload (rules R100, R105, R185). -/
def State.wireBytes (s : State) (idx : Nat) : List Byte :=
  s.renderedHeader idx ++ hex8 s.cfg.hexUpper (s.cfg.crc32 (s.burstCovered idx)) ++ s.burstPayload idx

/-- `RENDER #idx` (rule R185). -/
def execRender (idx : Nat) (s : State) : Host.Outcome State Fault Refusal :=
  if !s.framed then .next (s.raise .notFramed)
  else if s.burstCount.toNat + 1 < idx then .next (s.raise .badIndex)
  else
    let t := (s.bufWrite .txbuf 0 (s.wireBytes idx)).setCrc (s.burstCovered idx)
    let len := overheadBytes + (s.burstHeader idx).payload
    .next ({ t with txLen := BitVec.ofNat 32 len }.complete .ok)

end Sys2Proof.Machine
end

