-- ==== Sys2Proof/Machine/Pipeline.lean ====
section
/-! DEFINITION. The sample transforms: Gray code and bit-plane transposition (rules R140 to R160). -/

namespace Sys2Proof.Machine

/-- Binary to Gray code (rule R142). -/
def grayEnc (v : Sample) : Sample := v ^^^ (v >>> 1)

/-- Gray code to binary, the prefix XOR `g XOR (g >> 1) XOR .. XOR (g >> 15)` (rule R143). -/
def grayDec (g : Sample) : Sample := (List.range 16).foldl (fun b i => b ^^^ (g >>> i)) 0

/-- A transform of samples 0 to `NSAMP - 1` in place, each independently of the others
(rules R141 to R143). -/
def State.mapSamples (s : State) (f : Sample → Sample) : State :=
  s.writeSamples ((s.samples s.nsamp.toNat).map f)

/-- `GRAY_ENC` (rule R142). -/
def execGrayEnc (s : State) : Host.Outcome State Fault Refusal :=
  if s.sampleRangeBad then .next (s.raise .badRange)
  else .next ((s.mapSamples grayEnc).complete .ok)

/-- `GRAY_DEC` (rule R143). -/
def execGrayDec (s : State) : Host.Outcome State Fault Refusal :=
  if s.sampleRangeBad then .next (s.raise .badRange)
  else .next ((s.mapSamples grayDec).complete .ok)

/-- `G = ceil(n / 8)`, the number of groups (rule R152). -/
def State.groups (s : State) : Nat := ceilDiv s.nsamp.toNat 8

/-- Bit `p` of sample `i`, 0 beyond `NSAMP` (rules R152, R159). -/
def State.laneBit (s : State) (i p : Nat) : Bool :=
  decide (i < s.nsamp.toNat) && (s.sample i).getLsbD p

/-- The byte of plane `j` (bit position `15 - j`) and group `g`: sample `8g + t` in bit `7 - t`
(rule R152). -/
def State.planeByte (s : State) (j g : Nat) : Byte :=
  ofBits 8 fun b => s.laneBit (8 * g + (7 - b)) (15 - j)

/-- The plane bytes of `BP_ENC #k`, plane-major (rules R150(a), R152). -/
def State.planeBytes (s : State) (k : Nat) : List Byte :=
  (List.range (16 - k)).flatMap fun j => (List.range s.groups).map fun g => s.planeByte j g

/-- `PLN_LEN` after either command (rules R50, R160). -/
def State.planeLen (s : State) (k : Nat) : Nat := (16 - k) * s.groups

/-- `BP_ENC #k` (rule R152). -/
def execBpEnc (k : Nat) (s : State) : Host.Outcome State Fault Refusal :=
  if s.sampleRangeBad then .next (s.raise .badRange)
  else
    let t := s.bufWrite .pln 0 (s.planeBytes k)
    .next ({ t with plnLen := BitVec.ofNat 32 (s.planeLen k) }.complete .ok)

/-- Sample `i` rebuilt from PLN: bits 15 to `k` from the planes, the rest 0 (rule R155). -/
def State.decodedSample (s : State) (k i : Nat) : Sample :=
  ofBits 16 fun p =>
    decide (k ≤ p) &&
      (s.bufByte .pln ((15 - p) * s.groups + i / 8)).getLsbD (7 - i % 8)

/-- `BP_DEC #k` (rule R155). -/
def execBpDec (k : Nat) (s : State) : Host.Outcome State Fault Refusal :=
  if s.sampleRangeBad then .next (s.raise .badRange)
  else
    let t := s.writeSamples ((List.range s.nsamp.toNat).map (s.decodedSample k))
    .next ({ t with plnLen := BitVec.ofNat 32 (s.planeLen k) }.complete .ok)

end Sys2Proof.Machine
end

