-- ==== Sys2Proof/Machine/System.lean ====
section
/-! DEFINITION. System commands: `NOP` and `SRST` (rules R230 to R232). -/

namespace Sys2Proof.Machine

/-- `NOP` (rule R231). -/
def execNop (s : State) : Host.Outcome State Fault Refusal := .next (s.complete .ok)

/-- `SRST` (rule R232): the way out of the locked state that a command offers (rule R264). -/
def execSrst (s : State) : Host.Outcome State Fault Refusal := .next (s.softReset.complete .ok)

end Sys2Proof.Machine
end

