-- ==== Sys2Proof/Machine/Verifier.lean ====
section
/-! DEFINITION. Receive scan and verification: `SCAN` and `RXCOMPACT` (rules R200 to R217). -/

namespace Sys2Proof.Machine

/-- The offset of the first `"BRST"` in a string (rule R204). -/
def findMagic : List Byte → Option Nat
  | [] => none
  | b :: rest =>
    if (b :: rest).take 4 = magic then some 0 else (findMagic rest).map (· + 1)

/-- What one attempt finds; `q` is the index of the magic (rules R204 to R211). -/
inductive ScanOutcome where
  /-- No magic in the window (rule R205). -/
  | noMagic
  /-- Magic found, too few bytes behind it (rules R206, R208). -/
  | short (q : Nat)
  /-- The header is of none of the three kinds (rule R207). -/
  | malformed (q : Nat)
  /-- The CRC of the bytes `covered` was computed and does not match; `rcvd` is 0 when the CRC field is not all hex digits
  (rules R209, R210). -/
  | crcBad (q : Nat) (covered : List Byte) (rcvd : Word)
  /-- The CRC matches (rule R211). -/
  | verified (q : Nat) (h : List Byte) (hd : Header) (covered : List Byte)
  deriving DecidableEq, Repr

/-- The CRC comparison at a magic `q` whose header is of kind `hd`, with all its bytes present
(rules R209 to R211). -/
def State.checkCrc (s : State) (q : Nat) (hd : Header) : ScanOutcome :=
  let h := s.bufBytes .rxbuf q headerBytes
  let covered := h ++ s.bufBytes .rxbuf (q + overheadBytes) hd.payload
  let f := s.bufBytes .rxbuf (q + headerBytes) crcChars
  if f.all isHex then
    if hexVal f = s.cfg.crc32 covered then .verified q h hd covered else .crcBad q covered (hexVal f)
  else .crcBad q covered 0

/-- The attempt at a magic `q` (rules R206 to R211). -/
def State.scanAt (s : State) (q : Nat) : ScanOutcome :=
  let avail := s.rxLen.toNat - q
  if avail < overheadBytes then .short q
  else
    match classify (s.bufBytes .rxbuf q headerBytes) with
    | none => .malformed q
    | some hd => if avail < overheadBytes + hd.payload then .short q else s.checkCrc q hd

/-- The attempt of one `SCAN` whose range check passes (rules R204 to R211). -/
def State.scanWindow (s : State) : ScanOutcome :=
  match findMagic (s.bufBytes .rxbuf s.rxPos.toNat (s.rxLen.toNat - s.rxPos.toNat)) with
  | none => .noMagic
  | some d => s.scanAt (s.rxPos.toNat + d)

/-- The cursor after a search that found no magic: `max(p, E - 3)` (rule R205). -/
def State.noMagicPos (s : State) : Nat := max s.rxPos.toNat (s.rxLen.toNat - 3)

/-- The registers an outcome writes, and completion (rules R202, R212). -/
def State.applyScan (s : State) : ScanOutcome → State
  | .noMagic =>
    { s with rxKind := .none, rxPos := BitVec.ofNat 32 s.noMagicPos }.complete .needMore
  | .short q =>
    { s with rxKind := .none, rxPos := BitVec.ofNat 32 q }.complete .needMore
  | .malformed q =>
    { s with rxKind := .none, rxPos := BitVec.ofNat 32 (q + resyncStep) }.complete .malformed
  | .crcBad q covered rcvd =>
    { s.setCrc covered with
      rxKind := .none, rxPos := BitVec.ofNat 32 (q + resyncStep),
      rxCrcCalc := s.cfg.crc32 covered, rxCrcRcvd := rcvd }.complete .crcBad
  | .verified q h hd covered =>
    { s.setCrc covered with
      rxKind := hd.kind, rxPos := BitVec.ofNat 32 (q + overheadBytes + hd.payload),
      rxSerial := BitVec.ofNat 14 (decVal (slice h 4 4)),
      rxProfile := BitVec.ofNat 17 (decVal (slice h 8 5)),
      rxPacket := BitVec.ofNat 14 (decVal (slice h 13 4)),
      rxBurst := BitVec.ofNat 10 hd.bn, rxValue := BitVec.ofNat 14 hd.val,
      rxPay := BitVec.ofNat 32 (q + overheadBytes),
      rxCrcCalc := s.cfg.crc32 covered, rxCrcRcvd := s.cfg.crc32 covered }.complete hd.result

/-- `SCAN` (rule R202). -/
def execScan (s : State) : Host.Outcome State Fault Refusal :=
  if s.rxRangeBad then .next (s.raise .badRange) else .next (s.applyScan s.scanWindow)

/-- `RXCOMPACT` (rule R215): the bytes are read before any is written, which is what the increasing copy
order of the rule achieves. -/
def execRxcompact (s : State) : Host.Outcome State Fault Refusal :=
  if s.rxRangeBad then .next (s.raise .badRange)
  else
    let m := s.rxLen.toNat - s.rxPos.toNat
    let t := s.bufWrite .rxbuf 0 (s.bufBytes .rxbuf s.rxPos.toNat m)
    .next ({ t with rxLen := BitVec.ofNat 32 m, rxPos := 0, rxKind := .none }.complete .ok)

end Sys2Proof.Machine
end

