-- ==== Sys2Proof/Machine/Dispatch.lean ====
section
/-! DEFINITION. The meaning of each command: one arm per constructor of Instr (rule R120). -/

namespace Sys2Proof.Machine

def exec (i : Instr) (s : State) : Host.Outcome State Fault Refusal :=
  match i with
  | .nop => Sys2Proof.Machine.execNop s
  | .srst => Sys2Proof.Machine.execSrst s
  | .crcInit => Sys2Proof.Machine.execCrcInit s
  | .frame => Sys2Proof.Machine.execFrame s
  | .render idx => Sys2Proof.Machine.execRender idx s
  | .scan => Sys2Proof.Machine.execScan s
  | .rxcompact => Sys2Proof.Machine.execRxcompact s
  | .grayEnc => Sys2Proof.Machine.execGrayEnc s
  | .grayDec => Sys2Proof.Machine.execGrayDec s
  | .bpEnc k => Sys2Proof.Machine.execBpEnc k s
  | .bpDec k => Sys2Proof.Machine.execBpDec k s

end Sys2Proof.Machine
end

