-- ==== Sys2Proof/Machine/Engine.lean ====
section
/-! DEFINITION. The two agents and how their steps are ordered (rules R258, R259, R290). -/

namespace Sys2Proof.Machine

/-- The engine's step (rules R253, R258): enabled when a command is pending, atomic; an illegal word raises
`ILLEGAL_CMD`. -/
def engineStep (s : State) : Host.Outcome State Fault Refusal :=
  match s.pending with
  | none => .next s
  | some w =>
    match decode w with
    | .command i => exec i s
    | .illegal _ => .next (s.raise .illegalCmd)

/-- One event the environment orders. -/
def eventStep (e : Event) (s : State) : Host.Outcome State Fault Refusal :=
  match e with
  | .read addr n => .next (s.hostRead addr n)
  | .write addr n v => .next (s.hostWrite addr n v)
  | .engine => engineStep s
  | .hardReset cells => .next (s.hardwareReset cells)

/-- One step of the machine: the next event of the script; when the script is empty the engine performs a
pending command (it is not delayed for ever, rule R259), else the block is idle (rule R294). -/
def machineStep (s : State) : Host.Outcome State Fault Refusal :=
  match s.script with
  | [] => engineStep s
  | e :: rest => eventStep e (s.withScript rest)

end Sys2Proof.Machine
end

