-- ==== Sys2Proof/Machine/Step.lean ====
section
/-! DEFINITION. One step of the machine, and the placing of a command word where the next step runs it. -/

namespace Sys2Proof.Machine

/-- One step (rule R258): one host access, one engine turn or one hardware reset. -/
def step (s : State) : Host.Outcome State Fault Refusal := machineStep s

/-- `s` with a command word accepted (rule R256) and the engine next to move, so that the next step decodes
and runs it. The block fetches nothing (rule R294): a command is the pending word (log entry 6). -/
def State.withFetchWord (s : State) (nbits w : Nat) : State :=
  (s.accept (tableWord nbits w)).withScript (.engine :: s.script)

end Sys2Proof.Machine
end

