-- ==== Sys2Proof/Safety.lean ====
section
/-! DEFINITION. What counts as a good state and a successful run, in the terms the claims use. -/

namespace Sys2Proof.Machine

/-- Success of a run (rule R313): `STATUS.FAULTED` is 0. -/
def State.success (s : State) : Bool := !s.faulted

/-- Every listed byte of memory lies in one of the five buffers (rules R70, R81). -/
abbrev State.MemInBuffers (s : State) : Prop := ∀ c ∈ s.mem, (bufAt s.cfg c.1).isSome

/-- While a command is pending, `DONE` is 0 and `LASTOP` is its opcode byte (rule R256). -/
abbrev State.PendingCoherent (s : State) : Prop :=
  ∀ w, s.pending = some w → s.done = false ∧ s.lastop = w.extractLsb' 0 8

/-- `FRAMED` says that `BURST_COUNT` was computed by `FRAME` from the present `BURST_SIZE` and `PKT_LEN`
(rules R36, R62). -/
abbrev State.FramedCoherent (s : State) : Prop :=
  s.framed = true →
    s.burstSize.toNat ∈ legalBurstSizes ∧ s.pktLen.toNat ≤ s.cfg.maxPacket ∧
      s.burstCount.toNat = ceilDiv s.pktLen.toNat s.burstSize.toNat

/-- The reported fields stay in the ranges of rules R41 to R45. -/
abbrev State.ReportInRange (s : State) : Prop :=
  s.rxSerial.toNat ≤ 9999 ∧ s.rxProfile.toNat ≤ 99999 ∧ s.rxPacket.toNat ≤ 9999 ∧
    s.rxBurst.toNat ≤ 999 ∧ s.rxValue.toNat ≤ 9999 ∧
    (s.rxKind = .announce → s.rxBurst.toNat = 0) ∧
    (s.rxKind = .data → 1 ≤ s.rxBurst.toNat ∧ s.rxValue.toNat ≤ burstMax) ∧
    (s.rxKind = .terminal → s.rxBurst.toNat = 0 ∧ s.rxValue.toNat = 0)

/-- The lengths the engine reports stay inside their buffers (rules R37, R57, R60, R160). -/
abbrev State.LengthsInRange (s : State) : Prop :=
  s.txLen.toNat ≤ s.cfg.size .txbuf ∧ s.plnLen.toNat ≤ s.cfg.size .pln

/-- `CRC_ACC` stands for the bytes fed since it was last set: `CRC_VAL` reads their CRC (rules R29, R171). -/
abbrev State.CrcCoherent (s : State) : Prop :=
  (s.crcFed = [] → s.crcAcc = 0xFFFFFFFF) ∧
    (s.crcFed ≠ [] → s.regValue .crcVal = s.cfg.crc32 s.crcFed)

/-- The invariant of the block. -/
structure Inv (s : State) : Prop where
  cfgLegal : s.cfg.Legal
  memWf : s.mem.wf
  memInBuffers : s.MemInBuffers
  pendingCoherent : s.PendingCoherent
  framedCoherent : s.FramedCoherent
  reportInRange : s.ReportInRange
  lengthsInRange : s.LengthsInRange
  crcCoherent : s.CrcCoherent

/-! ### Situations the claims name -/

/-- The engine moves in the next step: its turn in the script, or nothing ordered before it
(rules R258, R259). -/
abbrev State.EngineTurn (s : State) : Prop := s.script = [] ∨ s.script.head? = some .engine

/-- `RX_LEN ≤ RXBUF_BYTES` and `RX_POS ≤ RX_LEN` (rule R203). -/
abbrev State.RxRangeOk (s : State) : Prop :=
  s.rxLen.toNat ≤ s.cfg.rxbufBytes ∧ s.rxPos.toNat ≤ s.rxLen.toNat

/-- The window of four bytes at `q` is `"BRST"` (rule R204). -/
abbrev State.MagicAt (s : State) (q : Nat) : Prop :=
  s.bufBytes .rxbuf q 4 = [0x42, 0x52, 0x53, 0x54]

/-- `q` is the smallest index at or after the cursor with the whole magic among the received bytes
(rules R202, R204). -/
abbrev State.FirstMagic (s : State) (q : Nat) : Prop :=
  s.rxPos.toNat ≤ q ∧ q + 4 ≤ s.rxLen.toNat ∧ s.MagicAt q ∧
    ∀ r < q, s.rxPos.toNat ≤ r → ¬ s.MagicAt r

/-- One pass of the whole sample pipeline, encode and decode (rule R158). -/
abbrev PipelineRun (k : Nat) (s t : State) : Prop :=
  ∃ a b c, exec .grayEnc s = .next a ∧ exec (.bpEnc k) a = .next b ∧
    exec (.bpDec k) b = .next c ∧ exec .grayDec c = .next t

/-- `n` commands `SCAN`, one after another, with no host access between them (rule R213). -/
def scanTimes : Nat → State → Option State
  | 0, s => some s
  | n + 1, s =>
    match exec .scan s with
    | .next t => scanTimes n t
    | .fault _ => none
    | .refused _ => none

end Sys2Proof.Machine
end

