-- ==== Sys2Proof/Certificates/Slice0/Obligations.lean ====
section
/-! DEFINITION. The statements for the provers. Each docstring names the rule or the section of the spec it
rests on. A record update `t = { s with … }` says that every field it does not name is unchanged; a clause
about `mem.read` says which bytes of the buffers are. -/

open Sys2Proof Sys2Proof.Machine

/-! ### The command word -/

/-- Encoding then decoding gives the command back, with every operand the encoding admits (30_encoding.md,
Part B). -/
def Obligations.DecodeOfEncodeIsTheCommand : Prop :=
  ∀ i : Instr, i.wellFormed = true → decode (encode i) = .command i

/-- A word that decodes to a command is that command's one encoding (30_encoding.md, Part B: "every one of
the 2^32 words is either one of the legal commands or illegal"). -/
def Obligations.EncodeOfDecodeIsTheWord : Prop :=
  ∀ (w : Word) (i : Instr), decode w = .command i → i.wellFormed = true ∧ encode i = w

/-- Rule R114: a word is the command exactly when `w AND mask = match`, and the free field is the operand;
with the rule's examples. -/
def Obligations.WordIsCommandByMatchAndMask : Prop :=
  (∀ w : Word,
    (decode w = .command .nop ↔ w &&& 0xFFFFFFFF = 0x00000000) ∧
    (decode w = .command .srst ↔ w &&& 0xFFFFFFFF = 0x00000001) ∧
    (decode w = .command .crcInit ↔ w &&& 0xFFFFFFFF = 0x00000010) ∧
    (decode w = .command .frame ↔ w &&& 0xFFFFFFFF = 0x00000020) ∧
    (∀ idx, decode w = .command (.render idx) ↔
      w &&& 0x0000FFFF = 0x00000021 ∧ idx = (w.extractLsb' 16 16).toNat) ∧
    (decode w = .command .scan ↔ w &&& 0xFFFFFFFF = 0x00000030) ∧
    (decode w = .command .rxcompact ↔ w &&& 0xFFFFFFFF = 0x00000031) ∧
    (decode w = .command .grayEnc ↔ w &&& 0xFFFFFFFF = 0x00000040) ∧
    (decode w = .command .grayDec ↔ w &&& 0xFFFFFFFF = 0x00000041) ∧
    (∀ k, decode w = .command (.bpEnc k) ↔
      w &&& 0xFFFFF8FF = 0x00000042 ∧ k = (w.extractLsb' 8 3).toNat) ∧
    (∀ k, decode w = .command (.bpDec k) ↔
      w &&& 0xFFFFF8FF = 0x00000043 ∧ k = (w.extractLsb' 8 3).toNat)) ∧
  decode 0x00030021 = .command (.render 3) ∧
  decode 0x00000342 = .command (.bpEnc 3) ∧
  decode 0x00000743 = .command (.bpDec 7) ∧
  (∀ w ∈ ([0x00000842, 0x00010020, 0x00000099] : List Word), ∀ i, decode w ≠ .command i)

/-- Words written out from the encoding tables decode to what they stand for, or are illegal for the reason
the table gives (30_encoding.md, Part B; the illegal words are those of vectors V78, V80, V85, V86 and
V87). -/
def Obligations.SampleWordsDecode : Prop :=
  decode 0x00000000 = .command .nop ∧ decode 0x00000001 = .command .srst ∧
  decode 0x00000010 = .command .crcInit ∧ decode 0x00000020 = .command .frame ∧
  decode 0x00040021 = .command (.render 4) ∧ decode 0x00000030 = .command .scan ∧
  decode 0x00000031 = .command .rxcompact ∧ decode 0x00000040 = .command .grayEnc ∧
  decode 0x00000041 = .command .grayDec ∧ decode 0x00000742 = .command (.bpEnc 7) ∧
  decode 0x00000343 = .command (.bpDec 3) ∧
  decode 0x00000842 = .illegal .modNotZero ∧ decode 0x00000099 = .illegal .undefinedOp ∧
  decode 0x00010020 = .illegal .argNotZero ∧ decode 0x00000121 = .illegal .modNotZero ∧
  decode 0x00010342 = .illegal .argNotZero

/-! ### The machine's step -/

/-- On the engine's turn a pending legal word runs: the step is `exec` of the decoded command, with the turn
taken off the script; a pending illegal word raises `ILLEGAL_CMD`; with nothing pending the turn changes
nothing else (60_exceptions.md, section 3;
70_reset_and_hazards.md, sections 1 and 2). Two clauses rest on the model's own choices: that the engine
moves when the script is empty (log entry 4), and that `withFetchWord` places a word as accepted, in a
locked or BUSY state too (log entry 6). -/
def Obligations.EngineTurnRunsThePendingCommand : Prop :=
  (∀ (s : State) (w : Word) (i : Instr) (rest : List Event),
    s.script = .engine :: rest → s.pending = some w → decode w = .command i →
      step s = exec i { s with script := rest }) ∧
  (∀ (s : State) (w : Word) (i : Instr),
    s.script = [] → s.pending = some w → decode w = .command i → step s = exec i s) ∧
  (∀ (s : State) (w : Word) (why : IllegalWord),
    s.EngineTurn → s.pending = some w → decode w = .illegal why →
      step s = .next { s with
        script := s.script.tail, fault := s.fault ||| 0b0000001, result := .fault, done := true,
        pending := none }) ∧
  (∀ (s : State) (rest : List Event), s.script = .engine :: rest → s.pending = none →
    step s = .next { s with script := rest }) ∧
  (∀ s : State, s.script = [] → s.pending = none → step s = .next s) ∧
  (∀ (s : State) (i : Instr), i.wellFormed = true →
    step (s.withFetchWord 32 (encode i).toNat) =
      exec i { s with
        done := false, lastop := (encode i).extractLsb' 0 8, pending := some (encode i) })

/-- Rule R256: acceptance of a word written to `CMD` while not BUSY, and what the lock ignores. -/
def Obligations.CmdWriteIsAcceptedOrIgnored : Prop :=
  ∀ (s : State) (w : Word) (rest : List Event),
    s.cfg.Legal → s.pending = none → s.script = .write s.cfg.regBase 4 w :: rest →
    ((s.fault ≠ 0 ∧ w ≠ 0x00000001) →
      step s = .next { s with script := rest, busResp := some .ok }) ∧
    (¬ (s.fault ≠ 0 ∧ w ≠ 0x00000001) →
      step s = .next { s with
        script := rest, busResp := some .ok,
        done := false, lastop := w.extractLsb' 0 8, pending := some w })

/-- Rule R253: an illegal word that is accepted clears `DONE`, sets `LASTOP` and `BUSY`, and on the engine's
turn ends in `ILLEGAL_CMD`, `RESULT` 0xFF, `DONE`, not BUSY, nothing else changed. -/
def Obligations.IllegalWordRaisesIllegalCmd : Prop :=
  ∀ (s : State) (w : Word) (why : IllegalWord) (rest : List Event),
    s.cfg.Legal → s.pending = none → s.fault = 0 → decode w = .illegal why →
    s.script = .write s.cfg.regBase 4 w :: .engine :: rest →
    ∃ a, step s = .next a ∧ a.done = false ∧ a.lastop = w.extractLsb' 0 8 ∧ a.pending = some w ∧
      step a = .next { s with
        script := rest, busResp := some .ok, lastop := w.extractLsb' 0 8,
        fault := 0b0000001, result := .fault, done := true, pending := none }

/-- 60_exceptions.md, section 3 (a pending command is eventually performed): from any state with a pending
command, within the events the environment has ordered the same word is still pending and either the
engine's turn comes, which performs it (obligation EngineTurnRunsThePendingCommand), or a hardware reset,
which abandons it; the step after that leaves nothing pending. The bound rests on the model's own choice
that the order of events is a finite list after which the engine moves (log entry 4). -/
def Obligations.PendingCommandIsEventuallyPerformed : Prop :=
  ∀ (s : State) (w : Word), s.pending = some w →
    ∃ k u t, k ≤ s.script.length ∧ core.run k s = .next u ∧ u.pending = some w ∧
      (u.EngineTurn ∨ ∃ cells rest, u.script = .hardReset cells :: rest) ∧
      step u = .next t ∧ t.pending = none

/-- 70_reset_and_hazards.md, section 4, and 00_scope.md, section 5: the block never halts, so every state can
take another step, and no step changes the parameters, which are fixed when the block is built (the
model's own field `cfg`, log entry 1). -/
def Obligations.EveryStateHasANextStateOfTheSameBlock : Prop :=
  ∀ s : State, ∃ t, step s = .next t ∧ t.cfg = s.cfg

/-- Every step keeps the invariant: legal parameters, canonical memory inside the buffers, and the relations
between registers that rules R29, R36, R37, R41 to R45, R50, R62 and R256 give. -/
def Obligations.EveryStepKeepsTheInvariant : Prop :=
  ∀ s t : State, Inv s → step s = .next t → Inv t

/-- The invariant holds after reset. -/
def Obligations.ResetMeetsTheInvariant : Prop := Inv State.reset

/-! ### Reset -/

/-- Rule R291: the reset state after hardware reset from any state and after `SRST`. The buffers can hold any
bytes after hardware reset and are unchanged by `SRST`. They are then stable: a byte changes only in a step
that is a host write to it while not BUSY, the engine's turn on a command that writes a buffer and
completes with OK, or another hardware reset. -/
def Obligations.ResetStateIsComplete : Prop :=
  (∀ (s : State) (cells : List Host.Cell) (rest : List Event),
    s.script = .hardReset cells :: rest →
    ∃ t, step s = .next t ∧
      (∀ r, r ≠ .crcAcc → t.regValue r = 0) ∧ t.regValue .crcAcc = 0xFFFFFFFF ∧
      t.framed = false ∧ t.pending = none ∧ t.irq = false) ∧
  (∀ (s : State) (rest : List Event) (m : Memory), m.wf → (∀ c ∈ m, (bufAt s.cfg c.1).isSome) →
    ∃ cells, ∃ t, step { s with script := .hardReset cells :: rest } = .next t ∧ t.mem = m) ∧
  (∀ s : State, ∃ t, exec .srst s = .next t ∧
    t.regValue .status = 0x00010002 ∧ t.regValue .crcAcc = 0xFFFFFFFF ∧
    (∀ r, r ≠ .status → r ≠ .crcAcc → t.regValue r = 0) ∧
    t.framed = false ∧ t.pending = none ∧ t.irq = false ∧
    ∀ a, t.mem.read a = s.mem.read a) ∧
  (∀ (s t : State) (a : Nat), step s = .next t → t.mem.read a ≠ s.mem.read a →
    (∃ cells rest, s.script = .hardReset cells :: rest) ∨
    (s.pending = none ∧ ∃ addr n v rest b off, s.script = .write addr n v :: rest ∧
      target s.cfg addr n = some (.buf b off) ∧ addr ≤ a ∧ a < addr + n) ∨
    (s.EngineTurn ∧ t.result = .ok ∧ ∃ w i, s.pending = some w ∧ decode w = .command i ∧
      ((∃ idx, i = .render idx) ∨ i = .rxcompact ∨ i = .grayEnc ∨ i = .grayDec ∨
        (∃ k, i = .bpEnc k) ∨ ∃ k, i = .bpDec k)))

/-! ### System commands and the CRC engine -/

/-- 45_system.md, `NOP`: it completes with OK and changes nothing else. -/
def Obligations.NopOnlyCompletes : Prop :=
  ∀ s : State, exec .nop s = .next { s with result := .ok, done := true, pending := none }

/-- 45_system.md, `SRST`: the exact state it leaves. Buffers, parameters and what the environment holds are
unchanged; every register has its reset value, `LASTOP` is 0x01, and the command completes with OK. -/
def Obligations.SrstResetsEveryRegister : Prop :=
  ∀ s : State, exec .srst s = .next {
    done := true, framed := false, result := .ok, lastop := 0x01, fault := 0, ien := 0,
    crcAcc := 0xFFFFFFFF, crcFed := [], txSerial := 0, txProfile := 0, txPacket := 0, burstSize := 0,
    pktLen := 0,
    burstCount := 0, txLen := 0, rxLen := 0, rxPos := 0, rxKind := .none, rxSerial := 0,
    rxProfile := 0, rxPacket := 0, rxBurst := 0, rxValue := 0, rxPay := 0, rxCrcCalc := 0,
    rxCrcRcvd := 0, nsamp := 0, plnLen := 0, pending := none,
    mem := s.mem, cfg := s.cfg, busResp := s.busResp, script := s.script }

/-- 42_crc.md, `CRC_INIT`: the accumulator is set, `CRC_VAL` then reads 0, nothing else changes (`crcFed`, the
model's record of the bytes fed, starts again: log entry 2). -/
def Obligations.CrcInitSetsTheAccumulator : Prop :=
  ∀ s : State, ∃ t, exec .crcInit s = .next t ∧
    t = { s with
      crcAcc := 0xFFFFFFFF, crcFed := [], result := .ok, done := true, pending := none } ∧
    t.regValue .crcAcc = 0xFFFFFFFF ∧ t.regValue .crcVal = 0

/-- 42_crc.md, rules for `crc_step` and `crc32`: the decided function is the default, the worked step round by
round, and the worked values. -/
def Obligations.CrcWorkedValues : Prop :=
  (∀ bs, Config.default.crc32 bs = crc32 bs) ∧
  (List.range 8).map (fun n => crcRounds (n + 1) (0xFFFFFFFF ^^^ 0x61)) =
    [0x7FFFFFCF, 0xD2477CC7, 0x849B3D43, 0xAFF51D81, 0xBA420DE0, 0x5D2106F0, 0x2E908378, 0x174841BC] ∧
  crcStep 0xFFFFFFFF 0x61 = 0x174841BC ∧
  crc32 [] = 0x00000000 ∧
  crc32 [0x61] = 0xE8B7BE43 ∧
  crc32 [0x31, 0x32, 0x33, 0x34, 0x35, 0x36, 0x37, 0x38, 0x39] = 0xCBF43926

/-- Rule R168: the CRC of a concatenation continues the fold of `crc_step`, and two strings of equal length that
differ in exactly one bit (here: in one byte, in any way) have different CRCs. The function is total by
its type. -/
def Obligations.CrcStreamsAndDetectsOneChangedByte : Prop :=
  (∀ s t : List Byte,
    crc32 (s ++ t) = (t.foldl crcStep (s.foldl crcStep 0xFFFFFFFF)) ^^^ 0xFFFFFFFF) ∧
  (∀ (s t : List Byte) (x y : Byte), x ≠ y → crc32 (s ++ x :: t) ≠ crc32 (s ++ y :: t))

/-- Rule R170: the `CRC_DATA` port, for the decided CRC, whose `crc_step` the rule names (for another function:
obligation OnlyFourCommandsTouchTheCrc). A write feeds the byte `v[7:0]` at once, whether or not the block
is locked, and changes nothing else the spec names (`crcFed` is the model's record of the bytes fed); a
read returns 0 and feeds nothing. -/
def Obligations.CrcDataPortFeedsOneByte : Prop :=
  (∀ (s : State) (v : Word) (rest : List Event),
    s.cfg.Legal → s.cfg.crc32fn = .decided → s.pending = none →
    s.script = .write (s.cfg.regBase + 0x18) 4 v :: rest →
    step s = .next { s with
      script := rest, busResp := some .ok,
      crcAcc := crcStep s.crcAcc (v.extractLsb' 0 8), crcFed := s.crcFed ++ [v.extractLsb' 0 8] }) ∧
  (∀ (s : State) (rest : List Event),
    s.cfg.Legal → s.pending = none → s.script = .read (s.cfg.regBase + 0x18) 4 :: rest →
    step s = .next { s with script := rest, busResp := some (.data 0) }) ∧
  (∀ (s : State) (rest : List Event),
    s.cfg = Config.default → s.pending = none → s.crcAcc = 0xFFFFFFFF →
    s.script = .write 0x18 4 0x61 :: rest →
    ∃ t, step s = .next t ∧ t.regValue .crcAcc = 0x174841BC ∧ t.regValue .crcVal = 0xE8B7BE43)

/-- 10_state.md, one CRC datapath: of the commands only `SRST`, `CRC_INIT`, `RENDER` and `SCAN` touch
`CRC_ACC`; a `SCAN` that ends in NEED_MORE or MALFORMED does not; after a `SCAN` that computed its CRC,
`CRC_VAL` equals `RX_CRC_CALC`. And whatever function `CRC32FN` is, a byte written to the port is added to
the bytes fed and `CRC_VAL` then reads the function of them all, nothing else changing; `crcFed`, the
record of the bytes fed, is the model's own field (log entry 2), and `CrcCoherent` is part of the
invariant. -/
def Obligations.OnlyFourCommandsTouchTheCrc : Prop :=
  (∀ (i : Instr) (s t : State), exec i s = .next t → (t.crcAcc ≠ s.crcAcc ∨ t.crcFed ≠ s.crcFed) →
    i = .srst ∨ i = .crcInit ∨ (∃ idx, i = .render idx) ∨ i = .scan) ∧
  (∀ s t : State, exec .scan s = .next t →
    (t.result = .needMore ∨ t.result = .malformed → t.crcAcc = s.crcAcc ∧ t.crcFed = s.crcFed ∧
      t.rxCrcCalc = s.rxCrcCalc ∧ t.rxCrcRcvd = s.rxCrcRcvd) ∧
    (t.result = .announce ∨ t.result = .data ∨ t.result = .terminal ∨ t.result = .crcBad →
      t.regValue .crcVal = t.regValue .rxCrcCalc)) ∧
  (∀ (s : State) (v : Word) (rest : List Event),
    s.cfg.Legal → s.CrcCoherent → s.pending = none →
    s.script = .write (s.cfg.regBase + 0x18) 4 v :: rest →
    ∃ t, step s = .next t ∧ t.crcFed = s.crcFed ++ [v.extractLsb' 0 8] ∧
      t.regValue .crcVal = s.cfg.crc32 t.crcFed ∧
      t = { s with script := rest, busResp := some .ok, crcAcc := t.crcAcc, crcFed := t.crcFed })

/-! ### Framing -/

/-- 43_framer.md, `FRAME`: with a legal burst size and length it computes `ceil(L / S)`, sets `FRAMED`,
completes with OK and changes nothing else. -/
def Obligations.FrameComputesTheBurstCount : Prop :=
  ∀ s : State,
    s.burstSize.toNat ∈ ([128, 256, 512, 1024, 2048, 4096, 8192] : List Nat) →
    s.pktLen.toNat ≤ s.cfg.maxPacket →
    ∃ t, exec .frame s = .next t ∧
      t.burstCount.toNat = (s.pktLen.toNat + s.burstSize.toNat - 1) / s.burstSize.toNat ∧
      t = { s with
        burstCount := t.burstCount, framed := true, result := .ok, done := true, pending := none }

/-- 43_framer.md, `FRAME`: with any other burst size or a longer packet it raises `BAD_CFG` and changes
nothing else. -/
def Obligations.FrameRefusesABadConfiguration : Prop :=
  ∀ s : State,
    (s.burstSize.toNat ∉ ([128, 256, 512, 1024, 2048, 4096, 8192] : List Nat) ∨
      s.cfg.maxPacket < s.pktLen.toNat) →
    exec .frame s = .next { s with
      fault := s.fault ||| 0b0000100, result := .fault, done := true, pending := none }

/-- 43_framer.md, `RENDER`: `NOT_FRAMED` before `BAD_INDEX`; nothing else changes. -/
def Obligations.RenderFaultsInOrder : Prop :=
  ∀ (s : State) (idx : Nat),
    (s.framed = false →
      exec (.render idx) s = .next { s with
        fault := s.fault ||| 0b0001000, result := .fault, done := true, pending := none }) ∧
    (s.framed = true → s.burstCount.toNat + 1 < idx →
      exec (.render idx) s = .next { s with
        fault := s.fault ||| 0b0010000, result := .fault, done := true, pending := none })

/-- 43_framer.md, header fields and `RENDER`: the burst it writes to TXBUF byte for byte, the CRC it
prints and leaves in the accumulator, `TX_LEN`, and that nothing else changes. `FramedCoherent` is part of
the invariant (rule R62); `crcFed` is the model's record of the bytes the CRC covers (log entry 2). -/
def Obligations.RenderWritesTheBurst : Prop :=
  ∀ (s : State) (idx : Nat),
    s.mem.wf → s.FramedCoherent → s.framed = true → idx ≤ s.burstCount.toNat + 1 →
    ∃ (t : State) (sz : Nat) (hdr : List Byte),
      (1 ≤ idx ∧ idx < s.burstCount.toNat → sz = s.burstSize.toNat) ∧
      (1 ≤ idx ∧ idx = s.burstCount.toNat →
        sz = s.pktLen.toNat - (s.burstCount.toNat - 1) * s.burstSize.toNat) ∧
      (idx = 0 ∨ idx = s.burstCount.toNat + 1 → sz = 0) ∧
      hdr = [0x42, 0x52, 0x53, 0x54] ++ decN 4 s.txSerial.toNat ++ decN 5 s.txProfile.toNat ++
        decN 4 s.txPacket.toNat ++
        (if idx = 0 then [0x30, 0x30, 0x30] ++ decN 4 s.burstCount.toNat
         else if idx ≤ s.burstCount.toNat then decN 3 idx ++ decN 4 sz
         else [0x5A, 0x5A, 0x5A, 0x5A, 0x5A, 0x5A, 0x5A]) ∧
      hdr.length = 24 ∧
      exec (.render idx) s = .next t ∧
      t.crcFed = hdr ++ s.bufBytes .pkt ((idx - 1) * s.burstSize.toNat) sz ∧
      t.regValue .crcVal = s.cfg.crc32 t.crcFed ∧
      (s.cfg.crc32fn = .decided → t.crcAcc = t.crcFed.foldl crcStep 0xFFFFFFFF) ∧
      t.txLen.toNat = 32 + sz ∧
      t = { s with
        mem := t.mem, crcAcc := t.crcAcc, crcFed := t.crcFed, txLen := t.txLen,
        result := .ok, done := true, pending := none } ∧
      t.bufBytes .txbuf 0 24 = hdr ∧
      t.bufBytes .txbuf 24 8 = hex8 s.cfg.hexUpper (s.cfg.crc32 t.crcFed) ∧
      t.bufBytes .txbuf 32 sz = s.bufBytes .pkt ((idx - 1) * s.burstSize.toNat) sz ∧
      ∀ a, (a < s.cfg.txbufBase ∨ s.cfg.txbufBase + (32 + sz) ≤ a) →
        t.mem.read a = s.mem.read a

/-- Rule R183: the payloads that `RENDER` puts in TXBUF for bursts 1 to `burst_count`, in order, are exactly
the packet; their sizes sum to `L` and the slices of PKT they come from are adjacent, the first at 0 and
the last ending at `L`. -/
def Obligations.RenderedPayloadsAreThePacket : Prop :=
  ∀ (s : State) (ts : List State),
    s.mem.wf → s.FramedCoherent → s.framed = true → ts.length = s.burstCount.toNat →
    (∀ i, (h : i < ts.length) → exec (.render (i + 1)) s = .next ts[i]) →
    s.burstCount.toNat =
      (s.pktLen.toNat + s.burstSize.toNat - 1) / s.burstSize.toNat ∧
    ts.flatMap (fun t => t.bufBytes .txbuf 32 (t.txLen.toNat - 32)) =
      s.bufBytes .pkt 0 s.pktLen.toNat ∧
    (ts.map fun t => t.txLen.toNat - 32).sum = s.pktLen.toNat ∧
    s.burstOffset 1 = 0 ∧
    (∀ b, 1 ≤ b → b < s.burstCount.toNat → s.burstOffset b + s.burstLen b = s.burstOffset (b + 1)) ∧
    (1 ≤ s.burstCount.toNat →
      s.burstOffset s.burstCount.toNat + s.burstLen s.burstCount.toNat = s.pktLen.toNat)

/-- What a framer renders, a verifier with the same CRC accepts: the burst of index `idx`, received at the
cursor of any block, is verified by one `SCAN`, which reports its kind and its fields, reduced as the wire
format reduces them, and finds the payload (30_encoding.md Part A, 43_framer.md, 44_verifier.md). A data
burst whose index is a multiple of 1000 prints `"000"` and is read as an announce burst: its CRC covers
header and payload while `SCAN` computes that of the header alone, and it is CRC_BAD unless the two are
equal (70_reset_and_hazards.md, section 3, silent wrapping). -/
def Obligations.ScanVerifiesWhatRenderWrote : Prop :=
  ∀ (s t u : State) (idx : Nat),
    s.mem.wf → s.FramedCoherent → s.framed = true → idx ≤ s.burstCount.toNat + 1 →
    exec (.render idx) s = .next t →
    u.cfg.crc32fn = s.cfg.crc32fn → u.rxLen.toNat ≤ u.cfg.rxbufBytes →
    u.rxPos.toNat + t.txLen.toNat ≤ u.rxLen.toNat →
    u.bufBytes .rxbuf u.rxPos.toNat t.txLen.toNat = t.bufBytes .txbuf 0 t.txLen.toNat →
    ((1 ≤ idx ∧ idx ≤ s.burstCount.toNat ∧ idx % 1000 = 0) →
      ∃ v, exec .scan u = .next v ∧
        v.rxCrcCalc = s.cfg.crc32 (t.bufBytes .txbuf 0 24) ∧
        v.rxCrcRcvd =
          s.cfg.crc32 (t.bufBytes .txbuf 0 24 ++ t.bufBytes .txbuf 32 (t.txLen.toNat - 32)) ∧
        (v.rxCrcCalc ≠ v.rxCrcRcvd →
          v.result = .crcBad ∧ v.rxKind = .none ∧ v.rxPos.toNat = u.rxPos.toNat + 4) ∧
        (v.rxCrcCalc = v.rxCrcRcvd → v.result = .announce)) ∧
    (¬ (1 ≤ idx ∧ idx ≤ s.burstCount.toNat ∧ idx % 1000 = 0) →
      ∃ v, exec .scan u = .next v ∧
      v.rxSerial.toNat = s.txSerial.toNat % 10000 ∧
      v.rxProfile.toNat = s.txProfile.toNat ∧
      v.rxPacket.toNat = s.txPacket.toNat % 10000 ∧
      (idx = 0 → v.result = .announce ∧ v.rxKind = .announce ∧
        v.rxBurst = 0 ∧ v.rxValue.toNat = s.burstCount.toNat % 10000) ∧
      (1 ≤ idx → idx ≤ s.burstCount.toNat → v.result = .data ∧ v.rxKind = .data ∧
        v.rxBurst.toNat = idx % 1000 ∧ v.rxValue.toNat = t.txLen.toNat - 32 ∧
        v.bufBytes .rxbuf v.rxPay.toNat v.rxValue.toNat =
          s.bufBytes .pkt ((idx - 1) * s.burstSize.toNat) v.rxValue.toNat) ∧
      (idx = s.burstCount.toNat + 1 → v.result = .terminal ∧ v.rxKind = .terminal ∧
        v.rxBurst = 0 ∧ v.rxValue = 0) ∧
      v.rxPay.toNat = u.rxPos.toNat + 32 ∧
      v.rxPos.toNat = u.rxPos.toNat + t.txLen.toNat ∧
      v.rxCrcCalc = v.rxCrcRcvd)

/-! ### Receiving -/

/-- 44_verifier.md, range check: `SCAN` and `RXCOMPACT` raise `BAD_RANGE` and change nothing else when the
range check fails; when it holds neither raises a fault, and `SCAN` does not move the cursor past
`RX_LEN`. -/
def Obligations.ReceiveRangeCheck : Prop :=
  ∀ s : State,
    (¬ s.RxRangeOk → ∀ i ∈ ([.scan, .rxcompact] : List Instr),
      exec i s = .next { s with
        fault := s.fault ||| 0b0100000, result := .fault, done := true, pending := none }) ∧
    (s.RxRangeOk →
      (∃ t, exec .scan s = .next t ∧ t.fault = s.fault ∧ t.result ≠ .fault ∧
        t.rxLen = s.rxLen ∧ t.rxPos.toNat ≤ t.rxLen.toNat ∧
        (s.rxPos = s.rxLen → t.result = .needMore)) ∧
      (∃ t, exec .rxcompact s = .next t ∧ t.fault = s.fault ∧ t.result = .ok))

/-- Rule R205: no magic in the window. -/
def Obligations.ScanKeepsAPartialMagic : Prop :=
  ∀ s : State, s.RxRangeOk →
    (∀ q, s.rxPos.toNat ≤ q → q + 4 ≤ s.rxLen.toNat → ¬ s.MagicAt q) →
    ∃ t, exec .scan s = .next t ∧
      t.rxPos.toNat = max s.rxPos.toNat (s.rxLen.toNat - 3) ∧
      t = { s with
        rxPos := t.rxPos, rxKind := .none, result := .needMore, done := true, pending := none }

/-- Rule R106: telling the three kinds of header apart, and malformed headers. -/
def Obligations.HeaderKindsAreToldApart : Prop :=
  ∀ h : List Byte, h.length = 24 → h.take 4 = [0x42, 0x52, 0x53, 0x54] →
    let digits := fun i n => ∀ b ∈ slice h i n, 0x30 ≤ b.toNat ∧ b.toNat ≤ 0x39
    let zs := slice h 17 7 = [0x5A, 0x5A, 0x5A, 0x5A, 0x5A, 0x5A, 0x5A]
    (¬ digits 4 13 → classify h = none) ∧
    (digits 4 13 → zs → classify h = some .terminal) ∧
    (digits 4 13 → digits 17 7 → decVal (slice h 17 3) = 0 →
      classify h = some (.announce (decVal (slice h 20 4)))) ∧
    (digits 4 13 → digits 17 7 → decVal (slice h 17 3) ≠ 0 → decVal (slice h 20 4) ≤ 8192 →
      classify h = some (.data (decVal (slice h 17 3)) (decVal (slice h 20 4)))) ∧
    (digits 4 13 → digits 17 7 → decVal (slice h 17 3) ≠ 0 → 8192 < decVal (slice h 20 4) →
      classify h = none) ∧
    (digits 4 13 → ¬ zs → ¬ digits 17 7 → classify h = none)

/-- Rules R206 and R208: the two thresholds. With the magic at `q` and too few bytes, for the header block or
for the payload its header announces, the cursor stays at `q` and the result is NEED_MORE. -/
def Obligations.ScanWaitsForEnoughBytes : Prop :=
  ∀ (s : State) (q : Nat), s.RxRangeOk → s.FirstMagic q →
    (s.rxLen.toNat - q < 32 ∨
      (∃ hd, classify (s.bufBytes .rxbuf q 24) = some hd ∧ s.rxLen.toNat - q < 32 + hd.payload)) →
    ∃ t, exec .scan s = .next t ∧ t.rxPos.toNat = q ∧
      t = { s with
        rxPos := t.rxPos, rxKind := .none, result := .needMore, done := true, pending := none }

/-- 44_verifier.md, classification and malformed headers: a malformed header moves the cursor 4 on with
result MALFORMED; no CRC is computed and nothing else changes. -/
def Obligations.ScanSkipsAMalformedHeader : Prop :=
  ∀ (s : State) (q : Nat), s.RxRangeOk → s.FirstMagic q → 32 ≤ s.rxLen.toNat - q →
    classify (s.bufBytes .rxbuf q 24) = none →
    ∃ t, exec .scan s = .next t ∧ t.rxPos.toNat = q + 4 ∧
      t = { s with
        rxPos := t.rxPos, rxKind := .none, result := .malformed, done := true, pending := none }

/-- 44_verifier.md, CRC computation, mismatch: when the received value differs from the computed one or the
CRC field is not all hex digits, the cursor moves 4 on with result CRC_BAD; the three CRC registers are
written (with `crcFed`, the model's record of the bytes covered, log entry 2), and nothing else changes. -/
def Obligations.ScanRejectsACrcMismatch : Prop :=
  ∀ (s : State) (q : Nat) (hd : Header), s.RxRangeOk → s.FirstMagic q →
    classify (s.bufBytes .rxbuf q 24) = some hd → 32 + hd.payload ≤ s.rxLen.toNat - q →
    let covered := s.bufBytes .rxbuf q 24 ++ s.bufBytes .rxbuf (q + 32) hd.payload
    let computed := s.cfg.crc32 covered
    let field := s.bufBytes .rxbuf (q + 24) 8
    let allHex := ∀ b ∈ field, (0x30 ≤ b.toNat ∧ b.toNat ≤ 0x39) ∨ (0x41 ≤ b.toNat ∧ b.toNat ≤ 0x46) ∨
      (0x61 ≤ b.toNat ∧ b.toNat ≤ 0x66)
    (¬ allHex ∨ hexVal field ≠ computed) →
    ∃ t, exec .scan s = .next t ∧ t.rxPos.toNat = q + 4 ∧
      (allHex → t.rxCrcRcvd = hexVal field) ∧ (¬ allHex → t.rxCrcRcvd = 0) ∧
      (s.cfg.crc32fn = .decided → t.crcAcc = covered.foldl crcStep 0xFFFFFFFF) ∧
      t = { s with
        rxPos := t.rxPos, rxKind := .none, result := .crcBad, done := true, pending := none,
        crcAcc := computed ^^^ 0xFFFFFFFF, crcFed := covered, rxCrcCalc := computed,
        rxCrcRcvd := t.rxCrcRcvd }

/-- 44_verifier.md, CRC computation, verified burst: when all eight characters are hex digits and the values
are equal, the fields, the payload index, the kind and the result are reported, the cursor moves past the
burst, the three CRC registers are written (with `crcFed`, log entry 2), and nothing else changes. -/
def Obligations.ScanReportsAVerifiedBurst : Prop :=
  ∀ (s : State) (q : Nat) (hd : Header), s.RxRangeOk → s.FirstMagic q →
    classify (s.bufBytes .rxbuf q 24) = some hd → 32 + hd.payload ≤ s.rxLen.toNat - q →
    let h := s.bufBytes .rxbuf q 24
    let covered := h ++ s.bufBytes .rxbuf (q + 32) hd.payload
    let computed := s.cfg.crc32 covered
    let field := s.bufBytes .rxbuf (q + 24) 8
    (∀ b ∈ field, (0x30 ≤ b.toNat ∧ b.toNat ≤ 0x39) ∨ (0x41 ≤ b.toNat ∧ b.toNat ≤ 0x46) ∨
      (0x61 ≤ b.toNat ∧ b.toNat ≤ 0x66)) →
    hexVal field = computed →
    ∃ t, exec .scan s = .next t ∧
      t.rxSerial.toNat = decVal (slice h 4 4) ∧ t.rxProfile.toNat = decVal (slice h 8 5) ∧
      t.rxPacket.toNat = decVal (slice h 13 4) ∧
      t.rxPay.toNat = q + 32 ∧ t.rxPos.toNat = q + 32 + hd.payload ∧
      (∀ count, hd = .announce count → t.rxKind = .announce ∧ t.result = .announce ∧
        t.rxBurst.toNat = 0 ∧ t.rxValue.toNat = count) ∧
      (∀ bn size, hd = .data bn size → t.rxKind = .data ∧ t.result = .data ∧
        t.rxBurst.toNat = bn ∧ t.rxValue.toNat = size) ∧
      (hd = .terminal → t.rxKind = .terminal ∧ t.result = .terminal ∧
        t.rxBurst.toNat = 0 ∧ t.rxValue.toNat = 0) ∧
      (s.cfg.crc32fn = .decided → t.crcAcc = covered.foldl crcStep 0xFFFFFFFF) ∧
      t = { s with
        rxKind := t.rxKind, rxSerial := t.rxSerial, rxProfile := t.rxProfile,
        rxPacket := t.rxPacket, rxBurst := t.rxBurst, rxValue := t.rxValue, rxPay := t.rxPay,
        rxPos := t.rxPos, result := t.result, done := true, pending := none,
        crcAcc := computed ^^^ 0xFFFFFFFF, crcFed := covered, rxCrcCalc := computed, rxCrcRcvd := computed }

/-- Rule R213: progress of repeated `SCAN`s on a fixed RXBUF. -/
def Obligations.RepeatedScanEndsInNeedMore : Prop :=
  ∀ s : State, s.RxRangeOk →
    (∀ t, exec .scan s = .next t →
      t.result ∈ ([.announce, .data, .terminal, .crcBad, .malformed] : List Result) →
      s.rxPos.toNat + 4 ≤ t.rxPos.toNat) ∧
    (∀ t, exec .scan s = .next t → t.result = .needMore → exec .scan t = .next t) ∧
    (∃ k t, 1 ≤ k ∧ k ≤ (s.rxLen.toNat - s.rxPos.toNat) / 4 + 1 ∧
      scanTimes k s = some t ∧ t.result = .needMore)

/-- 44_verifier.md, single-bit flips, for changes that leave the burst's kind and size alone or make its header
malformed: changing one byte of the serial, profile or packet field, of the count of an announce burst, of
the number of a data burst (as long as it stays non-zero), of the mark of a terminal burst or of the
payload, or any of bytes 17 to 23 to a non-digit, makes a burst that `SCAN` verifies at `q` CRC_BAD or
MALFORMED there. For a `CRC32FN` that is not the decided one the change is a single bit, which is all its
constraint speaks of (log entry 2). -/
def Obligations.OneChangedByteIsNotVerified : Prop :=
  ∀ (s s' t : State) (q x : Nat), s.cfg.Legal → s.RxRangeOk → s.FirstMagic q →
    exec .scan s = .next t → t.rxKind ≠ .none →
    s' = { s with mem := s'.mem } →
    ((q + 4 ≤ x ∧ x < q + 17) ∨
      (t.rxKind = .announce ∧ q + 20 ≤ x ∧ x < q + 24) ∨
      (t.rxKind = .data ∧ q + 17 ≤ x ∧ x < q + 20 ∧
        s'.bufBytes .rxbuf (q + 17) 3 ≠ [0x30, 0x30, 0x30]) ∨
      (t.rxKind = .terminal ∧ q + 17 ≤ x ∧ x < q + 24) ∨
      (q + 17 ≤ x ∧ x < q + 24 ∧
        ¬ (0x30 ≤ (s'.bufByte .rxbuf x).toNat ∧ (s'.bufByte .rxbuf x).toNat ≤ 0x39)) ∨
      (t.rxKind = .data ∧ q + 32 ≤ x ∧ x < q + 32 + t.rxValue.toNat)) →
    s'.bufByte .rxbuf x ≠ s.bufByte .rxbuf x →
    (s.cfg.crc32fn = .decided ∨
      ∃ j, j < 8 ∧ s'.bufByte .rxbuf x = s.bufByte .rxbuf x ^^^ BitVec.twoPow 8 j) →
    (∀ y, y ≠ x → s'.bufByte .rxbuf y = s.bufByte .rxbuf y) →
    ∃ t', exec .scan s' = .next t' ∧ (t'.result = .crcBad ∨ t'.result = .malformed) ∧
      t'.rxKind = .none ∧ t'.rxPos.toNat = q + 4

/-- 44_verifier.md, single-bit flips, for the magic and the CRC field: changing a byte of the magic at `q` of a
burst that `SCAN` verifies there means that it verifies none at `q`; changing a byte of the CRC field makes
the burst CRC_BAD, unless the change is only one of letter case, which changes nothing `SCAN` reports. -/
def Obligations.ChangedMagicOrCrcFieldIsSeen : Prop :=
  ∀ (s s' t : State) (q x : Nat), s.RxRangeOk → s.FirstMagic q →
    exec .scan s = .next t → t.rxKind ≠ .none →
    s' = { s with mem := s'.mem } →
    s'.bufByte .rxbuf x ≠ s.bufByte .rxbuf x →
    (∀ y, y ≠ x → s'.bufByte .rxbuf y = s.bufByte .rxbuf y) →
    let caseOnly := 0x41 ≤ (s.bufByte .rxbuf x).toNat ∧
      s'.bufByte .rxbuf x = s.bufByte .rxbuf x ^^^ 0x20
    (q ≤ x → x < q + 4 → ¬ s'.MagicAt q ∧
      ∃ t', exec .scan s' = .next t' ∧ (t'.rxKind ≠ .none → t'.rxPay.toNat ≠ q + 32)) ∧
    (q + 24 ≤ x → x < q + 32 →
      (caseOnly → exec .scan s' = .next { t with mem := s'.mem }) ∧
      (¬ caseOnly → ∃ t', exec .scan s' = .next t' ∧ t'.result = .crcBad ∧ t'.rxKind = .none ∧
        t'.rxPos.toNat = q + 4))

/-- 44_verifier.md, `RXCOMPACT`: the unexamined bytes move to the front; bytes above them, and everything
else but the three registers it names, are unchanged. -/
def Obligations.RxcompactMovesTheTail : Prop :=
  ∀ s : State, s.mem.wf → s.RxRangeOk →
    ∃ t, exec .rxcompact s = .next t ∧
      t.rxLen.toNat = s.rxLen.toNat - s.rxPos.toNat ∧
      (∀ i, i < s.rxLen.toNat - s.rxPos.toNat →
        t.bufByte .rxbuf i = s.bufByte .rxbuf (s.rxPos.toNat + i)) ∧
      (∀ a, (a < s.cfg.rxbufBase ∨ s.cfg.rxbufBase + (s.rxLen.toNat - s.rxPos.toNat) ≤ a) →
        t.mem.read a = s.mem.read a) ∧
      t = { s with
        mem := t.mem, rxLen := t.rxLen, rxPos := 0, rxKind := .none,
        result := .ok, done := true, pending := none }

/-! ### The sample pipeline -/

/-- Rules R141 and R151: the operand check of the four pipeline commands. `n > NMAX` raises `BAD_RANGE` and
changes nothing else; `n = 0` is legal and touches no byte; a word with `MOD` 8 or more is illegal. -/
def Obligations.PipelineRangeCheck : Prop :=
  (∀ (s : State) (k : Nat), s.cfg.nmax < s.nsamp.toNat →
    ∀ i ∈ ([.grayEnc, .grayDec, .bpEnc k, .bpDec k] : List Instr),
      exec i s = .next { s with
        fault := s.fault ||| 0b0100000, result := .fault, done := true, pending := none }) ∧
  (∀ s : State, s.nsamp = 0 →
    (∀ i ∈ ([.grayEnc, .grayDec] : List Instr),
      exec i s = .next { s with result := .ok, done := true, pending := none }) ∧
    (∀ k, ∀ i ∈ ([.bpEnc k, .bpDec k] : List Instr),
      exec i s = .next { s with plnLen := 0, result := .ok, done := true, pending := none })) ∧
  (∀ w : Word, (w.extractLsb' 0 8 = 0x42 ∨ w.extractLsb' 0 8 = 0x43) →
    8 ≤ (w.extractLsb' 8 8).toNat → ∃ why, decode w = .illegal why)

/-- 40_gray.md, `GRAY_ENC`: samples 0 to `n - 1` become `v XOR (v >> 1)`, said also bit by bit; every other
byte and everything else is unchanged. -/
def Obligations.GrayEncTransformsEachSample : Prop :=
  ∀ s : State, s.mem.wf → s.nsamp.toNat ≤ s.cfg.nmax →
    ∃ t, exec .grayEnc s = .next t ∧
      (∀ i, i < s.nsamp.toNat →
        t.sample i = s.sample i ^^^ (s.sample i >>> 1) ∧
        (t.sample i).getLsbD 15 = (s.sample i).getLsbD 15 ∧
        ∀ j, j < 15 → (t.sample i).getLsbD j =
          ((s.sample i).getLsbD j ^^ (s.sample i).getLsbD (j + 1))) ∧
      (∀ a, (a < s.cfg.smpBase ∨ s.cfg.smpBase + 2 * s.nsamp.toNat ≤ a) →
        t.mem.read a = s.mem.read a) ∧
      t = { s with mem := t.mem, result := .ok, done := true, pending := none }

/-- 40_gray.md, `GRAY_DEC`: bit 15 stays and each lower bit is the XOR of the result's next higher bit and the
input's bit, which is the prefix XOR; every other byte and everything else is unchanged. -/
def Obligations.GrayDecTransformsEachSample : Prop :=
  ∀ s : State, s.mem.wf → s.nsamp.toNat ≤ s.cfg.nmax →
    ∃ t, exec .grayDec s = .next t ∧
      (∀ i, i < s.nsamp.toNat →
        (t.sample i).getLsbD 15 = (s.sample i).getLsbD 15 ∧
        ∀ j, j < 15 → (t.sample i).getLsbD j =
          ((t.sample i).getLsbD (j + 1) ^^ (s.sample i).getLsbD j)) ∧
      (∀ a, (a < s.cfg.smpBase ∨ s.cfg.smpBase + 2 * s.nsamp.toNat ≤ a) →
        t.mem.read a = s.mem.read a) ∧
      t = { s with mem := t.mem, result := .ok, done := true, pending := none }

/-- 40_gray.md, laws of the pair (a): `GRAY_ENC` then `GRAY_DEC`, and the other order, restore every byte of
memory. -/
def Obligations.GrayCommandsUndoEachOther : Prop :=
  ∀ s : State, s.mem.wf → s.nsamp.toNat ≤ s.cfg.nmax →
    (∃ t u, exec .grayEnc s = .next t ∧ exec .grayDec t = .next u ∧ u.mem = s.mem) ∧
    (∃ t u, exec .grayDec s = .next t ∧ exec .grayEnc t = .next u ∧ u.mem = s.mem)

/-- 40_gray.md, laws of the pair (b): the codes of adjacent values differ in exactly one bit position. -/
def Obligations.AdjacentGrayCodesDifferInOneBit : Prop :=
  ∀ v : Sample, v ≠ 0xFFFF →
    ∃ j, j < 16 ∧ ∀ i, i < 16 →
      ((grayEnc v).getLsbD i ≠ (grayEnc (v + 1)).getLsbD i ↔ i = j)

/-- Rule R153, with 41_bitplane.md `BP_ENC`: where every bit of every sample goes in PLN, the zero lanes of a
partial group, `PLN_LEN`, and that every other byte and everything else is unchanged. -/
def Obligations.BpEncLaysOutThePlanes : Prop :=
  ∀ (s : State) (k : Nat), k ≤ 7 → s.mem.wf → s.nsamp.toNat ≤ s.cfg.nmax →
    let n := s.nsamp.toNat
    let g := (n + 7) / 8
    ∃ t, exec (.bpEnc k) s = .next t ∧
      (∀ j, j ≤ 15 - k → ∀ gr, gr < g → ∀ lane, lane ≤ 7 →
        (t.bufByte .pln (j * g + gr)).getLsbD (7 - lane) =
          (decide (8 * gr + lane < n) && (s.sample (8 * gr + lane)).getLsbD (15 - j))) ∧
      (∀ i, i < n → ∀ p, k ≤ p → p ≤ 15 →
        (t.bufByte .pln ((15 - p) * g + i / 8)).getLsbD (7 - i % 8) = (s.sample i).getLsbD p) ∧
      t.plnLen = BitVec.ofNat 32 ((16 - k) * g) ∧
      (∀ a, (a < s.cfg.plnBase ∨ s.cfg.plnBase + (16 - k) * g ≤ a) →
        t.mem.read a = s.mem.read a) ∧
      t = { s with mem := t.mem, plnLen := t.plnLen, result := .ok, done := true, pending := none }

/-- 41_bitplane.md, `BP_DEC`: each sample is rebuilt from the planes, its dropped bits 0; `PLN_LEN`; every
other byte and everything else is unchanged. -/
def Obligations.BpDecRebuildsTheSamples : Prop :=
  ∀ (s : State) (k : Nat), k ≤ 7 → s.mem.wf → s.nsamp.toNat ≤ s.cfg.nmax →
    let n := s.nsamp.toNat
    let g := (n + 7) / 8
    ∃ t, exec (.bpDec k) s = .next t ∧
      (∀ i, i < n →
        (∀ p, k ≤ p → p ≤ 15 →
          (t.sample i).getLsbD p =
            (s.bufByte .pln ((15 - p) * g + i / 8)).getLsbD (7 - i % 8)) ∧
        (∀ p, p < k → (t.sample i).getLsbD p = false)) ∧
      t.plnLen = BitVec.ofNat 32 ((16 - k) * g) ∧
      (∀ a, (a < s.cfg.smpBase ∨ s.cfg.smpBase + 2 * n ≤ a) → t.mem.read a = s.mem.read a) ∧
      t = { s with mem := t.mem, plnLen := t.plnLen, result := .ok, done := true, pending := none }

/-- Rule R156: (a) `BP_ENC #k` then `BP_DEC #k` clears the `k` low bits of each sample; (b) doing so again
changes nothing, and encoding the result gives the same plane bytes; (c) the planes of `#k` are the first
bytes of the planes of `#0`. -/
def Obligations.BitPlanesRoundTrip : Prop :=
  ∀ (s : State) (k : Nat), k ≤ 7 → s.cfg.Legal → s.mem.wf → s.nsamp.toNat ≤ s.cfg.nmax →
    let n := s.nsamp.toNat
    let g := (n + 7) / 8
    let drop := fun v : Sample => v &&& ~~~ (BitVec.ofNat 16 (2 ^ k - 1))
    (∀ v, drop (drop v) = drop v) ∧
    ∃ t u w, exec (.bpEnc k) s = .next t ∧ exec (.bpDec k) t = .next u ∧
      exec (.bpEnc k) u = .next w ∧
      (∀ i, i < n → u.sample i = drop (s.sample i)) ∧
      (k = 0 → ∀ i, i < n → u.sample i = s.sample i) ∧
      w.bufBytes .pln 0 ((16 - k) * g) = t.bufBytes .pln 0 ((16 - k) * g) ∧
      ∃ t0, exec (.bpEnc 0) s = .next t0 ∧
        t.bufBytes .pln 0 ((16 - k) * g) = t0.bufBytes .pln 0 ((16 - k) * g)

/-- 41_bitplane.md, with the Gray-code stage: the whole pipeline, `GRAY_ENC`, `BP_ENC #k`, `BP_DEC #k`,
`GRAY_DEC`. Bits 15 to `k` of every sample are kept and the lower bits all equal bit `k`, so the error is
below `2^k`; a second pass changes no sample. -/
def Obligations.PipelineKeepsTheHighBits : Prop :=
  ∀ (s : State) (k : Nat), k ≤ 7 → s.cfg.Legal → s.mem.wf → s.nsamp.toNat ≤ s.cfg.nmax →
    ∃ t u, PipelineRun k s t ∧ PipelineRun k t u ∧
      ∀ i, i < s.nsamp.toNat →
        (∀ p, k ≤ p → p ≤ 15 → (t.sample i).getLsbD p = (s.sample i).getLsbD p) ∧
        (∀ p, p < k → (t.sample i).getLsbD p = (s.sample i).getLsbD k) ∧
        (t.sample i).toNat < (s.sample i).toNat + 2 ^ k ∧
        (s.sample i).toNat < (t.sample i).toNat + 2 ^ k ∧
        u.sample i = t.sample i

/-! ### Faults, flags and the interrupt -/

/-- Rule R262: what raising a command fault does. When the engine's step on a pending word ends with result
FAULT, exactly one of the bits 0, 2, 3, 4, 5 was raised and the command completed; nothing else changed,
nothing is saved, and the host sees it in `STATUS` and, if enabled, in `irq`. -/
def Obligations.RaisingAFaultIsPrecise : Prop :=
  ∀ (s t : State) (w : Word), s.EngineTurn → s.pending = some w →
    step s = .next t → t.result = .fault →
    (∃ k ∈ ([0, 2, 3, 4, 5] : List Nat), t.fault = s.fault ||| BitVec.twoPow 7 k) ∧
    t = { s with
      script := s.script.tail,
      fault := t.fault, result := .fault, done := true, pending := none } ∧
    (t.regValue .status).getLsbD 3 = true ∧ (t.regValue .status).extractLsb' 8 8 = 0xFF ∧
    (t.ien.getLsbD 1 = true → t.irq = true)

/-- 20_memory.md and 60_exceptions.md, accesses while BUSY (the command in progress completes normally): the
fault bits, the answers on the bus and the events still to come do not influence what a command other than
`SRST` does. -/
def Obligations.CommandsIgnoreTheFaultBits : Prop :=
  ∀ (i : Instr) (s t : State) (m : BitVec 7) (r : Option BusResponse) (es : List Event),
    i ≠ .srst → exec i s = .next t →
    exec i { s with fault := s.fault ||| m, busResp := r, script := es } =
      .next { t with fault := t.fault ||| m, busResp := r, script := es }

/-- 20_memory.md, the engine's own accesses: which buffer each command may write; every byte outside that
buffer, and for the other commands every byte, is unchanged. -/
def Obligations.CommandsWriteOnlyTheirBuffer : Prop :=
  ∀ (i : Instr) (s t : State), Inv s → i.wellFormed = true → exec i s = .next t →
    ∀ a,
      ((i = .nop ∨ i = .srst ∨ i = .crcInit ∨ i = .frame ∨ i = .scan) →
        t.mem.read a = s.mem.read a) ∧
      ((∃ idx, i = .render idx) → bufAt s.cfg a ≠ some .txbuf → t.mem.read a = s.mem.read a) ∧
      (i = .rxcompact → bufAt s.cfg a ≠ some .rxbuf → t.mem.read a = s.mem.read a) ∧
      ((i = .grayEnc ∨ i = .grayDec ∨ ∃ k, i = .bpDec k) → bufAt s.cfg a ≠ some .smp →
        t.mem.read a = s.mem.read a) ∧
      ((∃ k, i = .bpEnc k) → bufAt s.cfg a ≠ some .pln → t.mem.read a = s.mem.read a)

/-- 10_state.md, `FAULT`: a fault bit, once set, stays set until hardware reset or `SRST`. -/
def Obligations.FaultBitsAreSticky : Prop :=
  ∀ s t : State, step s = .next t →
    (∀ cells rest, s.script ≠ .hardReset cells :: rest) →
    ¬ (s.EngineTurn ∧ s.pending = some 0x00000001) →
    ∀ k, s.fault.getLsbD k = true → t.fault.getLsbD k = true

/-- 10_state.md, `FRAMED`: only a `FRAME` that completes with OK sets it; only a host write to `BURST_SIZE` or
`PKT_LEN`, hardware reset and `SRST` clear it. -/
def Obligations.FramedChangesOnlyAsStated : Prop :=
  ∀ s t : State, step s = .next t →
    (s.framed = false → t.framed = true →
      s.EngineTurn ∧ s.pending = some 0x00000020 ∧ t.result = .ok) ∧
    (s.framed = true → t.framed = false →
      (∃ cells rest, s.script = .hardReset cells :: rest) ∨
      (s.EngineTurn ∧ s.pending = some 0x00000001) ∨
      ∃ v rest, s.script = .write (s.cfg.regBase + 0x2C) 4 v :: rest ∨
        s.script = .write (s.cfg.regBase + 0x30) 4 v :: rest)

/-- 10_state.md, `STATUS`: where each field stands in the word, and that `BUSY` is the pending latch and
`FAULTED` is `FAULT` not 0. -/
def Obligations.StatusWordFields : Prop :=
  ∀ s : State,
    let w := s.regValue .status
    w.getLsbD 0 = s.pending.isSome ∧ w.getLsbD 1 = s.done ∧ w.getLsbD 2 = s.framed ∧
    (w.getLsbD 3 = true ↔ s.regValue .fault ≠ 0) ∧
    (∀ j, 4 ≤ j → j < 8 → w.getLsbD j = false) ∧
    w.extractLsb' 8 8 = s.result.code ∧ w.extractLsb' 16 8 = s.lastop ∧
    (∀ j, 24 ≤ j → j < 32 → w.getLsbD j = false)

/-- Rule R265: `irq` is a pure function of the state, read from the registers. -/
def Obligations.IrqIsAFunctionOfTheState : Prop :=
  ∀ s : State,
    s.irq = (((s.regValue .status).getLsbD 1 && (s.regValue .ien).getLsbD 0) ||
      ((s.regValue .status).getLsbD 3 && (s.regValue .ien).getLsbD 1))

/-! ### Host accesses -/

/-- Rule R77: exactly which accesses are legal, and what each reaches. -/
def Obligations.LegalAccessesAreExactlyThese : Prop :=
  ∀ (c : Config) (addr n : Nat), c.Legal →
    (∀ r, target c addr n = some (.reg r) ↔ n = 4 ∧ addr % 4 = 0 ∧ addr = c.regBase + r.offset) ∧
    (∀ b off, target c addr n = some (.buf b off) ↔
      addr = c.base b + off ∧ (n = 1 ∨ n = 2 ∨ n = 4) ∧ addr % n = 0 ∧
        addr + n - 1 < c.base b + c.size b)

/-- 20_memory.md, illegal access (`BAD_ACCESS`), idle or BUSY: it is not performed and returns
`BusError`, the fault bit is set, and nothing else changes, so a command in progress completes as it would
have. -/
def Obligations.IllegalAccessSetsBadAccess : Prop :=
  ∀ (s : State) (addr n : Nat) (v : Word) (rest : List Event), target s.cfg addr n = none →
    (s.script = .read addr n :: rest ∨ s.script = .write addr n v :: rest) →
    ∃ t, step s = .next t ∧
      t = { s with
        script := rest, busResp := some .busError, fault := s.fault ||| 0b1000000 } ∧
      (t.regValue .status).getLsbD 3 = true

/-- 20_memory.md, accesses while BUSY: `STATUS` and `FAULT` can be read, and every other legal access is not performed,
returns `BusError` and sets `BUSY_ACCESS`; the pending command and its operands are not disturbed. -/
def Obligations.BusyAccessIsRefused : Prop :=
  ∀ (s : State) (addr n : Nat) (v : Word) (tg : Target) (rest : List Event),
    s.pending.isSome = true → target s.cfg addr n = some tg →
    (s.script = .write addr n v :: rest →
      step s = .next { s with
        script := rest, busResp := some .busError, fault := s.fault ||| 0b0000010 }) ∧
    (s.script = .read addr n :: rest →
      (tg = .reg .status ∨ tg = .reg .fault →
        ∃ r, tg = .reg r ∧
          step s = .next { s with script := rest, busResp := some (.data (s.regValue r)) }) ∧
      (tg ≠ .reg .status → tg ≠ .reg .fault →
        step s = .next { s with
          script := rest, busResp := some .busError, fault := s.fault ||| 0b0000010 }))

/-- 20_memory.md, `MemRead` and byte order: a legal read while not BUSY changes no state and returns the
register's value, or the buffer's bytes with the first the most significant. -/
def Obligations.ReadsReturnValuesAndChangeNothing : Prop :=
  ∀ (s : State) (addr n : Nat) (rest : List Event),
    s.pending = none → s.script = .read addr n :: rest →
    (∀ r, target s.cfg addr n = some (.reg r) →
      step s = .next { s with script := rest, busResp := some (.data (s.regValue r)) }) ∧
    (∀ b off, target s.cfg addr n = some (.buf b off) →
      ∃ v : Word, step s = .next { s with script := rest, busResp := some (.data v) } ∧
        (n = 1 → v.toNat = (s.bufByte b off).toNat) ∧
        (n = 2 → v.toNat = (s.bufByte b off).toNat * 256 + (s.bufByte b (off + 1)).toNat) ∧
        (n = 4 → v.toNat = (s.bufByte b off).toNat * 16777216 +
          (s.bufByte b (off + 1)).toNat * 65536 + (s.bufByte b (off + 2)).toNat * 256 +
          (s.bufByte b (off + 3)).toNat))

/-- 10_state.md, the register map: what a read of each register returns, at the offset the map gives it. Reserved
bits and write-only registers read 0, `CRC_VAL` is `CRC_ACC XOR 0xFFFFFFFF`, and the read changes
nothing. (The fields of `STATUS` are in obligation StatusWordFields.) -/
def Obligations.EachRegisterReadsItsField : Prop :=
  ∀ (s : State) (off : Nat) (v : Word) (rest : List Event),
    s.cfg.Legal → s.pending = none → s.script = .read (s.cfg.regBase + off) 4 :: rest →
    (off, v) ∈ ([
      (0x00, 0), (0x04, s.regValue .status), (0x08, 0#25 ++ s.fault), (0x0C, 0#30 ++ s.ien),
      (0x10, s.crcAcc), (0x14, s.crcAcc ^^^ 0xFFFFFFFF), (0x18, 0),
      (0x20, 0#16 ++ s.txSerial), (0x24, 0#16 ++ s.txProfile), (0x28, 0#16 ++ s.txPacket),
      (0x2C, s.burstSize), (0x30, s.pktLen), (0x34, s.burstCount), (0x38, s.txLen),
      (0x40, s.rxLen), (0x44, s.rxPos),
      (0x48, match s.rxKind with | .none => 0 | .announce => 1 | .data => 2 | .terminal => 3),
      (0x4C, 0#18 ++ s.rxSerial), (0x50, 0#15 ++ s.rxProfile), (0x54, 0#18 ++ s.rxPacket),
      (0x58, 0#22 ++ s.rxBurst), (0x5C, 0#18 ++ s.rxValue), (0x60, s.rxPay),
      (0x64, s.rxCrcCalc), (0x68, s.rxCrcRcvd), (0x70, s.nsamp), (0x74, s.plnLen)] :
        List (Nat × Word)) →
    step s = .next { s with script := rest, busResp := some (.data v) }

/-- 20_memory.md, `MemWrite` to a buffer: the bytes of the value are stored with the most significant first,
every other byte and everything else is unchanged, and the answer is OK. That a value of one or two bytes
is the low bytes of the 32-bit word `v` is the model's convention (log entry 9). -/
def Obligations.BufferWritesAreBigEndian : Prop :=
  ∀ (s : State) (addr n : Nat) (v : Word) (b : Buf) (off : Nat) (rest : List Event),
    s.mem.wf → s.pending = none → s.script = .write addr n v :: rest →
    target s.cfg addr n = some (.buf b off) →
    ∃ t, step s = .next t ∧
      (∀ j, j < n → (t.bufByte b (off + j)).toNat = v.toNat / 256 ^ (n - 1 - j) % 256) ∧
      (∀ a, (a < s.cfg.base b + off ∨ s.cfg.base b + off + n ≤ a) →
        t.mem.read a = s.mem.read a) ∧
      t = { s with mem := t.mem, script := rest, busResp := some .ok }

/-- 10_state.md, the writable registers: what a write stores and that it changes nothing else but what rule
R80 names: `STATUS` bit 1 clears `DONE`, `BURST_SIZE` and `PKT_LEN` clear `FRAMED`. -/
def Obligations.RegisterWritesStoreTheWritableBits : Prop :=
  ∀ (s : State) (v : Word) (r : Reg) (rest : List Event),
    s.cfg.Legal → s.pending = none →
    s.script = .write (s.cfg.regBase + r.offset) 4 v :: rest →
    let a : State := { s with script := rest, busResp := some .ok }
    (r = .status → v.getLsbD 1 = true → step s = .next { a with done := false }) ∧
    (r = .status → v.getLsbD 1 = false → step s = .next a) ∧
    (r = .ien → step s = .next { a with ien := v.extractLsb' 0 2 }) ∧
    (r = .txSerial → step s = .next { a with txSerial := v.extractLsb' 0 16 }) ∧
    (r = .txProfile → step s = .next { a with txProfile := v.extractLsb' 0 16 }) ∧
    (r = .txPacket → step s = .next { a with txPacket := v.extractLsb' 0 16 }) ∧
    (r = .burstSize → step s = .next { a with burstSize := v, framed := false }) ∧
    (r = .pktLen → step s = .next { a with pktLen := v, framed := false }) ∧
    (r = .rxLen → step s = .next { a with rxLen := v }) ∧
    (r = .rxPos → step s = .next { a with rxPos := v }) ∧
    (r = .nsamp → step s = .next { a with nsamp := v })

/-- Rule R53: a write to a read-only register changes nothing and sets no fault; a read of a write-only
register returns 0. -/
def Obligations.ReadOnlyAndWriteOnlyRegisters : Prop :=
  (∀ (s : State) (v : Word) (rest : List Event) (r : Reg),
    s.cfg.Legal → s.pending = none →
    r ∈ ([.fault, .crcAcc, .crcVal, .burstCount, .txLen, .rxKind, .rxSerial, .rxProfile, .rxPacket,
      .rxBurst, .rxValue, .rxPay, .rxCrcCalc, .rxCrcRcvd, .plnLen] : List Reg) →
    s.script = .write (s.cfg.regBase + r.offset) 4 v :: rest →
    step s = .next { s with script := rest, busResp := some .ok }) ∧
  (∀ (s : State) (rest : List Event) (r : Reg),
    s.cfg.Legal → s.pending = none → r ∈ ([.cmd, .crcData] : List Reg) →
    s.script = .read (s.cfg.regBase + r.offset) 4 :: rest →
    step s = .next { s with script := rest, busResp := some (.data 0) })
end

