-- ==== Sys2Proof/Laws/State.lean ====
section
/-! SUPPORT. One lemma per field per named update of State: what the update makes of the field. -/

namespace Sys2Proof.Machine

/-! ### State.withMem -/

@[simp] theorem State.withMem_done (s : State) (m : Memory) :
    (s.withMem m).done = s.done := rfl
@[simp] theorem State.withMem_framed (s : State) (m : Memory) :
    (s.withMem m).framed = s.framed := rfl
@[simp] theorem State.withMem_result (s : State) (m : Memory) :
    (s.withMem m).result = s.result := rfl
@[simp] theorem State.withMem_lastop (s : State) (m : Memory) :
    (s.withMem m).lastop = s.lastop := rfl
@[simp] theorem State.withMem_fault (s : State) (m : Memory) :
    (s.withMem m).fault = s.fault := rfl
@[simp] theorem State.withMem_ien (s : State) (m : Memory) :
    (s.withMem m).ien = s.ien := rfl
@[simp] theorem State.withMem_crcAcc (s : State) (m : Memory) :
    (s.withMem m).crcAcc = s.crcAcc := rfl
@[simp] theorem State.withMem_crcFed (s : State) (m : Memory) :
    (s.withMem m).crcFed = s.crcFed := rfl
@[simp] theorem State.withMem_txSerial (s : State) (m : Memory) :
    (s.withMem m).txSerial = s.txSerial := rfl
@[simp] theorem State.withMem_txProfile (s : State) (m : Memory) :
    (s.withMem m).txProfile = s.txProfile := rfl
@[simp] theorem State.withMem_txPacket (s : State) (m : Memory) :
    (s.withMem m).txPacket = s.txPacket := rfl
@[simp] theorem State.withMem_burstSize (s : State) (m : Memory) :
    (s.withMem m).burstSize = s.burstSize := rfl
@[simp] theorem State.withMem_pktLen (s : State) (m : Memory) :
    (s.withMem m).pktLen = s.pktLen := rfl
@[simp] theorem State.withMem_burstCount (s : State) (m : Memory) :
    (s.withMem m).burstCount = s.burstCount := rfl
@[simp] theorem State.withMem_txLen (s : State) (m : Memory) :
    (s.withMem m).txLen = s.txLen := rfl
@[simp] theorem State.withMem_rxLen (s : State) (m : Memory) :
    (s.withMem m).rxLen = s.rxLen := rfl
@[simp] theorem State.withMem_rxPos (s : State) (m : Memory) :
    (s.withMem m).rxPos = s.rxPos := rfl
@[simp] theorem State.withMem_rxKind (s : State) (m : Memory) :
    (s.withMem m).rxKind = s.rxKind := rfl
@[simp] theorem State.withMem_rxSerial (s : State) (m : Memory) :
    (s.withMem m).rxSerial = s.rxSerial := rfl
@[simp] theorem State.withMem_rxProfile (s : State) (m : Memory) :
    (s.withMem m).rxProfile = s.rxProfile := rfl
@[simp] theorem State.withMem_rxPacket (s : State) (m : Memory) :
    (s.withMem m).rxPacket = s.rxPacket := rfl
@[simp] theorem State.withMem_rxBurst (s : State) (m : Memory) :
    (s.withMem m).rxBurst = s.rxBurst := rfl
@[simp] theorem State.withMem_rxValue (s : State) (m : Memory) :
    (s.withMem m).rxValue = s.rxValue := rfl
@[simp] theorem State.withMem_rxPay (s : State) (m : Memory) :
    (s.withMem m).rxPay = s.rxPay := rfl
@[simp] theorem State.withMem_rxCrcCalc (s : State) (m : Memory) :
    (s.withMem m).rxCrcCalc = s.rxCrcCalc := rfl
@[simp] theorem State.withMem_rxCrcRcvd (s : State) (m : Memory) :
    (s.withMem m).rxCrcRcvd = s.rxCrcRcvd := rfl
@[simp] theorem State.withMem_nsamp (s : State) (m : Memory) :
    (s.withMem m).nsamp = s.nsamp := rfl
@[simp] theorem State.withMem_plnLen (s : State) (m : Memory) :
    (s.withMem m).plnLen = s.plnLen := rfl
@[simp] theorem State.withMem_pending (s : State) (m : Memory) :
    (s.withMem m).pending = s.pending := rfl
@[simp] theorem State.withMem_mem (s : State) (m : Memory) :
    (s.withMem m).mem = m := rfl
@[simp] theorem State.withMem_cfg (s : State) (m : Memory) :
    (s.withMem m).cfg = s.cfg := rfl
@[simp] theorem State.withMem_busResp (s : State) (m : Memory) :
    (s.withMem m).busResp = s.busResp := rfl
@[simp] theorem State.withMem_script (s : State) (m : Memory) :
    (s.withMem m).script = s.script := rfl

/-! ### State.bufWrite -/

@[simp] theorem State.bufWrite_done (s : State) (b : Buf) (i : Nat) (bs : List Byte) :
    (s.bufWrite b i bs).done = s.done := rfl
@[simp] theorem State.bufWrite_framed (s : State) (b : Buf) (i : Nat) (bs : List Byte) :
    (s.bufWrite b i bs).framed = s.framed := rfl
@[simp] theorem State.bufWrite_result (s : State) (b : Buf) (i : Nat) (bs : List Byte) :
    (s.bufWrite b i bs).result = s.result := rfl
@[simp] theorem State.bufWrite_lastop (s : State) (b : Buf) (i : Nat) (bs : List Byte) :
    (s.bufWrite b i bs).lastop = s.lastop := rfl
@[simp] theorem State.bufWrite_fault (s : State) (b : Buf) (i : Nat) (bs : List Byte) :
    (s.bufWrite b i bs).fault = s.fault := rfl
@[simp] theorem State.bufWrite_ien (s : State) (b : Buf) (i : Nat) (bs : List Byte) :
    (s.bufWrite b i bs).ien = s.ien := rfl
@[simp] theorem State.bufWrite_crcAcc (s : State) (b : Buf) (i : Nat) (bs : List Byte) :
    (s.bufWrite b i bs).crcAcc = s.crcAcc := rfl
@[simp] theorem State.bufWrite_crcFed (s : State) (b : Buf) (i : Nat) (bs : List Byte) :
    (s.bufWrite b i bs).crcFed = s.crcFed := rfl
@[simp] theorem State.bufWrite_txSerial (s : State) (b : Buf) (i : Nat) (bs : List Byte) :
    (s.bufWrite b i bs).txSerial = s.txSerial := rfl
@[simp] theorem State.bufWrite_txProfile (s : State) (b : Buf) (i : Nat) (bs : List Byte) :
    (s.bufWrite b i bs).txProfile = s.txProfile := rfl
@[simp] theorem State.bufWrite_txPacket (s : State) (b : Buf) (i : Nat) (bs : List Byte) :
    (s.bufWrite b i bs).txPacket = s.txPacket := rfl
@[simp] theorem State.bufWrite_burstSize (s : State) (b : Buf) (i : Nat) (bs : List Byte) :
    (s.bufWrite b i bs).burstSize = s.burstSize := rfl
@[simp] theorem State.bufWrite_pktLen (s : State) (b : Buf) (i : Nat) (bs : List Byte) :
    (s.bufWrite b i bs).pktLen = s.pktLen := rfl
@[simp] theorem State.bufWrite_burstCount (s : State) (b : Buf) (i : Nat) (bs : List Byte) :
    (s.bufWrite b i bs).burstCount = s.burstCount := rfl
@[simp] theorem State.bufWrite_txLen (s : State) (b : Buf) (i : Nat) (bs : List Byte) :
    (s.bufWrite b i bs).txLen = s.txLen := rfl
@[simp] theorem State.bufWrite_rxLen (s : State) (b : Buf) (i : Nat) (bs : List Byte) :
    (s.bufWrite b i bs).rxLen = s.rxLen := rfl
@[simp] theorem State.bufWrite_rxPos (s : State) (b : Buf) (i : Nat) (bs : List Byte) :
    (s.bufWrite b i bs).rxPos = s.rxPos := rfl
@[simp] theorem State.bufWrite_rxKind (s : State) (b : Buf) (i : Nat) (bs : List Byte) :
    (s.bufWrite b i bs).rxKind = s.rxKind := rfl
@[simp] theorem State.bufWrite_rxSerial (s : State) (b : Buf) (i : Nat) (bs : List Byte) :
    (s.bufWrite b i bs).rxSerial = s.rxSerial := rfl
@[simp] theorem State.bufWrite_rxProfile (s : State) (b : Buf) (i : Nat) (bs : List Byte) :
    (s.bufWrite b i bs).rxProfile = s.rxProfile := rfl
@[simp] theorem State.bufWrite_rxPacket (s : State) (b : Buf) (i : Nat) (bs : List Byte) :
    (s.bufWrite b i bs).rxPacket = s.rxPacket := rfl
@[simp] theorem State.bufWrite_rxBurst (s : State) (b : Buf) (i : Nat) (bs : List Byte) :
    (s.bufWrite b i bs).rxBurst = s.rxBurst := rfl
@[simp] theorem State.bufWrite_rxValue (s : State) (b : Buf) (i : Nat) (bs : List Byte) :
    (s.bufWrite b i bs).rxValue = s.rxValue := rfl
@[simp] theorem State.bufWrite_rxPay (s : State) (b : Buf) (i : Nat) (bs : List Byte) :
    (s.bufWrite b i bs).rxPay = s.rxPay := rfl
@[simp] theorem State.bufWrite_rxCrcCalc (s : State) (b : Buf) (i : Nat) (bs : List Byte) :
    (s.bufWrite b i bs).rxCrcCalc = s.rxCrcCalc := rfl
@[simp] theorem State.bufWrite_rxCrcRcvd (s : State) (b : Buf) (i : Nat) (bs : List Byte) :
    (s.bufWrite b i bs).rxCrcRcvd = s.rxCrcRcvd := rfl
@[simp] theorem State.bufWrite_nsamp (s : State) (b : Buf) (i : Nat) (bs : List Byte) :
    (s.bufWrite b i bs).nsamp = s.nsamp := rfl
@[simp] theorem State.bufWrite_plnLen (s : State) (b : Buf) (i : Nat) (bs : List Byte) :
    (s.bufWrite b i bs).plnLen = s.plnLen := rfl
@[simp] theorem State.bufWrite_pending (s : State) (b : Buf) (i : Nat) (bs : List Byte) :
    (s.bufWrite b i bs).pending = s.pending := rfl
@[simp] theorem State.bufWrite_mem (s : State) (b : Buf) (i : Nat) (bs : List Byte) :
    (s.bufWrite b i bs).mem = s.mem.writeBytes (s.cfg.base b + i) bs := rfl
@[simp] theorem State.bufWrite_cfg (s : State) (b : Buf) (i : Nat) (bs : List Byte) :
    (s.bufWrite b i bs).cfg = s.cfg := rfl
@[simp] theorem State.bufWrite_busResp (s : State) (b : Buf) (i : Nat) (bs : List Byte) :
    (s.bufWrite b i bs).busResp = s.busResp := rfl
@[simp] theorem State.bufWrite_script (s : State) (b : Buf) (i : Nat) (bs : List Byte) :
    (s.bufWrite b i bs).script = s.script := rfl

/-! ### State.writeSamples -/

@[simp] theorem State.writeSamples_done (s : State) (vs : List Sample) :
    (s.writeSamples vs).done = s.done := rfl
@[simp] theorem State.writeSamples_framed (s : State) (vs : List Sample) :
    (s.writeSamples vs).framed = s.framed := rfl
@[simp] theorem State.writeSamples_result (s : State) (vs : List Sample) :
    (s.writeSamples vs).result = s.result := rfl
@[simp] theorem State.writeSamples_lastop (s : State) (vs : List Sample) :
    (s.writeSamples vs).lastop = s.lastop := rfl
@[simp] theorem State.writeSamples_fault (s : State) (vs : List Sample) :
    (s.writeSamples vs).fault = s.fault := rfl
@[simp] theorem State.writeSamples_ien (s : State) (vs : List Sample) :
    (s.writeSamples vs).ien = s.ien := rfl
@[simp] theorem State.writeSamples_crcAcc (s : State) (vs : List Sample) :
    (s.writeSamples vs).crcAcc = s.crcAcc := rfl
@[simp] theorem State.writeSamples_crcFed (s : State) (vs : List Sample) :
    (s.writeSamples vs).crcFed = s.crcFed := rfl
@[simp] theorem State.writeSamples_txSerial (s : State) (vs : List Sample) :
    (s.writeSamples vs).txSerial = s.txSerial := rfl
@[simp] theorem State.writeSamples_txProfile (s : State) (vs : List Sample) :
    (s.writeSamples vs).txProfile = s.txProfile := rfl
@[simp] theorem State.writeSamples_txPacket (s : State) (vs : List Sample) :
    (s.writeSamples vs).txPacket = s.txPacket := rfl
@[simp] theorem State.writeSamples_burstSize (s : State) (vs : List Sample) :
    (s.writeSamples vs).burstSize = s.burstSize := rfl
@[simp] theorem State.writeSamples_pktLen (s : State) (vs : List Sample) :
    (s.writeSamples vs).pktLen = s.pktLen := rfl
@[simp] theorem State.writeSamples_burstCount (s : State) (vs : List Sample) :
    (s.writeSamples vs).burstCount = s.burstCount := rfl
@[simp] theorem State.writeSamples_txLen (s : State) (vs : List Sample) :
    (s.writeSamples vs).txLen = s.txLen := rfl
@[simp] theorem State.writeSamples_rxLen (s : State) (vs : List Sample) :
    (s.writeSamples vs).rxLen = s.rxLen := rfl
@[simp] theorem State.writeSamples_rxPos (s : State) (vs : List Sample) :
    (s.writeSamples vs).rxPos = s.rxPos := rfl
@[simp] theorem State.writeSamples_rxKind (s : State) (vs : List Sample) :
    (s.writeSamples vs).rxKind = s.rxKind := rfl
@[simp] theorem State.writeSamples_rxSerial (s : State) (vs : List Sample) :
    (s.writeSamples vs).rxSerial = s.rxSerial := rfl
@[simp] theorem State.writeSamples_rxProfile (s : State) (vs : List Sample) :
    (s.writeSamples vs).rxProfile = s.rxProfile := rfl
@[simp] theorem State.writeSamples_rxPacket (s : State) (vs : List Sample) :
    (s.writeSamples vs).rxPacket = s.rxPacket := rfl
@[simp] theorem State.writeSamples_rxBurst (s : State) (vs : List Sample) :
    (s.writeSamples vs).rxBurst = s.rxBurst := rfl
@[simp] theorem State.writeSamples_rxValue (s : State) (vs : List Sample) :
    (s.writeSamples vs).rxValue = s.rxValue := rfl
@[simp] theorem State.writeSamples_rxPay (s : State) (vs : List Sample) :
    (s.writeSamples vs).rxPay = s.rxPay := rfl
@[simp] theorem State.writeSamples_rxCrcCalc (s : State) (vs : List Sample) :
    (s.writeSamples vs).rxCrcCalc = s.rxCrcCalc := rfl
@[simp] theorem State.writeSamples_rxCrcRcvd (s : State) (vs : List Sample) :
    (s.writeSamples vs).rxCrcRcvd = s.rxCrcRcvd := rfl
@[simp] theorem State.writeSamples_nsamp (s : State) (vs : List Sample) :
    (s.writeSamples vs).nsamp = s.nsamp := rfl
@[simp] theorem State.writeSamples_plnLen (s : State) (vs : List Sample) :
    (s.writeSamples vs).plnLen = s.plnLen := rfl
@[simp] theorem State.writeSamples_pending (s : State) (vs : List Sample) :
    (s.writeSamples vs).pending = s.pending := rfl
@[simp] theorem State.writeSamples_mem (s : State) (vs : List Sample) :
    (s.writeSamples vs).mem = s.mem.writeBytes s.cfg.smpBase (vs.flatMap sampleBytes) := rfl
@[simp] theorem State.writeSamples_cfg (s : State) (vs : List Sample) :
    (s.writeSamples vs).cfg = s.cfg := rfl
@[simp] theorem State.writeSamples_busResp (s : State) (vs : List Sample) :
    (s.writeSamples vs).busResp = s.busResp := rfl
@[simp] theorem State.writeSamples_script (s : State) (vs : List Sample) :
    (s.writeSamples vs).script = s.script := rfl

/-! ### State.complete -/

@[simp] theorem State.complete_done (s : State) (r : Result) :
    (s.complete r).done = true := rfl
@[simp] theorem State.complete_framed (s : State) (r : Result) :
    (s.complete r).framed = s.framed := rfl
@[simp] theorem State.complete_result (s : State) (r : Result) :
    (s.complete r).result = r := rfl
@[simp] theorem State.complete_lastop (s : State) (r : Result) :
    (s.complete r).lastop = s.lastop := rfl
@[simp] theorem State.complete_fault (s : State) (r : Result) :
    (s.complete r).fault = s.fault := rfl
@[simp] theorem State.complete_ien (s : State) (r : Result) :
    (s.complete r).ien = s.ien := rfl
@[simp] theorem State.complete_crcAcc (s : State) (r : Result) :
    (s.complete r).crcAcc = s.crcAcc := rfl
@[simp] theorem State.complete_crcFed (s : State) (r : Result) :
    (s.complete r).crcFed = s.crcFed := rfl
@[simp] theorem State.complete_txSerial (s : State) (r : Result) :
    (s.complete r).txSerial = s.txSerial := rfl
@[simp] theorem State.complete_txProfile (s : State) (r : Result) :
    (s.complete r).txProfile = s.txProfile := rfl
@[simp] theorem State.complete_txPacket (s : State) (r : Result) :
    (s.complete r).txPacket = s.txPacket := rfl
@[simp] theorem State.complete_burstSize (s : State) (r : Result) :
    (s.complete r).burstSize = s.burstSize := rfl
@[simp] theorem State.complete_pktLen (s : State) (r : Result) :
    (s.complete r).pktLen = s.pktLen := rfl
@[simp] theorem State.complete_burstCount (s : State) (r : Result) :
    (s.complete r).burstCount = s.burstCount := rfl
@[simp] theorem State.complete_txLen (s : State) (r : Result) :
    (s.complete r).txLen = s.txLen := rfl
@[simp] theorem State.complete_rxLen (s : State) (r : Result) :
    (s.complete r).rxLen = s.rxLen := rfl
@[simp] theorem State.complete_rxPos (s : State) (r : Result) :
    (s.complete r).rxPos = s.rxPos := rfl
@[simp] theorem State.complete_rxKind (s : State) (r : Result) :
    (s.complete r).rxKind = s.rxKind := rfl
@[simp] theorem State.complete_rxSerial (s : State) (r : Result) :
    (s.complete r).rxSerial = s.rxSerial := rfl
@[simp] theorem State.complete_rxProfile (s : State) (r : Result) :
    (s.complete r).rxProfile = s.rxProfile := rfl
@[simp] theorem State.complete_rxPacket (s : State) (r : Result) :
    (s.complete r).rxPacket = s.rxPacket := rfl
@[simp] theorem State.complete_rxBurst (s : State) (r : Result) :
    (s.complete r).rxBurst = s.rxBurst := rfl
@[simp] theorem State.complete_rxValue (s : State) (r : Result) :
    (s.complete r).rxValue = s.rxValue := rfl
@[simp] theorem State.complete_rxPay (s : State) (r : Result) :
    (s.complete r).rxPay = s.rxPay := rfl
@[simp] theorem State.complete_rxCrcCalc (s : State) (r : Result) :
    (s.complete r).rxCrcCalc = s.rxCrcCalc := rfl
@[simp] theorem State.complete_rxCrcRcvd (s : State) (r : Result) :
    (s.complete r).rxCrcRcvd = s.rxCrcRcvd := rfl
@[simp] theorem State.complete_nsamp (s : State) (r : Result) :
    (s.complete r).nsamp = s.nsamp := rfl
@[simp] theorem State.complete_plnLen (s : State) (r : Result) :
    (s.complete r).plnLen = s.plnLen := rfl
@[simp] theorem State.complete_pending (s : State) (r : Result) :
    (s.complete r).pending = none := rfl
@[simp] theorem State.complete_mem (s : State) (r : Result) :
    (s.complete r).mem = s.mem := rfl
@[simp] theorem State.complete_cfg (s : State) (r : Result) :
    (s.complete r).cfg = s.cfg := rfl
@[simp] theorem State.complete_busResp (s : State) (r : Result) :
    (s.complete r).busResp = s.busResp := rfl
@[simp] theorem State.complete_script (s : State) (r : Result) :
    (s.complete r).script = s.script := rfl

/-! ### State.setFault -/

@[simp] theorem State.setFault_done (s : State) (f : FaultBit) :
    (s.setFault f).done = s.done := rfl
@[simp] theorem State.setFault_framed (s : State) (f : FaultBit) :
    (s.setFault f).framed = s.framed := rfl
@[simp] theorem State.setFault_result (s : State) (f : FaultBit) :
    (s.setFault f).result = s.result := rfl
@[simp] theorem State.setFault_lastop (s : State) (f : FaultBit) :
    (s.setFault f).lastop = s.lastop := rfl
@[simp] theorem State.setFault_fault (s : State) (f : FaultBit) :
    (s.setFault f).fault = s.fault ||| f.mask := rfl
@[simp] theorem State.setFault_ien (s : State) (f : FaultBit) :
    (s.setFault f).ien = s.ien := rfl
@[simp] theorem State.setFault_crcAcc (s : State) (f : FaultBit) :
    (s.setFault f).crcAcc = s.crcAcc := rfl
@[simp] theorem State.setFault_crcFed (s : State) (f : FaultBit) :
    (s.setFault f).crcFed = s.crcFed := rfl
@[simp] theorem State.setFault_txSerial (s : State) (f : FaultBit) :
    (s.setFault f).txSerial = s.txSerial := rfl
@[simp] theorem State.setFault_txProfile (s : State) (f : FaultBit) :
    (s.setFault f).txProfile = s.txProfile := rfl
@[simp] theorem State.setFault_txPacket (s : State) (f : FaultBit) :
    (s.setFault f).txPacket = s.txPacket := rfl
@[simp] theorem State.setFault_burstSize (s : State) (f : FaultBit) :
    (s.setFault f).burstSize = s.burstSize := rfl
@[simp] theorem State.setFault_pktLen (s : State) (f : FaultBit) :
    (s.setFault f).pktLen = s.pktLen := rfl
@[simp] theorem State.setFault_burstCount (s : State) (f : FaultBit) :
    (s.setFault f).burstCount = s.burstCount := rfl
@[simp] theorem State.setFault_txLen (s : State) (f : FaultBit) :
    (s.setFault f).txLen = s.txLen := rfl
@[simp] theorem State.setFault_rxLen (s : State) (f : FaultBit) :
    (s.setFault f).rxLen = s.rxLen := rfl
@[simp] theorem State.setFault_rxPos (s : State) (f : FaultBit) :
    (s.setFault f).rxPos = s.rxPos := rfl
@[simp] theorem State.setFault_rxKind (s : State) (f : FaultBit) :
    (s.setFault f).rxKind = s.rxKind := rfl
@[simp] theorem State.setFault_rxSerial (s : State) (f : FaultBit) :
    (s.setFault f).rxSerial = s.rxSerial := rfl
@[simp] theorem State.setFault_rxProfile (s : State) (f : FaultBit) :
    (s.setFault f).rxProfile = s.rxProfile := rfl
@[simp] theorem State.setFault_rxPacket (s : State) (f : FaultBit) :
    (s.setFault f).rxPacket = s.rxPacket := rfl
@[simp] theorem State.setFault_rxBurst (s : State) (f : FaultBit) :
    (s.setFault f).rxBurst = s.rxBurst := rfl
@[simp] theorem State.setFault_rxValue (s : State) (f : FaultBit) :
    (s.setFault f).rxValue = s.rxValue := rfl
@[simp] theorem State.setFault_rxPay (s : State) (f : FaultBit) :
    (s.setFault f).rxPay = s.rxPay := rfl
@[simp] theorem State.setFault_rxCrcCalc (s : State) (f : FaultBit) :
    (s.setFault f).rxCrcCalc = s.rxCrcCalc := rfl
@[simp] theorem State.setFault_rxCrcRcvd (s : State) (f : FaultBit) :
    (s.setFault f).rxCrcRcvd = s.rxCrcRcvd := rfl
@[simp] theorem State.setFault_nsamp (s : State) (f : FaultBit) :
    (s.setFault f).nsamp = s.nsamp := rfl
@[simp] theorem State.setFault_plnLen (s : State) (f : FaultBit) :
    (s.setFault f).plnLen = s.plnLen := rfl
@[simp] theorem State.setFault_pending (s : State) (f : FaultBit) :
    (s.setFault f).pending = s.pending := rfl
@[simp] theorem State.setFault_mem (s : State) (f : FaultBit) :
    (s.setFault f).mem = s.mem := rfl
@[simp] theorem State.setFault_cfg (s : State) (f : FaultBit) :
    (s.setFault f).cfg = s.cfg := rfl
@[simp] theorem State.setFault_busResp (s : State) (f : FaultBit) :
    (s.setFault f).busResp = s.busResp := rfl
@[simp] theorem State.setFault_script (s : State) (f : FaultBit) :
    (s.setFault f).script = s.script := rfl

/-! ### State.raise -/

@[simp] theorem State.raise_done (s : State) (f : FaultBit) :
    (s.raise f).done = true := rfl
@[simp] theorem State.raise_framed (s : State) (f : FaultBit) :
    (s.raise f).framed = s.framed := rfl
@[simp] theorem State.raise_result (s : State) (f : FaultBit) :
    (s.raise f).result = .fault := rfl
@[simp] theorem State.raise_lastop (s : State) (f : FaultBit) :
    (s.raise f).lastop = s.lastop := rfl
@[simp] theorem State.raise_fault (s : State) (f : FaultBit) :
    (s.raise f).fault = s.fault ||| f.mask := rfl
@[simp] theorem State.raise_ien (s : State) (f : FaultBit) :
    (s.raise f).ien = s.ien := rfl
@[simp] theorem State.raise_crcAcc (s : State) (f : FaultBit) :
    (s.raise f).crcAcc = s.crcAcc := rfl
@[simp] theorem State.raise_crcFed (s : State) (f : FaultBit) :
    (s.raise f).crcFed = s.crcFed := rfl
@[simp] theorem State.raise_txSerial (s : State) (f : FaultBit) :
    (s.raise f).txSerial = s.txSerial := rfl
@[simp] theorem State.raise_txProfile (s : State) (f : FaultBit) :
    (s.raise f).txProfile = s.txProfile := rfl
@[simp] theorem State.raise_txPacket (s : State) (f : FaultBit) :
    (s.raise f).txPacket = s.txPacket := rfl
@[simp] theorem State.raise_burstSize (s : State) (f : FaultBit) :
    (s.raise f).burstSize = s.burstSize := rfl
@[simp] theorem State.raise_pktLen (s : State) (f : FaultBit) :
    (s.raise f).pktLen = s.pktLen := rfl
@[simp] theorem State.raise_burstCount (s : State) (f : FaultBit) :
    (s.raise f).burstCount = s.burstCount := rfl
@[simp] theorem State.raise_txLen (s : State) (f : FaultBit) :
    (s.raise f).txLen = s.txLen := rfl
@[simp] theorem State.raise_rxLen (s : State) (f : FaultBit) :
    (s.raise f).rxLen = s.rxLen := rfl
@[simp] theorem State.raise_rxPos (s : State) (f : FaultBit) :
    (s.raise f).rxPos = s.rxPos := rfl
@[simp] theorem State.raise_rxKind (s : State) (f : FaultBit) :
    (s.raise f).rxKind = s.rxKind := rfl
@[simp] theorem State.raise_rxSerial (s : State) (f : FaultBit) :
    (s.raise f).rxSerial = s.rxSerial := rfl
@[simp] theorem State.raise_rxProfile (s : State) (f : FaultBit) :
    (s.raise f).rxProfile = s.rxProfile := rfl
@[simp] theorem State.raise_rxPacket (s : State) (f : FaultBit) :
    (s.raise f).rxPacket = s.rxPacket := rfl
@[simp] theorem State.raise_rxBurst (s : State) (f : FaultBit) :
    (s.raise f).rxBurst = s.rxBurst := rfl
@[simp] theorem State.raise_rxValue (s : State) (f : FaultBit) :
    (s.raise f).rxValue = s.rxValue := rfl
@[simp] theorem State.raise_rxPay (s : State) (f : FaultBit) :
    (s.raise f).rxPay = s.rxPay := rfl
@[simp] theorem State.raise_rxCrcCalc (s : State) (f : FaultBit) :
    (s.raise f).rxCrcCalc = s.rxCrcCalc := rfl
@[simp] theorem State.raise_rxCrcRcvd (s : State) (f : FaultBit) :
    (s.raise f).rxCrcRcvd = s.rxCrcRcvd := rfl
@[simp] theorem State.raise_nsamp (s : State) (f : FaultBit) :
    (s.raise f).nsamp = s.nsamp := rfl
@[simp] theorem State.raise_plnLen (s : State) (f : FaultBit) :
    (s.raise f).plnLen = s.plnLen := rfl
@[simp] theorem State.raise_pending (s : State) (f : FaultBit) :
    (s.raise f).pending = none := rfl
@[simp] theorem State.raise_mem (s : State) (f : FaultBit) :
    (s.raise f).mem = s.mem := rfl
@[simp] theorem State.raise_cfg (s : State) (f : FaultBit) :
    (s.raise f).cfg = s.cfg := rfl
@[simp] theorem State.raise_busResp (s : State) (f : FaultBit) :
    (s.raise f).busResp = s.busResp := rfl
@[simp] theorem State.raise_script (s : State) (f : FaultBit) :
    (s.raise f).script = s.script := rfl

/-! ### State.respond -/

@[simp] theorem State.respond_done (s : State) (r : BusResponse) :
    (s.respond r).done = s.done := rfl
@[simp] theorem State.respond_framed (s : State) (r : BusResponse) :
    (s.respond r).framed = s.framed := rfl
@[simp] theorem State.respond_result (s : State) (r : BusResponse) :
    (s.respond r).result = s.result := rfl
@[simp] theorem State.respond_lastop (s : State) (r : BusResponse) :
    (s.respond r).lastop = s.lastop := rfl
@[simp] theorem State.respond_fault (s : State) (r : BusResponse) :
    (s.respond r).fault = s.fault := rfl
@[simp] theorem State.respond_ien (s : State) (r : BusResponse) :
    (s.respond r).ien = s.ien := rfl
@[simp] theorem State.respond_crcAcc (s : State) (r : BusResponse) :
    (s.respond r).crcAcc = s.crcAcc := rfl
@[simp] theorem State.respond_crcFed (s : State) (r : BusResponse) :
    (s.respond r).crcFed = s.crcFed := rfl
@[simp] theorem State.respond_txSerial (s : State) (r : BusResponse) :
    (s.respond r).txSerial = s.txSerial := rfl
@[simp] theorem State.respond_txProfile (s : State) (r : BusResponse) :
    (s.respond r).txProfile = s.txProfile := rfl
@[simp] theorem State.respond_txPacket (s : State) (r : BusResponse) :
    (s.respond r).txPacket = s.txPacket := rfl
@[simp] theorem State.respond_burstSize (s : State) (r : BusResponse) :
    (s.respond r).burstSize = s.burstSize := rfl
@[simp] theorem State.respond_pktLen (s : State) (r : BusResponse) :
    (s.respond r).pktLen = s.pktLen := rfl
@[simp] theorem State.respond_burstCount (s : State) (r : BusResponse) :
    (s.respond r).burstCount = s.burstCount := rfl
@[simp] theorem State.respond_txLen (s : State) (r : BusResponse) :
    (s.respond r).txLen = s.txLen := rfl
@[simp] theorem State.respond_rxLen (s : State) (r : BusResponse) :
    (s.respond r).rxLen = s.rxLen := rfl
@[simp] theorem State.respond_rxPos (s : State) (r : BusResponse) :
    (s.respond r).rxPos = s.rxPos := rfl
@[simp] theorem State.respond_rxKind (s : State) (r : BusResponse) :
    (s.respond r).rxKind = s.rxKind := rfl
@[simp] theorem State.respond_rxSerial (s : State) (r : BusResponse) :
    (s.respond r).rxSerial = s.rxSerial := rfl
@[simp] theorem State.respond_rxProfile (s : State) (r : BusResponse) :
    (s.respond r).rxProfile = s.rxProfile := rfl
@[simp] theorem State.respond_rxPacket (s : State) (r : BusResponse) :
    (s.respond r).rxPacket = s.rxPacket := rfl
@[simp] theorem State.respond_rxBurst (s : State) (r : BusResponse) :
    (s.respond r).rxBurst = s.rxBurst := rfl
@[simp] theorem State.respond_rxValue (s : State) (r : BusResponse) :
    (s.respond r).rxValue = s.rxValue := rfl
@[simp] theorem State.respond_rxPay (s : State) (r : BusResponse) :
    (s.respond r).rxPay = s.rxPay := rfl
@[simp] theorem State.respond_rxCrcCalc (s : State) (r : BusResponse) :
    (s.respond r).rxCrcCalc = s.rxCrcCalc := rfl
@[simp] theorem State.respond_rxCrcRcvd (s : State) (r : BusResponse) :
    (s.respond r).rxCrcRcvd = s.rxCrcRcvd := rfl
@[simp] theorem State.respond_nsamp (s : State) (r : BusResponse) :
    (s.respond r).nsamp = s.nsamp := rfl
@[simp] theorem State.respond_plnLen (s : State) (r : BusResponse) :
    (s.respond r).plnLen = s.plnLen := rfl
@[simp] theorem State.respond_pending (s : State) (r : BusResponse) :
    (s.respond r).pending = s.pending := rfl
@[simp] theorem State.respond_mem (s : State) (r : BusResponse) :
    (s.respond r).mem = s.mem := rfl
@[simp] theorem State.respond_cfg (s : State) (r : BusResponse) :
    (s.respond r).cfg = s.cfg := rfl
@[simp] theorem State.respond_busResp (s : State) (r : BusResponse) :
    (s.respond r).busResp = some r := rfl
@[simp] theorem State.respond_script (s : State) (r : BusResponse) :
    (s.respond r).script = s.script := rfl

/-! ### State.refuseAccess -/

@[simp] theorem State.refuseAccess_done (s : State) (f : FaultBit) :
    (s.refuseAccess f).done = s.done := rfl
@[simp] theorem State.refuseAccess_framed (s : State) (f : FaultBit) :
    (s.refuseAccess f).framed = s.framed := rfl
@[simp] theorem State.refuseAccess_result (s : State) (f : FaultBit) :
    (s.refuseAccess f).result = s.result := rfl
@[simp] theorem State.refuseAccess_lastop (s : State) (f : FaultBit) :
    (s.refuseAccess f).lastop = s.lastop := rfl
@[simp] theorem State.refuseAccess_fault (s : State) (f : FaultBit) :
    (s.refuseAccess f).fault = s.fault ||| f.mask := rfl
@[simp] theorem State.refuseAccess_ien (s : State) (f : FaultBit) :
    (s.refuseAccess f).ien = s.ien := rfl
@[simp] theorem State.refuseAccess_crcAcc (s : State) (f : FaultBit) :
    (s.refuseAccess f).crcAcc = s.crcAcc := rfl
@[simp] theorem State.refuseAccess_crcFed (s : State) (f : FaultBit) :
    (s.refuseAccess f).crcFed = s.crcFed := rfl
@[simp] theorem State.refuseAccess_txSerial (s : State) (f : FaultBit) :
    (s.refuseAccess f).txSerial = s.txSerial := rfl
@[simp] theorem State.refuseAccess_txProfile (s : State) (f : FaultBit) :
    (s.refuseAccess f).txProfile = s.txProfile := rfl
@[simp] theorem State.refuseAccess_txPacket (s : State) (f : FaultBit) :
    (s.refuseAccess f).txPacket = s.txPacket := rfl
@[simp] theorem State.refuseAccess_burstSize (s : State) (f : FaultBit) :
    (s.refuseAccess f).burstSize = s.burstSize := rfl
@[simp] theorem State.refuseAccess_pktLen (s : State) (f : FaultBit) :
    (s.refuseAccess f).pktLen = s.pktLen := rfl
@[simp] theorem State.refuseAccess_burstCount (s : State) (f : FaultBit) :
    (s.refuseAccess f).burstCount = s.burstCount := rfl
@[simp] theorem State.refuseAccess_txLen (s : State) (f : FaultBit) :
    (s.refuseAccess f).txLen = s.txLen := rfl
@[simp] theorem State.refuseAccess_rxLen (s : State) (f : FaultBit) :
    (s.refuseAccess f).rxLen = s.rxLen := rfl
@[simp] theorem State.refuseAccess_rxPos (s : State) (f : FaultBit) :
    (s.refuseAccess f).rxPos = s.rxPos := rfl
@[simp] theorem State.refuseAccess_rxKind (s : State) (f : FaultBit) :
    (s.refuseAccess f).rxKind = s.rxKind := rfl
@[simp] theorem State.refuseAccess_rxSerial (s : State) (f : FaultBit) :
    (s.refuseAccess f).rxSerial = s.rxSerial := rfl
@[simp] theorem State.refuseAccess_rxProfile (s : State) (f : FaultBit) :
    (s.refuseAccess f).rxProfile = s.rxProfile := rfl
@[simp] theorem State.refuseAccess_rxPacket (s : State) (f : FaultBit) :
    (s.refuseAccess f).rxPacket = s.rxPacket := rfl
@[simp] theorem State.refuseAccess_rxBurst (s : State) (f : FaultBit) :
    (s.refuseAccess f).rxBurst = s.rxBurst := rfl
@[simp] theorem State.refuseAccess_rxValue (s : State) (f : FaultBit) :
    (s.refuseAccess f).rxValue = s.rxValue := rfl
@[simp] theorem State.refuseAccess_rxPay (s : State) (f : FaultBit) :
    (s.refuseAccess f).rxPay = s.rxPay := rfl
@[simp] theorem State.refuseAccess_rxCrcCalc (s : State) (f : FaultBit) :
    (s.refuseAccess f).rxCrcCalc = s.rxCrcCalc := rfl
@[simp] theorem State.refuseAccess_rxCrcRcvd (s : State) (f : FaultBit) :
    (s.refuseAccess f).rxCrcRcvd = s.rxCrcRcvd := rfl
@[simp] theorem State.refuseAccess_nsamp (s : State) (f : FaultBit) :
    (s.refuseAccess f).nsamp = s.nsamp := rfl
@[simp] theorem State.refuseAccess_plnLen (s : State) (f : FaultBit) :
    (s.refuseAccess f).plnLen = s.plnLen := rfl
@[simp] theorem State.refuseAccess_pending (s : State) (f : FaultBit) :
    (s.refuseAccess f).pending = s.pending := rfl
@[simp] theorem State.refuseAccess_mem (s : State) (f : FaultBit) :
    (s.refuseAccess f).mem = s.mem := rfl
@[simp] theorem State.refuseAccess_cfg (s : State) (f : FaultBit) :
    (s.refuseAccess f).cfg = s.cfg := rfl
@[simp] theorem State.refuseAccess_busResp (s : State) (f : FaultBit) :
    (s.refuseAccess f).busResp = some .busError := rfl
@[simp] theorem State.refuseAccess_script (s : State) (f : FaultBit) :
    (s.refuseAccess f).script = s.script := rfl

/-! ### State.accept -/

@[simp] theorem State.accept_done (s : State) (w : Word) :
    (s.accept w).done = false := rfl
@[simp] theorem State.accept_framed (s : State) (w : Word) :
    (s.accept w).framed = s.framed := rfl
@[simp] theorem State.accept_result (s : State) (w : Word) :
    (s.accept w).result = s.result := rfl
@[simp] theorem State.accept_lastop (s : State) (w : Word) :
    (s.accept w).lastop = w.extractLsb' 0 8 := rfl
@[simp] theorem State.accept_fault (s : State) (w : Word) :
    (s.accept w).fault = s.fault := rfl
@[simp] theorem State.accept_ien (s : State) (w : Word) :
    (s.accept w).ien = s.ien := rfl
@[simp] theorem State.accept_crcAcc (s : State) (w : Word) :
    (s.accept w).crcAcc = s.crcAcc := rfl
@[simp] theorem State.accept_crcFed (s : State) (w : Word) :
    (s.accept w).crcFed = s.crcFed := rfl
@[simp] theorem State.accept_txSerial (s : State) (w : Word) :
    (s.accept w).txSerial = s.txSerial := rfl
@[simp] theorem State.accept_txProfile (s : State) (w : Word) :
    (s.accept w).txProfile = s.txProfile := rfl
@[simp] theorem State.accept_txPacket (s : State) (w : Word) :
    (s.accept w).txPacket = s.txPacket := rfl
@[simp] theorem State.accept_burstSize (s : State) (w : Word) :
    (s.accept w).burstSize = s.burstSize := rfl
@[simp] theorem State.accept_pktLen (s : State) (w : Word) :
    (s.accept w).pktLen = s.pktLen := rfl
@[simp] theorem State.accept_burstCount (s : State) (w : Word) :
    (s.accept w).burstCount = s.burstCount := rfl
@[simp] theorem State.accept_txLen (s : State) (w : Word) :
    (s.accept w).txLen = s.txLen := rfl
@[simp] theorem State.accept_rxLen (s : State) (w : Word) :
    (s.accept w).rxLen = s.rxLen := rfl
@[simp] theorem State.accept_rxPos (s : State) (w : Word) :
    (s.accept w).rxPos = s.rxPos := rfl
@[simp] theorem State.accept_rxKind (s : State) (w : Word) :
    (s.accept w).rxKind = s.rxKind := rfl
@[simp] theorem State.accept_rxSerial (s : State) (w : Word) :
    (s.accept w).rxSerial = s.rxSerial := rfl
@[simp] theorem State.accept_rxProfile (s : State) (w : Word) :
    (s.accept w).rxProfile = s.rxProfile := rfl
@[simp] theorem State.accept_rxPacket (s : State) (w : Word) :
    (s.accept w).rxPacket = s.rxPacket := rfl
@[simp] theorem State.accept_rxBurst (s : State) (w : Word) :
    (s.accept w).rxBurst = s.rxBurst := rfl
@[simp] theorem State.accept_rxValue (s : State) (w : Word) :
    (s.accept w).rxValue = s.rxValue := rfl
@[simp] theorem State.accept_rxPay (s : State) (w : Word) :
    (s.accept w).rxPay = s.rxPay := rfl
@[simp] theorem State.accept_rxCrcCalc (s : State) (w : Word) :
    (s.accept w).rxCrcCalc = s.rxCrcCalc := rfl
@[simp] theorem State.accept_rxCrcRcvd (s : State) (w : Word) :
    (s.accept w).rxCrcRcvd = s.rxCrcRcvd := rfl
@[simp] theorem State.accept_nsamp (s : State) (w : Word) :
    (s.accept w).nsamp = s.nsamp := rfl
@[simp] theorem State.accept_plnLen (s : State) (w : Word) :
    (s.accept w).plnLen = s.plnLen := rfl
@[simp] theorem State.accept_pending (s : State) (w : Word) :
    (s.accept w).pending = some w := rfl
@[simp] theorem State.accept_mem (s : State) (w : Word) :
    (s.accept w).mem = s.mem := rfl
@[simp] theorem State.accept_cfg (s : State) (w : Word) :
    (s.accept w).cfg = s.cfg := rfl
@[simp] theorem State.accept_busResp (s : State) (w : Word) :
    (s.accept w).busResp = s.busResp := rfl
@[simp] theorem State.accept_script (s : State) (w : Word) :
    (s.accept w).script = s.script := rfl

/-! ### State.withScript -/

@[simp] theorem State.withScript_done (s : State) (es : List Event) :
    (s.withScript es).done = s.done := rfl
@[simp] theorem State.withScript_framed (s : State) (es : List Event) :
    (s.withScript es).framed = s.framed := rfl
@[simp] theorem State.withScript_result (s : State) (es : List Event) :
    (s.withScript es).result = s.result := rfl
@[simp] theorem State.withScript_lastop (s : State) (es : List Event) :
    (s.withScript es).lastop = s.lastop := rfl
@[simp] theorem State.withScript_fault (s : State) (es : List Event) :
    (s.withScript es).fault = s.fault := rfl
@[simp] theorem State.withScript_ien (s : State) (es : List Event) :
    (s.withScript es).ien = s.ien := rfl
@[simp] theorem State.withScript_crcAcc (s : State) (es : List Event) :
    (s.withScript es).crcAcc = s.crcAcc := rfl
@[simp] theorem State.withScript_crcFed (s : State) (es : List Event) :
    (s.withScript es).crcFed = s.crcFed := rfl
@[simp] theorem State.withScript_txSerial (s : State) (es : List Event) :
    (s.withScript es).txSerial = s.txSerial := rfl
@[simp] theorem State.withScript_txProfile (s : State) (es : List Event) :
    (s.withScript es).txProfile = s.txProfile := rfl
@[simp] theorem State.withScript_txPacket (s : State) (es : List Event) :
    (s.withScript es).txPacket = s.txPacket := rfl
@[simp] theorem State.withScript_burstSize (s : State) (es : List Event) :
    (s.withScript es).burstSize = s.burstSize := rfl
@[simp] theorem State.withScript_pktLen (s : State) (es : List Event) :
    (s.withScript es).pktLen = s.pktLen := rfl
@[simp] theorem State.withScript_burstCount (s : State) (es : List Event) :
    (s.withScript es).burstCount = s.burstCount := rfl
@[simp] theorem State.withScript_txLen (s : State) (es : List Event) :
    (s.withScript es).txLen = s.txLen := rfl
@[simp] theorem State.withScript_rxLen (s : State) (es : List Event) :
    (s.withScript es).rxLen = s.rxLen := rfl
@[simp] theorem State.withScript_rxPos (s : State) (es : List Event) :
    (s.withScript es).rxPos = s.rxPos := rfl
@[simp] theorem State.withScript_rxKind (s : State) (es : List Event) :
    (s.withScript es).rxKind = s.rxKind := rfl
@[simp] theorem State.withScript_rxSerial (s : State) (es : List Event) :
    (s.withScript es).rxSerial = s.rxSerial := rfl
@[simp] theorem State.withScript_rxProfile (s : State) (es : List Event) :
    (s.withScript es).rxProfile = s.rxProfile := rfl
@[simp] theorem State.withScript_rxPacket (s : State) (es : List Event) :
    (s.withScript es).rxPacket = s.rxPacket := rfl
@[simp] theorem State.withScript_rxBurst (s : State) (es : List Event) :
    (s.withScript es).rxBurst = s.rxBurst := rfl
@[simp] theorem State.withScript_rxValue (s : State) (es : List Event) :
    (s.withScript es).rxValue = s.rxValue := rfl
@[simp] theorem State.withScript_rxPay (s : State) (es : List Event) :
    (s.withScript es).rxPay = s.rxPay := rfl
@[simp] theorem State.withScript_rxCrcCalc (s : State) (es : List Event) :
    (s.withScript es).rxCrcCalc = s.rxCrcCalc := rfl
@[simp] theorem State.withScript_rxCrcRcvd (s : State) (es : List Event) :
    (s.withScript es).rxCrcRcvd = s.rxCrcRcvd := rfl
@[simp] theorem State.withScript_nsamp (s : State) (es : List Event) :
    (s.withScript es).nsamp = s.nsamp := rfl
@[simp] theorem State.withScript_plnLen (s : State) (es : List Event) :
    (s.withScript es).plnLen = s.plnLen := rfl
@[simp] theorem State.withScript_pending (s : State) (es : List Event) :
    (s.withScript es).pending = s.pending := rfl
@[simp] theorem State.withScript_mem (s : State) (es : List Event) :
    (s.withScript es).mem = s.mem := rfl
@[simp] theorem State.withScript_cfg (s : State) (es : List Event) :
    (s.withScript es).cfg = s.cfg := rfl
@[simp] theorem State.withScript_busResp (s : State) (es : List Event) :
    (s.withScript es).busResp = s.busResp := rfl
@[simp] theorem State.withScript_script (s : State) (es : List Event) :
    (s.withScript es).script = es := rfl

/-! ### State.feedCrc -/

@[simp] theorem State.feedCrc_done (s : State) (w : Word) :
    (s.feedCrc w).done = s.done := rfl
@[simp] theorem State.feedCrc_framed (s : State) (w : Word) :
    (s.feedCrc w).framed = s.framed := rfl
@[simp] theorem State.feedCrc_result (s : State) (w : Word) :
    (s.feedCrc w).result = s.result := rfl
@[simp] theorem State.feedCrc_lastop (s : State) (w : Word) :
    (s.feedCrc w).lastop = s.lastop := rfl
@[simp] theorem State.feedCrc_fault (s : State) (w : Word) :
    (s.feedCrc w).fault = s.fault := rfl
@[simp] theorem State.feedCrc_ien (s : State) (w : Word) :
    (s.feedCrc w).ien = s.ien := rfl
@[simp] theorem State.feedCrc_crcAcc (s : State) (w : Word) :
    (s.feedCrc w).crcAcc = s.nextCrcAcc (w.setWidth 8) := rfl
@[simp] theorem State.feedCrc_crcFed (s : State) (w : Word) :
    (s.feedCrc w).crcFed = s.crcFed ++ [w.setWidth 8] := rfl
@[simp] theorem State.feedCrc_txSerial (s : State) (w : Word) :
    (s.feedCrc w).txSerial = s.txSerial := rfl
@[simp] theorem State.feedCrc_txProfile (s : State) (w : Word) :
    (s.feedCrc w).txProfile = s.txProfile := rfl
@[simp] theorem State.feedCrc_txPacket (s : State) (w : Word) :
    (s.feedCrc w).txPacket = s.txPacket := rfl
@[simp] theorem State.feedCrc_burstSize (s : State) (w : Word) :
    (s.feedCrc w).burstSize = s.burstSize := rfl
@[simp] theorem State.feedCrc_pktLen (s : State) (w : Word) :
    (s.feedCrc w).pktLen = s.pktLen := rfl
@[simp] theorem State.feedCrc_burstCount (s : State) (w : Word) :
    (s.feedCrc w).burstCount = s.burstCount := rfl
@[simp] theorem State.feedCrc_txLen (s : State) (w : Word) :
    (s.feedCrc w).txLen = s.txLen := rfl
@[simp] theorem State.feedCrc_rxLen (s : State) (w : Word) :
    (s.feedCrc w).rxLen = s.rxLen := rfl
@[simp] theorem State.feedCrc_rxPos (s : State) (w : Word) :
    (s.feedCrc w).rxPos = s.rxPos := rfl
@[simp] theorem State.feedCrc_rxKind (s : State) (w : Word) :
    (s.feedCrc w).rxKind = s.rxKind := rfl
@[simp] theorem State.feedCrc_rxSerial (s : State) (w : Word) :
    (s.feedCrc w).rxSerial = s.rxSerial := rfl
@[simp] theorem State.feedCrc_rxProfile (s : State) (w : Word) :
    (s.feedCrc w).rxProfile = s.rxProfile := rfl
@[simp] theorem State.feedCrc_rxPacket (s : State) (w : Word) :
    (s.feedCrc w).rxPacket = s.rxPacket := rfl
@[simp] theorem State.feedCrc_rxBurst (s : State) (w : Word) :
    (s.feedCrc w).rxBurst = s.rxBurst := rfl
@[simp] theorem State.feedCrc_rxValue (s : State) (w : Word) :
    (s.feedCrc w).rxValue = s.rxValue := rfl
@[simp] theorem State.feedCrc_rxPay (s : State) (w : Word) :
    (s.feedCrc w).rxPay = s.rxPay := rfl
@[simp] theorem State.feedCrc_rxCrcCalc (s : State) (w : Word) :
    (s.feedCrc w).rxCrcCalc = s.rxCrcCalc := rfl
@[simp] theorem State.feedCrc_rxCrcRcvd (s : State) (w : Word) :
    (s.feedCrc w).rxCrcRcvd = s.rxCrcRcvd := rfl
@[simp] theorem State.feedCrc_nsamp (s : State) (w : Word) :
    (s.feedCrc w).nsamp = s.nsamp := rfl
@[simp] theorem State.feedCrc_plnLen (s : State) (w : Word) :
    (s.feedCrc w).plnLen = s.plnLen := rfl
@[simp] theorem State.feedCrc_pending (s : State) (w : Word) :
    (s.feedCrc w).pending = s.pending := rfl
@[simp] theorem State.feedCrc_mem (s : State) (w : Word) :
    (s.feedCrc w).mem = s.mem := rfl
@[simp] theorem State.feedCrc_cfg (s : State) (w : Word) :
    (s.feedCrc w).cfg = s.cfg := rfl
@[simp] theorem State.feedCrc_busResp (s : State) (w : Word) :
    (s.feedCrc w).busResp = s.busResp := rfl
@[simp] theorem State.feedCrc_script (s : State) (w : Word) :
    (s.feedCrc w).script = s.script := rfl

/-! ### State.setCrc -/

@[simp] theorem State.setCrc_done (s : State) (bs : List Byte) :
    (s.setCrc bs).done = s.done := rfl
@[simp] theorem State.setCrc_framed (s : State) (bs : List Byte) :
    (s.setCrc bs).framed = s.framed := rfl
@[simp] theorem State.setCrc_result (s : State) (bs : List Byte) :
    (s.setCrc bs).result = s.result := rfl
@[simp] theorem State.setCrc_lastop (s : State) (bs : List Byte) :
    (s.setCrc bs).lastop = s.lastop := rfl
@[simp] theorem State.setCrc_fault (s : State) (bs : List Byte) :
    (s.setCrc bs).fault = s.fault := rfl
@[simp] theorem State.setCrc_ien (s : State) (bs : List Byte) :
    (s.setCrc bs).ien = s.ien := rfl
@[simp] theorem State.setCrc_crcAcc (s : State) (bs : List Byte) :
    (s.setCrc bs).crcAcc = crcFinish (s.cfg.crc32 bs) := rfl
@[simp] theorem State.setCrc_crcFed (s : State) (bs : List Byte) :
    (s.setCrc bs).crcFed = bs := rfl
@[simp] theorem State.setCrc_txSerial (s : State) (bs : List Byte) :
    (s.setCrc bs).txSerial = s.txSerial := rfl
@[simp] theorem State.setCrc_txProfile (s : State) (bs : List Byte) :
    (s.setCrc bs).txProfile = s.txProfile := rfl
@[simp] theorem State.setCrc_txPacket (s : State) (bs : List Byte) :
    (s.setCrc bs).txPacket = s.txPacket := rfl
@[simp] theorem State.setCrc_burstSize (s : State) (bs : List Byte) :
    (s.setCrc bs).burstSize = s.burstSize := rfl
@[simp] theorem State.setCrc_pktLen (s : State) (bs : List Byte) :
    (s.setCrc bs).pktLen = s.pktLen := rfl
@[simp] theorem State.setCrc_burstCount (s : State) (bs : List Byte) :
    (s.setCrc bs).burstCount = s.burstCount := rfl
@[simp] theorem State.setCrc_txLen (s : State) (bs : List Byte) :
    (s.setCrc bs).txLen = s.txLen := rfl
@[simp] theorem State.setCrc_rxLen (s : State) (bs : List Byte) :
    (s.setCrc bs).rxLen = s.rxLen := rfl
@[simp] theorem State.setCrc_rxPos (s : State) (bs : List Byte) :
    (s.setCrc bs).rxPos = s.rxPos := rfl
@[simp] theorem State.setCrc_rxKind (s : State) (bs : List Byte) :
    (s.setCrc bs).rxKind = s.rxKind := rfl
@[simp] theorem State.setCrc_rxSerial (s : State) (bs : List Byte) :
    (s.setCrc bs).rxSerial = s.rxSerial := rfl
@[simp] theorem State.setCrc_rxProfile (s : State) (bs : List Byte) :
    (s.setCrc bs).rxProfile = s.rxProfile := rfl
@[simp] theorem State.setCrc_rxPacket (s : State) (bs : List Byte) :
    (s.setCrc bs).rxPacket = s.rxPacket := rfl
@[simp] theorem State.setCrc_rxBurst (s : State) (bs : List Byte) :
    (s.setCrc bs).rxBurst = s.rxBurst := rfl
@[simp] theorem State.setCrc_rxValue (s : State) (bs : List Byte) :
    (s.setCrc bs).rxValue = s.rxValue := rfl
@[simp] theorem State.setCrc_rxPay (s : State) (bs : List Byte) :
    (s.setCrc bs).rxPay = s.rxPay := rfl
@[simp] theorem State.setCrc_rxCrcCalc (s : State) (bs : List Byte) :
    (s.setCrc bs).rxCrcCalc = s.rxCrcCalc := rfl
@[simp] theorem State.setCrc_rxCrcRcvd (s : State) (bs : List Byte) :
    (s.setCrc bs).rxCrcRcvd = s.rxCrcRcvd := rfl
@[simp] theorem State.setCrc_nsamp (s : State) (bs : List Byte) :
    (s.setCrc bs).nsamp = s.nsamp := rfl
@[simp] theorem State.setCrc_plnLen (s : State) (bs : List Byte) :
    (s.setCrc bs).plnLen = s.plnLen := rfl
@[simp] theorem State.setCrc_pending (s : State) (bs : List Byte) :
    (s.setCrc bs).pending = s.pending := rfl
@[simp] theorem State.setCrc_mem (s : State) (bs : List Byte) :
    (s.setCrc bs).mem = s.mem := rfl
@[simp] theorem State.setCrc_cfg (s : State) (bs : List Byte) :
    (s.setCrc bs).cfg = s.cfg := rfl
@[simp] theorem State.setCrc_busResp (s : State) (bs : List Byte) :
    (s.setCrc bs).busResp = s.busResp := rfl
@[simp] theorem State.setCrc_script (s : State) (bs : List Byte) :
    (s.setCrc bs).script = s.script := rfl

end Sys2Proof.Machine
end

