-- ==== Sys2Proof/Laws/Memory.lean ====
section
/-! SUPPORT. Laws of the buffer memory: reads after writes, the canonical form, strings of bytes. -/

namespace Sys2Proof.Machine

/-! ### One byte -/

theorem Memory.read_nil (a : Nat) : Memory.read [] a = Memory.unlisted := rfl

theorem Memory.read_cons (k : Nat) (c : Byte) (rest : Memory) (a : Nat) :
    Memory.read ((k, c) :: rest) a = if k = a then c else Memory.read rest a := rfl

/-- An address below every listed one reads as unlisted. -/
theorem Memory.read_of_forall_ne (m : Memory) (a : Nat) (h : ∀ c ∈ m, c.1 ≠ a) :
    m.read a = Memory.unlisted := by
  induction m with
  | nil => rfl
  | cons c rest ih =>
    rw [Memory.read, if_neg (h c List.mem_cons_self)]
    exact ih fun d hd => h d (List.mem_cons_of_mem _ hd)

theorem Memory.wf_nil : Memory.wf [] := by simp [Memory.wf]

theorem Memory.wf_cons {k : Nat} {c : Byte} {rest : Memory} (h : Memory.wf ((k, c) :: rest)) :
    (∀ d ∈ rest, k < d.1) ∧ c ≠ Memory.unlisted ∧ Memory.wf rest := by
  obtain ⟨hp, hz⟩ := h
  rw [List.pairwise_cons] at hp
  exact ⟨hp.1, hz _ List.mem_cons_self, hp.2, fun d hd => hz d (List.mem_cons_of_mem _ hd)⟩

theorem Memory.wf_cons_of {k : Nat} {c : Byte} {rest : Memory} (hk : ∀ d ∈ rest, k < d.1)
    (hc : c ≠ Memory.unlisted) (h : Memory.wf rest) : Memory.wf ((k, c) :: rest) := by
  refine ⟨List.pairwise_cons.2 ⟨hk, h.1⟩, fun d hd => ?_⟩
  rcases List.mem_cons.1 hd with rfl | hd
  · exact hc
  · exact h.2 d hd

theorem Memory.place_wf {a : Nat} {b : Byte} {rest : Memory} (hk : ∀ d ∈ rest, a < d.1)
    (h : Memory.wf rest) : Memory.wf (Memory.place a b rest) := by
  unfold Memory.place
  split
  · exact h
  · next hb => exact Memory.wf_cons_of hk hb h

theorem Memory.mem_place {a : Nat} {b : Byte} {rest : Memory} {c : Host.Cell}
    (h : c ∈ Memory.place a b rest) : c = (a, b) ∨ c ∈ rest := by
  unfold Memory.place at h
  split at h
  · exact .inr h
  · exact List.mem_cons.1 h

theorem Memory.read_place_other {a x : Nat} (b : Byte) (rest : Memory) (hx : x ≠ a) :
    (Memory.place a b rest).read x = rest.read x := by
  unfold Memory.place
  split
  · rfl
  · rw [Memory.read_cons, if_neg (Ne.symm hx)]

theorem Memory.read_place_same {a : Nat} (b : Byte) {rest : Memory} (hk : ∀ d ∈ rest, a < d.1) :
    (Memory.place a b rest).read a = b := by
  unfold Memory.place
  split
  · next hb =>
    rw [hb]
    exact Memory.read_of_forall_ne rest a fun c hc => Nat.ne_of_gt (hk c hc)
  · rw [Memory.read_cons, if_pos rfl]

/-- A write lists no cell but its own beside those listed before. -/
theorem Memory.mem_write {m : Memory} {a : Nat} {b : Byte} {c : Host.Cell} (h : c ∈ m.write a b) :
    c = (a, b) ∨ c ∈ m := by
  induction m with
  | nil => exact Memory.mem_place h
  | cons d rest ih =>
    obtain ⟨k, e⟩ := d
    rw [Memory.write] at h
    split at h
    · exact Memory.mem_place h
    · split at h
      · rcases Memory.mem_place h with h | h
        · exact .inl h
        · exact .inr (List.mem_cons_of_mem _ h)
      · rcases List.mem_cons.1 h with h | h
        · exact .inr (h ▸ List.mem_cons_self)
        · rcases ih h with h | h
          · exact .inl h
          · exact .inr (List.mem_cons_of_mem _ h)

/-- A write keeps the canonical form. -/
theorem Memory.write_wf {m : Memory} (h : m.wf) (a : Nat) (b : Byte) : (m.write a b).wf := by
  induction m with
  | nil => exact Memory.place_wf (by simp) Memory.wf_nil
  | cons d rest ih =>
    obtain ⟨k, e⟩ := d
    obtain ⟨hk, he, hrest⟩ := Memory.wf_cons h
    rw [Memory.write]
    split
    · next hak =>
      refine Memory.place_wf (fun d hd => ?_) h
      rcases List.mem_cons.1 hd with rfl | hd
      · exact hak
      · exact Nat.lt_trans hak (hk d hd)
    · split
      · next hak => exact Memory.place_wf (hak ▸ hk) hrest
      · next h1 h2 =>
        refine Memory.wf_cons_of (fun d hd => ?_) he (ih hrest)
        rcases Memory.mem_write hd with rfl | hd
        · show k < a
          omega
        · exact hk d hd

/-- A write leaves every other address alone. -/
theorem Memory.read_write_other (m : Memory) {a x : Nat} (b : Byte) (hx : x ≠ a) :
    (m.write a b).read x = m.read x := by
  induction m with
  | nil => exact Memory.read_place_other b [] hx
  | cons d rest ih =>
    obtain ⟨k, e⟩ := d
    rw [Memory.write]
    split
    · exact Memory.read_place_other b _ hx
    · split
      · next hak =>
        rw [Memory.read_place_other b _ hx, Memory.read_cons, if_neg (hak ▸ Ne.symm hx)]
      · rw [Memory.read_cons, Memory.read_cons, ih]

/-- A read after a write to the same address gives the byte written. -/
theorem Memory.read_write_same {m : Memory} (h : m.wf) (a : Nat) (b : Byte) :
    (m.write a b).read a = b := by
  induction m with
  | nil => exact Memory.read_place_same b (by simp)
  | cons d rest ih =>
    obtain ⟨k, e⟩ := d
    obtain ⟨hk, -, hrest⟩ := Memory.wf_cons h
    rw [Memory.write]
    split
    · next hak =>
      refine Memory.read_place_same b fun d hd => ?_
      rcases List.mem_cons.1 hd with rfl | hd
      · exact hak
      · exact Nat.lt_trans hak (hk d hd)
    · split
      · next hak => exact Memory.read_place_same b (hak ▸ hk)
      · next h2 => rw [Memory.read_cons, if_neg (Ne.symm h2), ih hrest]

/-- Equal reads of canonical memories mean equal memories. -/
theorem Memory.ext_of_wf {m m' : Memory} (h : m.wf) (h' : m'.wf)
    (heq : ∀ a, m.read a = m'.read a) : m = m' := by
  induction m generalizing m' with
  | nil =>
    cases m' with
    | nil => rfl
    | cons d rest =>
      have := heq d.1
      rw [Memory.read_nil, Memory.read, if_pos rfl] at this
      exact absurd this.symm (h'.2 d List.mem_cons_self)
  | cons d rest ih =>
    obtain ⟨k, e⟩ := d
    obtain ⟨hk, he, hrest⟩ := Memory.wf_cons h
    cases m' with
    | nil =>
      have := heq k
      rw [Memory.read_nil, Memory.read, if_pos rfl] at this
      exact absurd this he
    | cons d' rest' =>
      obtain ⟨k', e'⟩ := d'
      obtain ⟨hk', he', hrest'⟩ := Memory.wf_cons h'
      have hkk : k = k' := by
        rcases Nat.lt_trichotomy k k' with hlt | heq' | hlt
        · have := heq k
          rw [Memory.read_cons, if_pos rfl,
            Memory.read_of_forall_ne ((k', e') :: rest') k (by
              intro c hc
              rcases List.mem_cons.1 hc with rfl | hc
              · exact Nat.ne_of_gt hlt
              · exact Nat.ne_of_gt (Nat.lt_trans hlt (hk' c hc)))] at this
          exact absurd this he
        · exact heq'
        · have := heq k'
          rw [Memory.read_cons k' e', if_pos rfl,
            Memory.read_of_forall_ne ((k, e) :: rest) k' (by
              intro c hc
              rcases List.mem_cons.1 hc with rfl | hc
              · exact Nat.ne_of_gt hlt
              · exact Nat.ne_of_gt (Nat.lt_trans hlt (hk c hc)))] at this
          exact absurd this.symm he'
      subst hkk
      have hee : e = e' := by
        have := heq k
        rwa [Memory.read_cons, if_pos rfl, Memory.read_cons, if_pos rfl] at this
      subst hee
      congr 1
      refine ih hrest hrest' fun a => ?_
      by_cases hak : k = a
      · subst hak
        rw [Memory.read_of_forall_ne rest k fun c hc => Nat.ne_of_gt (hk c hc),
          Memory.read_of_forall_ne rest' k fun c hc => Nat.ne_of_gt (hk' c hc)]
      · have := heq a
        rwa [Memory.read_cons, if_neg hak, Memory.read_cons, if_neg hak] at this

/-! ### Strings of bytes -/

@[simp] theorem Memory.length_readBytes (m : Memory) (a n : Nat) : (m.readBytes a n).length = n := by
  simp [Memory.readBytes]

theorem Memory.getElem_readBytes (m : Memory) (a n i : Nat) (h : i < (m.readBytes a n).length) :
    (m.readBytes a n)[i] = m.read (a + i) := by
  simp [Memory.readBytes]

theorem Memory.readBytes_eq_of_read_eq {m m' : Memory} {a n : Nat}
    (h : ∀ i < n, m.read (a + i) = m'.read (a + i)) : m.readBytes a n = m'.readBytes a n :=
  List.map_congr_left fun i hi => h i (List.mem_range.1 hi)

theorem Memory.readBytes_add (m : Memory) (a n k : Nat) :
    m.readBytes a (n + k) = m.readBytes a n ++ m.readBytes (a + n) k := by
  simp [Memory.readBytes, List.range_add, Nat.add_assoc]

theorem Memory.writeBytes_wf {m : Memory} (h : m.wf) (a : Nat) (bs : List Byte) :
    (m.writeBytes a bs).wf := by
  induction bs generalizing m a with
  | nil => exact h
  | cons b bs ih => exact ih (Memory.write_wf h a b) (a + 1)

theorem Memory.writeCells_wf {m : Memory} (h : m.wf) (cs : List Host.Cell) :
    (m.writeCells cs).wf := by
  induction cs generalizing m with
  | nil => exact h
  | cons c cs ih => exact ih (Memory.write_wf h c.1 c.2)

/-- Every cell after a string is written was listed before or lies under the string. -/
theorem Memory.mem_writeBytes {m : Memory} {a : Nat} {bs : List Byte} {c : Host.Cell}
    (h : c ∈ m.writeBytes a bs) : c ∈ m ∨ (a ≤ c.1 ∧ c.1 < a + bs.length) := by
  induction bs generalizing m a with
  | nil => exact .inl h
  | cons b bs ih =>
    rcases ih h with h | h
    · rcases Memory.mem_write h with rfl | h
      · exact .inr ⟨Nat.le_refl _, by simp⟩
      · exact .inl h
    · refine .inr ⟨by omega, ?_⟩
      simp only [List.length_cons]
      omega

theorem Memory.mem_writeCells {m : Memory} {cs : List Host.Cell} {c : Host.Cell}
    (h : c ∈ m.writeCells cs) : c ∈ m ∨ c ∈ cs := by
  induction cs generalizing m with
  | nil => exact .inl h
  | cons d cs ih =>
    obtain ⟨a, b⟩ := d
    rcases ih h with h | h
    · rcases Memory.mem_write h with rfl | h
      · exact .inr List.mem_cons_self
      · exact .inl h
    · exact .inr (List.mem_cons_of_mem _ h)

/-- Outside the bytes written, every address reads as before. -/
theorem Memory.read_writeBytes_outside (m : Memory) {a x : Nat} (bs : List Byte)
    (hx : x < a ∨ a + bs.length ≤ x) : (m.writeBytes a bs).read x = m.read x := by
  induction bs generalizing m a with
  | nil => rfl
  | cons b bs ih =>
    simp only [List.length_cons] at hx
    rw [Memory.writeBytes, ih _ (by omega), Memory.read_write_other _ _ (by omega)]

/-- The bytes written read back. -/
theorem Memory.read_writeBytes_inside {m : Memory} (h : m.wf) (a : Nat) (bs : List Byte) (i : Nat)
    (hi : i < bs.length) : (m.writeBytes a bs).read (a + i) = bs[i] := by
  induction bs generalizing m a i with
  | nil => exact absurd hi (by simp)
  | cons b bs ih =>
    rw [Memory.writeBytes]
    cases i with
    | zero =>
      rw [Memory.read_writeBytes_outside _ _ (by omega)]
      exact Memory.read_write_same h a b
    | succ i =>
      have hi' : i < bs.length := by simpa using hi
      rw [show a + (i + 1) = a + 1 + i by omega, ih (Memory.write_wf h a b) (a + 1) i hi']
      rfl

/-- A whole string reads back. -/
theorem Memory.readBytes_writeBytes_same {m : Memory} (h : m.wf) (a : Nat) (bs : List Byte) :
    (m.writeBytes a bs).readBytes a bs.length = bs := by
  refine List.ext_getElem (by simp) fun i h1 h2 => ?_
  rw [Memory.getElem_readBytes, Memory.read_writeBytes_inside h a bs i h2]

/-- A string that does not overlap the bytes written reads as before. -/
theorem Memory.readBytes_writeBytes_disjoint (m : Memory) {a x n : Nat} (bs : List Byte)
    (hx : x + n ≤ a ∨ a + bs.length ≤ x) : (m.writeBytes a bs).readBytes x n = m.readBytes x n :=
  Memory.readBytes_eq_of_read_eq fun i hi => Memory.read_writeBytes_outside m bs (by omega)

/-! ### Buffers -/

@[simp] theorem State.length_bufBytes (s : State) (b : Buf) (i n : Nat) :
    (s.bufBytes b i n).length = n := by
  simp [State.bufBytes]

theorem State.getElem_bufBytes (s : State) (b : Buf) (i n j : Nat)
    (h : j < (s.bufBytes b i n).length) : (s.bufBytes b i n)[j] = s.bufByte b (i + j) := by
  simp [State.bufBytes, State.bufByte, Memory.getElem_readBytes, Nat.add_assoc]

/-- A memory without cells reads everywhere as unlisted, and State.reset's memory is canonical. -/
theorem State.reset_mem_wf : State.reset.mem.wf := Memory.wf_nil

end Sys2Proof.Machine
end

