-- ==== Sys2Proof/Laws/Bits.lean ====
section
/-! SUPPORT. Laws of bit placement, bus values and samples. -/

namespace Sys2Proof.Machine

theorem getLsbD_foldl_place (w : Nat) (f : Nat → Bool) (n : Nat) (hn : n ≤ w) (p : Nat) :
    ((List.range n).foldl (fun acc q => acc ||| (if f q then BitVec.twoPow w q else 0)) 0).getLsbD p =
      (decide (p < n) && f p) := by
  induction n with
  | zero => simp
  | succ n ih =>
    rw [List.range_succ, List.foldl_append, List.foldl_cons, List.foldl_nil, BitVec.getLsbD_or,
      ih (by omega)]
    by_cases hp : p = n
    · subst hp
      cases h : f p <;> simp [BitVec.getLsbD_twoPow]
      omega
    · cases h : f n
      · simp [show (p < n) = (p ≤ n) from propext ⟨fun _ => by omega, fun _ => by omega⟩]
      · simp [BitVec.getLsbD_twoPow, Ne.symm hp,
          show (p < n) = (p ≤ n) from propext ⟨fun _ => by omega, fun _ => by omega⟩]

/-- Bit `p` of `ofBits w f` is `f p`. -/
theorem getLsbD_ofBits (w : Nat) (f : Nat → Bool) (p : Nat) :
    (ofBits w f).getLsbD p = (decide (p < w) && f p) :=
  getLsbD_foldl_place w f w (Nat.le_refl w) p

/-- The two bytes of a sample put together are the sample (rule R73). -/
theorem sampleBytes_append (v : Sample) : (v.extractLsb' 8 8 ++ v.extractLsb' 0 8 : Sample) = v := by
  apply BitVec.eq_of_getLsbD_eq
  intro i hi
  rw [BitVec.getLsbD_append]
  by_cases h : i < 8
  · simp [h]
  · simp [h, show i - 8 < 8 by omega, show 8 + (i - 8) = i by omega]

@[simp] theorem length_flatMap_sampleBytes (vs : List Sample) :
    (vs.flatMap sampleBytes).length = 2 * vs.length := by
  induction vs with
  | nil => rfl
  | cons v vs ih =>
    rw [List.flatMap_cons, List.length_append, ih, List.length_cons]
    simp only [sampleBytes, List.length_cons, List.length_nil]
    omega

theorem getElem_flatMap_sampleBytes (vs : List Sample) (i : Nat) (h : i < vs.length) :
    ∃ (h0 : 2 * i < (vs.flatMap sampleBytes).length)
      (h1 : 2 * i + 1 < (vs.flatMap sampleBytes).length),
      (vs.flatMap sampleBytes)[2 * i] = vs[i].extractLsb' 8 8 ∧
      (vs.flatMap sampleBytes)[2 * i + 1] = vs[i].extractLsb' 0 8 := by
  induction vs generalizing i with
  | nil => simp at h
  | cons v vs ih =>
    have hl := length_flatMap_sampleBytes (v :: vs)
    refine ⟨by omega, by omega, ?_⟩
    cases i with
    | zero => exact ⟨rfl, rfl⟩
    | succ i =>
      obtain ⟨h0, h1, e0, e1⟩ := ih i (by simpa using h)
      exact ⟨e0, e1⟩

/-- Samples written read back. -/
theorem State.sample_writeSamples {s : State} (h : s.mem.wf) (vs : List Sample) (i : Nat)
    (hi : i < vs.length) : (s.writeSamples vs).sample i = vs[i] := by
  obtain ⟨h0, h1, e0, e1⟩ := getElem_flatMap_sampleBytes vs i hi
  have b0 : (s.writeSamples vs).bufByte .smp (2 * i) = vs[i].extractLsb' 8 8 := by
    rw [← e0]
    exact Memory.read_writeBytes_inside h s.cfg.smpBase _ (2 * i) h0
  have b1 : (s.writeSamples vs).bufByte .smp (2 * i + 1) = vs[i].extractLsb' 0 8 := by
    rw [← e1]
    exact Memory.read_writeBytes_inside h s.cfg.smpBase _ (2 * i + 1) h1
  rw [State.sample, b0, b1]
  exact sampleBytes_append vs[i]

/-- Outside the samples written, every address reads as before. -/
theorem State.read_writeSamples_outside (s : State) (vs : List Sample) {a : Nat}
    (ha : a < s.cfg.smpBase ∨ s.cfg.smpBase + 2 * vs.length ≤ a) :
    (s.writeSamples vs).mem.read a = s.mem.read a :=
  Memory.read_writeBytes_outside s.mem _ (by
    rw [length_flatMap_sampleBytes]
    exact ha)

/-- One bit of a sample (rule R73). -/
theorem State.getLsbD_sample (s : State) (i j : Nat) :
    (s.sample i).getLsbD j =
      if j < 8 then (s.bufByte .smp (2 * i + 1)).getLsbD j
      else (s.bufByte .smp (2 * i)).getLsbD (j - 8) := by
  rw [State.sample]
  exact BitVec.getLsbD_append

/-- The samples determine the bytes of SMP. -/
theorem State.bufByte_eq_of_sample_eq {s t : State} {i : Nat} (h : s.sample i = t.sample i) :
    s.bufByte .smp (2 * i) = t.bufByte .smp (2 * i) ∧
      s.bufByte .smp (2 * i + 1) = t.bufByte .smp (2 * i + 1) := by
  constructor
  · apply BitVec.eq_of_getLsbD_eq
    intro j hj
    have := congrArg (fun v => v.getLsbD (8 + j)) h
    simpa only [State.getLsbD_sample, show ¬ 8 + j < 8 by omega, if_false,
      show 8 + j - 8 = j by omega] using this
  · apply BitVec.eq_of_getLsbD_eq
    intro j hj
    have := congrArg (fun v => v.getLsbD j) h
    simpa only [State.getLsbD_sample, hj, if_true] using this

@[simp] theorem State.length_samples (s : State) (n : Nat) : (s.samples n).length = n := by
  simp [State.samples]

@[simp] theorem length_beBytes (n : Nat) (v : Word) : (beBytes n v).length = n := by
  simp [beBytes]

theorem getElem_beBytes (n : Nat) (v : Word) (j : Nat) (h : j < (beBytes n v).length) :
    (beBytes n v)[j].toNat = v.toNat / 256 ^ (n - 1 - j) % 256 := by
  have h256 : (256 : Nat) ^ (n - 1 - j) = 2 ^ (8 * (n - 1 - j)) := by
    rw [Nat.pow_mul]
  simp only [beBytes, List.getElem_map, List.getElem_range, BitVec.toNat_setWidth,
    BitVec.toNat_ushiftRight, Nat.shiftRight_eq_div_pow, h256]

theorem toNat_foldl_bytes (bs : List Byte) (acc : Word)
    (h : acc.toNat * 256 ^ bs.length + 256 ^ bs.length ≤ 2 ^ 32) :
    (bs.foldl (fun (acc : Word) b => (acc <<< 8) ||| b.setWidth 32) acc).toNat =
      bs.foldl (fun a b => a * 256 + b.toNat) acc.toNat := by
  induction bs generalizing acc with
  | nil => rfl
  | cons b bs ih =>
    rw [List.length_cons, Nat.pow_succ] at h
    have hp : 0 < 256 ^ bs.length := by positivity
    have hb := b.isLt
    have e : ((acc <<< 8) ||| b.setWidth 32).toNat = acc.toNat * 256 + b.toNat := by
      have hlt : acc.toNat * 256 + 256 ≤ 2 ^ 32 := by nlinarith
      have hor : ((acc <<< 8) ||| b.setWidth 32) = (acc <<< 8) + b.setWidth 32 := by
        rw [BitVec.add_eq_or_of_and_eq_zero]
        apply BitVec.eq_of_getLsbD_eq
        intro i _
        by_cases h8 : i < 8
        · simp [h8]
        · simp [BitVec.getLsbD_of_ge b i (by omega)]
      rw [hor, BitVec.toNat_add, BitVec.toNat_shiftLeft, Nat.shiftLeft_eq, BitVec.toNat_setWidth]
      omega
    rw [List.foldl_cons, List.foldl_cons, ih, e]
    rw [e]
    nlinarith

/-- The value of at most four bytes, the first the most significant (rule R72). -/
theorem toNat_beValue (bs : List Byte) (h : bs.length ≤ 4) :
    (beValue bs).toNat = bs.foldl (fun a b => a * 256 + b.toNat) 0 := by
  refine (toNat_foldl_bytes bs 0 ?_).trans rfl
  have : 256 ^ bs.length ≤ 256 ^ 4 := Nat.pow_le_pow_right (by decide) h
  simpa using this

end Sys2Proof.Machine
end

