-- ==== Sys2Proof/Laws/Bus.lean ====
section
/-! SUPPORT. What each register and buffer address reaches, and what each access does on each of its paths. -/

namespace Sys2Proof.Machine

theorem Reg.offset_spec (r : Reg) :
    r.offset < 256 ∧ r.offset % 4 = 0 ∧ Reg.ofOffset r.offset = some r := by
  cases r <;> decide

/-- The register at an offset is the one that has the offset. -/
theorem Reg.ofOffset_eq_some {o : Nat} {r : Reg} (h : Reg.ofOffset o = some r) : r.offset = o := by
  have := List.find?_some h
  simpa using this

/-- The register region starts word-aligned (rule R10). -/
theorem regBase_mod {c : Config} (hc : c.Legal) : c.regBase % 4 = 0 :=
  hc.2.2.2.2.2.2.1 _ List.mem_cons_self

/-- A whole-word access at a register's offset reaches that register (rules R54, R77). -/
theorem target_reg {c : Config} (hc : c.Legal) (r : Reg) :
    target c (c.regBase + r.offset) 4 = some (.reg r) := by
  have hb := regBase_mod hc
  obtain ⟨h1, h2, h3⟩ := r.offset_spec
  unfold target
  rw [if_pos (by simp only [inRegRegion, regRegionBytes, decide_eq_true_eq]; omega),
    if_pos ⟨rfl, by omega⟩, Nat.add_sub_cancel_left, h3]
  rfl

/-- The buffer found at an address is one whose region holds the address. -/
theorem bufAt_eq_some {c : Config} {a : Nat} {b : Buf} (h : bufAt c a = some b) :
    c.base b ≤ a ∧ a < c.base b + c.size b := by
  have := List.find?_some h
  simpa using this

/-- The six regions do not overlap (rule R10). -/
theorem regions_disjoint {c : Config} (hc : c.Legal) :
    (∀ b, c.regBase + 256 ≤ c.base b ∨ c.base b + c.size b ≤ c.regBase) ∧
    ∀ b b', b ≠ b' → c.base b + c.size b ≤ c.base b' ∨ c.base b' + c.size b' ≤ c.base b := by
  have hp := hc.2.2.2.2.2.2.2
  simp only [Config.regions, Buf.all, List.map_cons, List.map_nil, List.pairwise_cons,
    List.mem_cons, List.not_mem_nil, or_false, forall_eq_or_imp, forall_eq] at hp
  obtain ⟨⟨h1, h2, h3, h4, h5⟩, ⟨h6, h7, h8, h9⟩, ⟨h10, h11, h12⟩, ⟨h13, h14⟩, h15, -⟩ := hp
  refine ⟨fun b => by cases b <;> assumption, fun b b' hne => ?_⟩
  cases b <;> cases b' <;> first
    | exact absurd rfl hne
    | assumption
    | (apply Or.symm; assumption)

/-- The buffer at an address is the one whose region holds it. -/
theorem bufAt_of_mem {c : Config} (hc : c.Legal) {a : Nat} {b : Buf}
    (h : c.base b ≤ a ∧ a < c.base b + c.size b) : bufAt c a = some b := by
  cases hb : bufAt c a with
  | none =>
    have := List.find?_eq_none.1 hb b (by cases b <;> decide)
    exact absurd h (by simpa using this)
  | some b' =>
    by_cases he : b' = b
    · rw [he]
    · have h' := bufAt_eq_some hb
      have := (regions_disjoint hc).2 b' b he
      omega

/-- No buffer address is in the register region. -/
theorem inRegRegion_of_buf {c : Config} (hc : c.Legal) {a : Nat} {b : Buf}
    (h : c.base b ≤ a ∧ a < c.base b + c.size b) : inRegRegion c a = false := by
  have := (regions_disjoint hc).1 b
  simp only [inRegRegion, regRegionBytes, decide_eq_false_iff_not]
  omega

/-- An access inside a buffer, of 1, 2 or 4 bytes and aligned to its size, reaches it (rule R77). -/
theorem target_buf {c : Config} (hc : c.Legal) (b : Buf) {i n : Nat} (hn : n = 1 ∨ n = 2 ∨ n = 4)
    (ha : (c.base b + i) % n = 0) (hi : i + n ≤ c.size b) :
    target c (c.base b + i) n = some (.buf b i) := by
  have hm : c.base b ≤ c.base b + i ∧ c.base b + i < c.base b + c.size b := by omega
  unfold target
  rw [if_neg (by rw [inRegRegion_of_buf hc hm]; decide)]
  simp only [bufAt_of_mem hc hm]
  rw [if_pos ⟨hn, ha, by omega⟩, Nat.add_sub_cancel_left]

theorem State.hostRead_illegal {s : State} {addr n : Nat} (h : target s.cfg addr n = none) :
    s.hostRead addr n = s.refuseAccess .badAccess := by
  simp only [State.hostRead, h]

theorem State.hostRead_idle {s : State} {addr n : Nat} {t : Target}
    (h : target s.cfg addr n = some t) (hp : s.pending = none) :
    s.hostRead addr n = s.respond (.data (s.readTarget n t)) := by
  simp only [State.hostRead, h]
  rw [if_neg (by simp [State.busy, hp])]

theorem State.hostRead_busy {s : State} {addr n : Nat} {t : Target}
    (h : target s.cfg addr n = some t) (hp : s.pending.isSome = true) :
    s.hostRead addr n =
      if t.readableWhileBusy then s.respond (.data (s.readTarget n t))
      else s.refuseAccess .busyAccess := by
  simp only [State.hostRead, h]
  cases ht : t.readableWhileBusy <;> simp [State.busy, hp]

theorem State.hostWrite_illegal {s : State} {addr n : Nat} (v : Word)
    (h : target s.cfg addr n = none) : s.hostWrite addr n v = s.refuseAccess .badAccess := by
  simp only [State.hostWrite, h]

theorem State.hostWrite_idle {s : State} {addr n : Nat} {t : Target} (v : Word)
    (h : target s.cfg addr n = some t) (hp : s.pending = none) :
    s.hostWrite addr n v = (s.writeTarget n v t).respond .ok := by
  simp only [State.hostWrite, h]
  rw [if_neg (by simp [State.busy, hp])]

theorem State.hostWrite_busy {s : State} {addr n : Nat} {t : Target} (v : Word)
    (h : target s.cfg addr n = some t) (hp : s.pending.isSome = true) :
    s.hostWrite addr n v = s.refuseAccess .busyAccess := by
  simp only [State.hostWrite, h]
  rw [if_pos (by simpa [State.busy] using hp)]

/-- The lock ignores every word but `SRST` (rule R263). -/
theorem State.issue_locked {s : State} {w : Word} (hf : s.fault ≠ 0) (hw : w ≠ 0x00000001) :
    s.issue w = s := by
  rw [State.issue, if_pos (by simpa [State.faulted] using And.intro hf hw)]

/-- Any other word written to `CMD` is accepted (rule R256). -/
theorem State.issue_accepted {s : State} {w : Word} (h : ¬ (s.fault ≠ 0 ∧ w ≠ 0x00000001)) :
    s.issue w = s.accept w := by
  rw [State.issue, if_neg (by simpa [State.faulted] using h)]

/-- A register write changes neither the parameters nor the memory nor what the environment holds. -/
theorem State.writeReg_keeps (s : State) (v : Word) (r : Reg) :
    (s.writeReg v r).cfg = s.cfg ∧ (s.writeReg v r).script = s.script ∧
      (s.writeReg v r).mem = s.mem ∧ (s.writeReg v r).busResp = s.busResp ∧
      (s.writeReg v r).fault = s.fault := by
  cases r
  case cmd =>
    rw [State.writeReg, State.issue]
    split <;> exact ⟨rfl, rfl, rfl, rfl, rfl⟩
  case status =>
    rw [State.writeReg]
    split <;> exact ⟨rfl, rfl, rfl, rfl, rfl⟩
  all_goals exact ⟨rfl, rfl, rfl, rfl, rfl⟩

end Sys2Proof.Machine
end

