-- ==== Sys2Proof/Laws/Commands.lean ====
section
/-! SUPPORT. What each command does on each of its paths, and what every command keeps. -/

namespace Sys2Proof.Machine

theorem exec_frame_bad {s : State} (h : s.frameCfgBad = true) :
    exec .frame s = .next (s.raise .badCfg) := by
  rw [exec, execFrame, if_pos h]

theorem exec_frame_ok {s : State} (h : s.frameCfgBad = false) :
    exec .frame s = .next ({ s with
      burstCount := BitVec.ofNat 32 (ceilDiv s.pktLen.toNat s.burstSize.toNat),
      framed := true }.complete .ok) := by
  rw [exec, execFrame, if_neg (by rw [h]; decide)]

theorem exec_render_not_framed {s : State} (idx : Nat) (h : s.framed = false) :
    exec (.render idx) s = .next (s.raise .notFramed) := by
  rw [exec, execRender, if_pos (by rw [h]; rfl)]

theorem exec_render_bad_index {s : State} {idx : Nat} (h : s.framed = true)
    (hi : s.burstCount.toNat + 1 < idx) : exec (.render idx) s = .next (s.raise .badIndex) := by
  rw [exec, execRender, if_neg (by rw [h]; decide), if_pos hi]

/-- Everything a `RENDER` that completes with OK writes (rule R185). -/
theorem exec_render_ok {s : State} {idx : Nat} (h : s.framed = true)
    (hi : idx ≤ s.burstCount.toNat + 1) :
    exec (.render idx) s = .next { s with
      mem := s.mem.writeBytes s.cfg.txbufBase (s.wireBytes idx),
      crcAcc := crcFinish (s.cfg.crc32 (s.burstCovered idx)), crcFed := s.burstCovered idx,
      txLen := BitVec.ofNat 32 (overheadBytes + (s.burstHeader idx).payload),
      result := .ok, done := true, pending := none } := by
  rw [exec, execRender, if_neg (by rw [h]; decide), if_neg (Nat.not_lt.2 hi)]
  generalize s.wireBytes idx = bs
  generalize s.burstCovered idx = covered
  generalize (s.burstHeader idx).payload = n
  rfl

theorem exec_scan_bad {s : State} (h : s.rxRangeBad = true) :
    exec .scan s = .next (s.raise .badRange) := by
  rw [exec, execScan, if_pos h]

theorem exec_scan_ok {s : State} (h : s.rxRangeBad = false) :
    exec .scan s = .next (s.applyScan s.scanWindow) := by
  rw [exec, execScan, if_neg (by rw [h]; decide)]

theorem exec_rxcompact_bad {s : State} (h : s.rxRangeBad = true) :
    exec .rxcompact s = .next (s.raise .badRange) := by
  rw [exec, execRxcompact, if_pos h]

theorem exec_rxcompact_ok {s : State} (h : s.rxRangeBad = false) :
    exec .rxcompact s = .next ({ s.bufWrite .rxbuf 0
        (s.bufBytes .rxbuf s.rxPos.toNat (s.rxLen.toNat - s.rxPos.toNat)) with
      rxLen := BitVec.ofNat 32 (s.rxLen.toNat - s.rxPos.toNat),
      rxPos := 0, rxKind := .none }.complete .ok) := by
  rw [exec, execRxcompact, if_neg (by rw [h]; decide)]

/-- The four pipeline commands raise `BAD_RANGE` alike (rules R141, R151). -/
theorem exec_pipeline_bad {s : State} (k : Nat) (h : s.sampleRangeBad = true) :
    exec .grayEnc s = .next (s.raise .badRange) ∧ exec .grayDec s = .next (s.raise .badRange) ∧
      exec (.bpEnc k) s = .next (s.raise .badRange) ∧
      exec (.bpDec k) s = .next (s.raise .badRange) := by
  simp only [exec, execGrayEnc, execGrayDec, execBpEnc, execBpDec, if_pos h, and_self]

theorem exec_grayEnc_ok {s : State} (h : s.sampleRangeBad = false) :
    exec .grayEnc s = .next ((s.mapSamples grayEnc).complete .ok) := by
  rw [exec, execGrayEnc, if_neg (by rw [h]; decide)]

theorem exec_grayDec_ok {s : State} (h : s.sampleRangeBad = false) :
    exec .grayDec s = .next ((s.mapSamples grayDec).complete .ok) := by
  rw [exec, execGrayDec, if_neg (by rw [h]; decide)]

theorem exec_bpEnc_ok {s : State} (k : Nat) (h : s.sampleRangeBad = false) :
    exec (.bpEnc k) s = .next ({ s.bufWrite .pln 0 (s.planeBytes k) with
      plnLen := BitVec.ofNat 32 (s.planeLen k) }.complete .ok) := by
  rw [exec, execBpEnc, if_neg (by rw [h]; decide)]

theorem exec_bpDec_ok {s : State} (k : Nat) (h : s.sampleRangeBad = false) :
    exec (.bpDec k) s = .next ({ s.writeSamples
        ((List.range s.nsamp.toNat).map (s.decodedSample k)) with
      plnLen := BitVec.ofNat 32 (s.planeLen k) }.complete .ok) := by
  rw [exec, execBpDec, if_neg (by rw [h]; decide)]

/-- What no command changes: the parameters, the bus and what the environment holds; and a command always
ends with `DONE` set and nothing pending (rule R260). -/
theorem exec_keeps (i : Instr) (s : State) :
    ∃ t, exec i s = .next t ∧ t.cfg = s.cfg ∧ t.script = s.script ∧ t.busResp = s.busResp ∧
      t.pending = none ∧ t.done = true := by
  cases i with
  | nop => exact ⟨_, rfl, rfl, rfl, rfl, rfl, rfl⟩
  | srst => exact ⟨_, rfl, rfl, rfl, rfl, rfl, rfl⟩
  | crcInit => exact ⟨_, rfl, rfl, rfl, rfl, rfl, rfl⟩
  | frame =>
    cases h : s.frameCfgBad with
    | true => exact ⟨_, exec_frame_bad h, rfl, rfl, rfl, rfl, rfl⟩
    | false => exact ⟨_, exec_frame_ok h, rfl, rfl, rfl, rfl, rfl⟩
  | render idx =>
    cases h : s.framed with
    | false => exact ⟨_, exec_render_not_framed idx h, rfl, rfl, rfl, rfl, rfl⟩
    | true =>
      rcases Nat.lt_or_ge (s.burstCount.toNat + 1) idx with hi | hi
      · exact ⟨_, exec_render_bad_index h hi, rfl, rfl, rfl, rfl, rfl⟩
      · exact ⟨_, exec_render_ok h hi, rfl, rfl, rfl, rfl, rfl⟩
  | scan =>
    cases h : s.rxRangeBad with
    | true => exact ⟨_, exec_scan_bad h, rfl, rfl, rfl, rfl, rfl⟩
    | false =>
      refine ⟨_, exec_scan_ok h, ?_⟩
      cases s.scanWindow <;> exact ⟨rfl, rfl, rfl, rfl, rfl⟩
  | rxcompact =>
    cases h : s.rxRangeBad with
    | true => exact ⟨_, exec_rxcompact_bad h, rfl, rfl, rfl, rfl, rfl⟩
    | false => exact ⟨_, exec_rxcompact_ok h, rfl, rfl, rfl, rfl, rfl⟩
  | grayEnc =>
    cases h : s.sampleRangeBad with
    | true => exact ⟨_, (exec_pipeline_bad 0 h).1, rfl, rfl, rfl, rfl, rfl⟩
    | false => exact ⟨_, exec_grayEnc_ok h, rfl, rfl, rfl, rfl, rfl⟩
  | grayDec =>
    cases h : s.sampleRangeBad with
    | true => exact ⟨_, (exec_pipeline_bad 0 h).2.1, rfl, rfl, rfl, rfl, rfl⟩
    | false => exact ⟨_, exec_grayDec_ok h, rfl, rfl, rfl, rfl, rfl⟩
  | bpEnc k =>
    cases h : s.sampleRangeBad with
    | true => exact ⟨_, (exec_pipeline_bad k h).2.2.1, rfl, rfl, rfl, rfl, rfl⟩
    | false => exact ⟨_, exec_bpEnc_ok k h, rfl, rfl, rfl, rfl, rfl⟩
  | bpDec k =>
    cases h : s.sampleRangeBad with
    | true => exact ⟨_, (exec_pipeline_bad k h).2.2.2, rfl, rfl, rfl, rfl, rfl⟩
    | false => exact ⟨_, exec_bpDec_ok k h, rfl, rfl, rfl, rfl, rfl⟩

/-- A command keeps every byte of the buffers, or it is one of the six that write a buffer and completes with
OK (rules R81, R262). -/
theorem exec_mem_cases (i : Instr) {s t : State} (h : exec i s = .next t) :
    t.mem = s.mem ∨ t.result = .ok ∧
      ((∃ idx, i = .render idx) ∨ i = .rxcompact ∨ i = .grayEnc ∨ i = .grayDec ∨
        (∃ k, i = .bpEnc k) ∨ ∃ k, i = .bpDec k) := by
  cases i with
  | nop => cases h; exact .inl rfl
  | srst => cases h; exact .inl rfl
  | crcInit => cases h; exact .inl rfl
  | frame =>
    cases hb : s.frameCfgBad with
    | true => rw [exec_frame_bad hb] at h; cases h; exact .inl rfl
    | false => rw [exec_frame_ok hb] at h; cases h; exact .inl rfl
  | render idx =>
    cases hb : s.framed with
    | false => rw [exec_render_not_framed idx hb] at h; cases h; exact .inl rfl
    | true =>
      rcases Nat.lt_or_ge (s.burstCount.toNat + 1) idx with hi | hi
      · rw [exec_render_bad_index hb hi] at h; cases h; exact .inl rfl
      · rw [exec_render_ok hb hi] at h
        generalize s.wireBytes idx = bs at h
        generalize s.burstCovered idx = covered at h
        cases h
        exact .inr ⟨rfl, .inl ⟨idx, rfl⟩⟩
  | scan =>
    cases hb : s.rxRangeBad with
    | true => rw [exec_scan_bad hb] at h; cases h; exact .inl rfl
    | false => rw [exec_scan_ok hb] at h; cases h; cases s.scanWindow <;> exact .inl rfl
  | rxcompact =>
    cases hb : s.rxRangeBad with
    | true => rw [exec_rxcompact_bad hb] at h; cases h; exact .inl rfl
    | false => rw [exec_rxcompact_ok hb] at h; cases h; exact .inr ⟨rfl, by simp⟩
  | grayEnc =>
    cases hb : s.sampleRangeBad with
    | true => rw [(exec_pipeline_bad 0 hb).1] at h; cases h; exact .inl rfl
    | false => rw [exec_grayEnc_ok hb] at h; cases h; exact .inr ⟨rfl, by simp⟩
  | grayDec =>
    cases hb : s.sampleRangeBad with
    | true => rw [(exec_pipeline_bad 0 hb).2.1] at h; cases h; exact .inl rfl
    | false => rw [exec_grayDec_ok hb] at h; cases h; exact .inr ⟨rfl, by simp⟩
  | bpEnc k =>
    cases hb : s.sampleRangeBad with
    | true => rw [(exec_pipeline_bad k hb).2.2.1] at h; cases h; exact .inl rfl
    | false => rw [exec_bpEnc_ok k hb] at h; cases h; exact .inr ⟨rfl, by simp⟩
  | bpDec k =>
    cases hb : s.sampleRangeBad with
    | true => rw [(exec_pipeline_bad k hb).2.2.2] at h; cases h; exact .inl rfl
    | false => rw [exec_bpDec_ok k hb] at h; cases h; exact .inr ⟨rfl, by simp⟩

end Sys2Proof.Machine
end

