-- ==== Sys2Proof/Laws/Crc.lean ====
section
/-! SUPPORT. Laws of the CRC engine: streaming, and that no step loses information, and what follows for a
single flipped bit. -/

namespace Sys2Proof.Machine

/-- Feeding a concatenation continues the fold (rule R168(a)). -/
theorem crcFeed_append (acc : Word) (xs ys : List Byte) :
    crcFeed acc (xs ++ ys) = crcFeed (crcFeed acc xs) ys := by
  simp [crcFeed]

theorem crcFinish_inj {a b : Word} (h : crcFinish a = crcFinish b) : a = b :=
  (BitVec.xor_left_inj (0xFFFFFFFF : Word)).1 h

/-- Bit 31 after a round tells which branch was taken. -/
theorem getLsbD_crcRound_31 (acc : Word) :
    (crcRound acc).getLsbD 31 = acc.getLsbD 0 := by
  unfold crcRound
  cases h : acc.getLsbD 0
  · rw [if_neg (by simp), BitVec.getLsbD_ushiftRight, BitVec.getLsbD_of_ge _ _ (by omega)]
  · rw [if_pos rfl, BitVec.getLsbD_xor, BitVec.getLsbD_ushiftRight,
      BitVec.getLsbD_of_ge _ _ (by omega)]
    rfl

/-- A round is injective in the accumulator. -/
theorem crcRound_inj {a b : Word}
    (h : crcRound a = crcRound b) : a = b := by
  have h0 : a.getLsbD 0 = b.getLsbD 0 := by
    rw [← getLsbD_crcRound_31 a, ← getLsbD_crcRound_31 b, h]
  have hs : a >>> 1 = b >>> 1 := by
    unfold crcRound at h
    rw [h0] at h
    split at h
    · exact (BitVec.xor_left_inj (0xEDB88320 : Word)).1 h
    · exact h
  apply BitVec.eq_of_getLsbD_eq
  intro i hi
  cases i with
  | zero => exact h0
  | succ i =>
    have := congrArg (fun v => v.getLsbD i) hs
    simpa only [BitVec.getLsbD_ushiftRight, Nat.add_comm] using this

theorem crcRounds_inj (n : Nat) {a b : Word}
    (h : crcRounds n a = crcRounds n b) : a = b := by
  induction n generalizing a b with
  | zero => exact h
  | succ n ih => exact crcRound_inj (ih h)

/-- `crc_step` is injective in the accumulator. -/
theorem crcStep_inj_acc {a b : Word} {x : Byte}
    (h : crcStep a x = crcStep b x) : a = b :=
  (BitVec.xor_left_inj (x.setWidth 32)).1 (crcRounds_inj 8 h)

/-- `crc_step` is injective in the byte. -/
theorem crcStep_inj_byte {a : Word} {x y : Byte}
    (h : crcStep a x = crcStep a y) : x = y := by
  have hxy : x.setWidth 32 = y.setWidth 32 := (BitVec.xor_right_inj a).1 (crcRounds_inj 8 h)
  apply BitVec.eq_of_getLsbD_eq
  intro i hi
  have := congrArg (fun v => v.getLsbD i) hxy
  simpa only [BitVec.getLsbD_setWidth, show i < 32 by omega, decide_true, Bool.true_and] using this

/-- Feeding one string from different accumulators gives different accumulators. -/
theorem crcFeed_inj_acc (bs : List Byte) {a b : Word}
    (h : crcFeed a bs = crcFeed b bs) : a = b := by
  induction bs generalizing a b with
  | nil => exact h
  | cons x bs ih => exact crcStep_inj_acc (ih h)

@[simp] theorem crcFinish_crcFinish (acc : Word) : crcFinish (crcFinish acc) = acc := by
  rw [crcFinish, crcFinish, BitVec.xor_assoc, BitVec.xor_self, BitVec.xor_zero]

/-- The accumulator of the decided CRC is the fold of `crc_step` (rules R166, R167). -/
theorem crcFinish_crc32 (bs : List Byte) : crcFinish (crc32 bs) = crcFeed crcStart bs :=
  crcFinish_crcFinish _

/-- The decided CRC of strings that differ in one byte (rule R168(b)). -/
theorem crc32_ne_of_byte {x y : Byte} (hxy : x ≠ y) (pre post : List Byte) :
    crc32 (pre ++ x :: post) ≠ crc32 (pre ++ y :: post) := by
  intro h
  have h1 := crcFinish_inj h
  rw [crcFeed_append, crcFeed_append] at h1
  exact hxy (crcStep_inj_byte (crcFeed_inj_acc post (a := crcStep _ _) h1))

theorem xor_twoPow_ne (b : Byte) {j : Nat} (hj : j < 8) : b ^^^ BitVec.twoPow 8 j ≠ b := by
  intro h
  have := congrArg (fun v => v.getLsbD j) h
  simp [hj] at this

/-- The decided function meets the constraint on `CRC32FN` (rules R10, R168(b)). -/
theorem Crc32Fn.decided_flipSensitive : Crc32Fn.FlipSensitive .decided :=
  fun pre post b _ hj => crc32_ne_of_byte (xor_twoPow_ne b hj) pre post

/-- The decided defaults meet the constraints of rule R10. -/
theorem Config.default_legal : Config.default.Legal :=
  ⟨by decide, by decide, by decide, by decide, by decide, Crc32Fn.decided_flipSensitive, by decide,
    by decide⟩

@[simp] theorem Config.crc32_decided {c : Config} (h : c.crc32fn = .decided) (bs : List Byte) :
    c.crc32 bs = crc32 bs := by
  rw [Config.crc32, h, Crc32Fn.value]

/-- One byte more at the port: the accumulator stands for the longer string (rules R29, R170). -/
theorem State.nextCrcAcc_eq {s : State} (h : s.CrcCoherent) (b : Byte) :
    s.nextCrcAcc b = crcFinish (s.cfg.crc32 (s.crcFed ++ [b])) := by
  unfold State.nextCrcAcc
  cases hf : s.cfg.crc32fn with
  | other n => simp only [Config.crc32, hf]
  | decided =>
    have ha : s.crcAcc = crcFeed crcStart s.crcFed := by
      rcases eq_or_ne s.crcFed [] with he | he
      · rw [h.1 he, he]; rfl
      · rw [← crcFinish_crc32, ← Config.crc32_decided hf, ← h.2 he]
        exact (crcFinish_crcFinish _).symm
    rw [Config.crc32_decided hf, crcFinish_crc32, crcFeed_append, ← ha]
    rfl

/-- A command's own CRC leaves an accumulator that stands for the bytes it covered (rule R63). -/
theorem State.setCrc_coherent (s : State) {bs : List Byte} (h : bs ≠ []) : (s.setCrc bs).CrcCoherent :=
  ⟨fun he => absurd he h, fun _ => crcFinish_crcFinish _⟩

theorem State.feedCrc_coherent {s : State} (h : s.CrcCoherent) (w : Word) :
    (s.feedCrc w).CrcCoherent := by
  refine ⟨fun he => ?_, fun _ => ?_⟩
  · simp at he
  · show (s.nextCrcAcc _) ^^^ 0xFFFFFFFF = _
    rw [State.nextCrcAcc_eq h]
    exact crcFinish_crcFinish _

end Sys2Proof.Machine
end

