-- ==== Sys2Proof/Laws/Decode.lean ====
section
/-! SUPPORT. Laws of the command word: its fields, the formats, what a decoded word was. -/

namespace Sys2Proof

theorem opField_packWord (op md arg : Nat) : opField (packWord op md arg) = op % 256 := by
  simp only [opField, packWord]
  rw [BitVec.extractLsb'_append_eq_right, BitVec.toNat_ofNat]

theorem modField_packWord (op md arg : Nat) : modField (packWord op md arg) = md % 256 := by
  have h : (packWord op md arg).extractLsb' 8 8 = BitVec.ofNat 8 md := by
    simp only [packWord]
    apply BitVec.eq_of_getLsbD_eq
    intro i hi
    rw [BitVec.getLsbD_extractLsb', BitVec.getLsbD_append, BitVec.getLsbD_append]
    simp [hi, show ¬ (8 + i < 8) by omega]
  rw [modField, h, BitVec.toNat_ofNat]

theorem argField_packWord (op md arg : Nat) : argField (packWord op md arg) = arg % 65536 := by
  have h : (packWord op md arg).extractLsb' 16 16 = BitVec.ofNat 16 arg := by
    simp only [packWord]
    apply BitVec.eq_of_getLsbD_eq
    intro i hi
    rw [BitVec.getLsbD_extractLsb', BitVec.getLsbD_append, BitVec.getLsbD_append]
    simp [hi, show ¬ (16 + i < 8) by omega, show ¬ (16 + i - 8 < 8) by omega,
      show 16 + i - 8 - 8 = i by omega]
  rw [argField, h, BitVec.toNat_ofNat]

/-- A word is put together again from its fields. -/
theorem packWord_fields (w : Word) : packWord (opField w) (modField w) (argField w) = w := by
  simp only [packWord, opField, modField, argField, BitVec.ofNat_toNat, BitVec.setWidth_eq]
  apply BitVec.eq_of_getLsbD_eq
  intro i hi
  rw [BitVec.getLsbD_append, BitVec.getLsbD_append]
  by_cases h1 : i < 8
  · simp [h1]
  · by_cases h2 : i - 8 < 8
    · simp [h1, h2, show 8 + (i - 8) = i by omega]
    · simp [h1, h2, show i - 8 - 8 < 16 by omega, show 16 + (i - 8 - 8) = i by omega]

theorem opField_lt (w : Word) : opField w < 256 := (w.extractLsb' 0 8).isLt

theorem modField_lt (w : Word) : modField w < 256 := (w.extractLsb' 8 8).isLt

theorem argField_lt (w : Word) : argField w < 65536 := (w.extractLsb' 16 16).isLt

theorem decode_packWord (op md arg : Nat) :
    decode (packWord op md arg) = decodeFields (op % 256) (md % 256) (arg % 65536) := by
  rw [decode, opField_packWord, modField_packWord, argField_packWord]

/-- Format N answers a command only for zero fields. -/
theorem formatN_eq_command {i j : Instr} {md arg : Nat} (h : formatN i md arg = .command j) :
    md = 0 ∧ arg = 0 ∧ j = i := by
  unfold formatN at h
  split at h
  · cases h
  · split at h
    · cases h
    · cases h
      exact ⟨by omega, by omega, rfl⟩

/-- Format I answers a command only for a zero modifier. -/
theorem formatI_eq_command {f : Nat → Instr} {j : Instr} {md arg : Nat}
    (h : formatI f md arg = .command j) : md = 0 ∧ j = f arg := by
  unfold formatI at h
  split at h
  · cases h
  · cases h
    exact ⟨by omega, rfl⟩

/-- Format K answers a command only for `k` of three bits and a zero immediate. -/
theorem formatK_eq_command {f : Nat → Instr} {j : Instr} {md arg : Nat}
    (h : formatK f md arg = .command j) : md < 8 ∧ arg = 0 ∧ j = f md := by
  unfold formatK at h
  split at h
  · cases h
  · split at h
    · cases h
    · cases h
      exact ⟨by omega, by omega, rfl⟩

end Sys2Proof
end

