-- ==== Sys2Proof/Laws/Flags.lean ====
section
/-! SUPPORT. Laws of the status word, the fault bits and the interrupt. -/

namespace Sys2Proof.Machine

theorem getLsbD_ofBool_eq (b : Bool) (j : Nat) :
    (BitVec.ofBool b).getLsbD j = (decide (j = 0) && b) := by
  cases b <;> cases j <;> simp

/-- Every bit of the `STATUS` word (rule R25). -/
theorem State.getLsbD_statusWord (s : State) (j : Nat) :
    s.statusWord.getLsbD j =
      if j = 0 then s.busy
      else if j = 1 then s.done
      else if j = 2 then s.framed
      else if j = 3 then s.faulted
      else if j < 8 then false
      else if j < 16 then s.result.code.getLsbD (j - 8)
      else if j < 24 then s.lastop.getLsbD (j - 16)
      else false := by
  simp only [State.statusWord]
  rw [BitVec.getLsbD_append, BitVec.getLsbD_append, BitVec.getLsbD_append, BitVec.getLsbD_append,
    BitVec.getLsbD_append, BitVec.getLsbD_append, BitVec.getLsbD_append]
  simp only [getLsbD_ofBool_eq, BitVec.getLsbD_zero]
  rcases Nat.lt_or_ge j 8 with h | h
  · interval_cases j <;> simp
  · have h1 : ¬ j < 1 := by omega
    have h2 : ¬ j - 1 < 1 := by omega
    have h3 : ¬ j - 1 - 1 < 1 := by omega
    have h4 : ¬ j - 1 - 1 - 1 < 1 := by omega
    have h5 : ¬ j - 1 - 1 - 1 - 1 < 4 := by omega
    have e8 : j - 1 - 1 - 1 - 1 - 4 = j - 8 := by omega
    have e16 : j - 8 - 8 = j - 16 := by omega
    simp only [if_neg h1, if_neg h2, if_neg h3, if_neg h4, if_neg h5, e8, e16,
      if_neg (show ¬ j = 0 by omega), if_neg (show ¬ j = 1 by omega),
      if_neg (show ¬ j = 2 by omega), if_neg (show ¬ j = 3 by omega),
      if_neg (show ¬ j < 8 by omega)]
    rcases Nat.lt_or_ge j 16 with h' | h'
    · rw [if_pos (show j - 8 < 8 by omega), if_pos h']
    · rw [if_neg (show ¬ j - 8 < 8 by omega), if_neg (show ¬ j < 16 by omega)]
      rcases Nat.lt_or_ge j 24 with h'' | h''
      · rw [if_pos (show j - 16 < 8 by omega), if_pos h'']
      · rw [if_neg (show ¬ j - 16 < 8 by omega), if_neg (show ¬ j < 24 by omega)]

/-- `STATUS` bit 3 is `FAULT` not 0 (rule R25). -/
theorem State.getLsbD_status_three (s : State) : s.statusWord.getLsbD 3 = s.faulted := by
  rw [State.getLsbD_statusWord]
  rfl

/-- `STATUS` bits 15:8 are the result code (rule R25). -/
theorem State.status_result (s : State) : s.statusWord.extractLsb' 8 8 = s.result.code := by
  apply BitVec.eq_of_getLsbD_eq
  intro i hi
  rw [BitVec.getLsbD_extractLsb', State.getLsbD_statusWord, decide_eq_true hi, Bool.true_and,
    if_neg (by omega), if_neg (by omega), if_neg (by omega), if_neg (by omega), if_neg (by omega),
    if_pos (by omega), Nat.add_sub_cancel_left]

/-- `STATUS` bits 23:16 are `LASTOP` (rule R25). -/
theorem State.status_lastop (s : State) : s.statusWord.extractLsb' 16 8 = s.lastop := by
  apply BitVec.eq_of_getLsbD_eq
  intro i hi
  rw [BitVec.getLsbD_extractLsb', State.getLsbD_statusWord, decide_eq_true hi, Bool.true_and,
    if_neg (by omega), if_neg (by omega), if_neg (by omega), if_neg (by omega), if_neg (by omega),
    if_neg (by omega), if_pos (by omega), Nat.add_sub_cancel_left]

end Sys2Proof.Machine
end

