-- ==== Sys2Proof/Laws/Text.lean ====
section
/-! SUPPORT. Laws of the text fields: decimal and hexadecimal round trips, slices of a header,
classification. -/

namespace Sys2Proof.Machine

/-! ### Decimal fields -/

@[simp] theorem length_decN (n v : Nat) : (decN n v).length = n := by
  induction n generalizing v with
  | zero => rfl
  | succ n ih => rw [decN, List.length_append, ih]; rfl

theorem toNat_decDigit (d : Nat) : (decDigit d).toNat = 0x30 + d % 10 := by
  rw [decDigit, BitVec.toNat_ofNat]
  omega

theorem isDigit_decDigit (d : Nat) : isDigit (decDigit d) = true := by
  rw [isDigit, toNat_decDigit, decide_eq_true_eq]
  omega

theorem isDigit_of_mem_decN {n v : Nat} {b : Byte} (h : b ∈ decN n v) : isDigit b = true := by
  induction n generalizing v with
  | zero => exact absurd h (by simp [decN])
  | succ n ih =>
    rw [decN, List.mem_append, List.mem_singleton] at h
    rcases h with h | rfl
    · exact ih h
    · exact isDigit_decDigit v

theorem all_isDigit_decN (n v : Nat) : (decN n v).all isDigit = true :=
  List.all_eq_true.2 fun _ h => isDigit_of_mem_decN h

theorem decVal_append_singleton (bs : List Byte) (b : Byte) :
    decVal (bs ++ [b]) = decVal bs * 10 + (b.toNat - 0x30) := by
  simp [decVal]

/-- `decval(dec_n(v)) = v mod 10^n` (rule R13). -/
theorem decVal_decN (n v : Nat) : decVal (decN n v) = v % 10 ^ n := by
  induction n generalizing v with
  | zero => simp [decN, decVal, Nat.mod_one]
  | succ n ih =>
    rw [decN, decVal_append_singleton, ih, toNat_decDigit, Nat.pow_succ, Nat.mul_comm (10 ^ n) 10,
      Nat.mod_mul]
    omega

/-- The value of a string of `n` digits is below `10^n` (rule R18). -/
theorem decVal_lt {bs : List Byte} (h : bs.all isDigit = true) : decVal bs < 10 ^ bs.length := by
  induction bs using List.reverseRecOn with
  | nil => simp [decVal]
  | append_singleton bs b ih =>
    rw [List.all_append, Bool.and_eq_true] at h
    have hb : isDigit b = true := by simpa using h.2
    have := ih h.1
    rw [decVal_append_singleton, List.length_append, List.length_singleton, Nat.pow_succ]
    rw [isDigit, decide_eq_true_eq] at hb
    omega

/-! ### Hexadecimal fields -/

theorem hexDigit_spec (u : Bool) (d : Nat) (h : d < 16) :
    isHex (hexDigit u d) = true ∧ hexDigitVal (hexDigit u d) = d := by
  have : ∀ u : Bool, ∀ d : Fin 16,
      isHex (hexDigit u d.val) = true ∧ hexDigitVal (hexDigit u d.val) = d.val := by decide
  exact this u ⟨d, h⟩

@[simp] theorem length_hex8 (u : Bool) (v : Word) : (hex8 u v).length = 8 := by simp [hex8]

theorem all_isHex_hex8 (u : Bool) (v : Word) : (hex8 u v).all isHex = true := by
  rw [List.all_eq_true]
  intro b hb
  obtain ⟨i, -, rfl⟩ := List.mem_map.1 hb
  exact (hexDigit_spec u _ (BitVec.isLt _)).1

/-- `hexval(hex8(v)) = v`, in either case (rule R13). -/
theorem hexVal_hex8 (u : Bool) (v : Word) : hexVal (hex8 u v) = v := by
  have e : ∀ i, hexDigitVal (hexDigit u (v.extractLsb' (28 - 4 * i) 4).toNat) =
      v.toNat / 2 ^ (28 - 4 * i) % 16 := by
    intro i
    rw [(hexDigit_spec u _ (BitVec.isLt _)).2, BitVec.extractLsb'_toNat, Nat.shiftRight_eq_div_pow]
  have hv := v.isLt
  rw [hexVal, hex8, List.foldl_map]
  apply BitVec.eq_of_toNat_eq
  rw [BitVec.toNat_ofNat]
  simp only [e, show List.range 8 = [0, 1, 2, 3, 4, 5, 6, 7] from rfl, List.foldl_cons,
    List.foldl_nil]
  omega

/-! ### Headers -/

@[simp] theorem length_tail (hd : Header) : hd.tail.length = 7 := by
  cases hd <;> simp [Header.tail, terminalMark]

@[simp] theorem length_headerOf (a b c : Nat) (hd : Header) : (headerOf a b c hd).length = 24 := by
  simp [headerOf, magic]

/-- A slice that is a whole middle part of a concatenation. -/
theorem slice_append (xs ys zs : List Byte) (i n : Nat) (hi : xs.length = i) (hn : ys.length = n) :
    slice (xs ++ ys ++ zs) i n = ys := by
  subst hi hn
  simp [slice, List.append_assoc]

theorem headerOf_magic (a b c : Nat) (hd : Header) : (headerOf a b c hd).take 4 = magic := by
  simp [headerOf, magic]

theorem slice_headerOf_serial (a b c : Nat) (hd : Header) :
    slice (headerOf a b c hd) 4 4 = decN 4 a := by
  rw [headerOf]
  simp only [List.append_assoc]
  rw [← List.append_assoc magic]
  exact slice_append _ _ _ _ _ rfl (length_decN ..)

theorem slice_headerOf_profile (a b c : Nat) (hd : Header) :
    slice (headerOf a b c hd) 8 5 = decN 5 b := by
  rw [headerOf, List.append_assoc (_ ++ decN 5 b)]
  exact slice_append _ _ _ _ _ (by simp [magic]) (length_decN ..)

theorem slice_headerOf_packet (a b c : Nat) (hd : Header) :
    slice (headerOf a b c hd) 13 4 = decN 4 c := by
  rw [headerOf]
  exact slice_append _ _ _ _ _ (by simp [magic]) (length_decN ..)

theorem slice_headerOf_digits (a b c : Nat) (hd : Header) :
    slice (headerOf a b c hd) 4 13 = decN 4 a ++ decN 5 b ++ decN 4 c := by
  have : headerOf a b c hd = magic ++ (decN 4 a ++ decN 5 b ++ decN 4 c) ++ hd.tail := by
    simp [headerOf]
  rw [this]
  exact slice_append _ _ _ _ _ rfl (by simp)

theorem slice_headerOf_tail (a b c : Nat) (hd : Header) :
    slice (headerOf a b c hd) 17 7 = hd.tail := by
  have : headerOf a b c hd =
      (magic ++ decN 4 a ++ decN 5 b ++ decN 4 c) ++ hd.tail ++ [] := by
    simp [headerOf]
  rw [this]
  exact slice_append _ _ _ _ _ (by simp [magic]) (length_tail hd)

theorem slice_17_3 (h : List Byte) : slice h 17 3 = slice (slice h 17 7) 0 3 := by
  simp [slice, List.take_take]

theorem slice_20_4 (h : List Byte) : slice h 20 4 = slice (slice h 17 7) 3 4 := by
  simp [slice, List.drop_take, List.drop_drop, List.take_take]

/-- Classifying an announce header gives the count back, modulo 10000 (rules R102, R106). -/
theorem classify_headerOf_announce (a b c count : Nat) :
    classify (headerOf a b c (.announce count)) = some (.announce (count % 10000)) := by
  rw [classify, slice_headerOf_digits, slice_17_3, slice_20_4, slice_headerOf_tail]
  have h1 : (decN 4 a ++ decN 5 b ++ decN 4 c).all isDigit = true := by
    simp [List.all_append, all_isDigit_decN]
  have e1 : slice (Header.announce count).tail 0 3 = decN 3 0 :=
    slice_append [] (decN 3 0) (decN 4 count) 0 3 rfl rfl
  have e2 : slice (Header.announce count).tail 3 4 = decN 4 count := by
    have := slice_append (decN 3 0) (decN 4 count) [] 3 4 rfl (by simp)
    rwa [List.append_nil] at this
  have h2 : (Header.announce count).tail.all isDigit = true := by
    simp [Header.tail, List.all_append, all_isDigit_decN]
  have h3 : (Header.announce count).tail ≠ terminalMark := by
    intro hc
    rw [hc] at h2
    exact absurd h2 (by decide)
  rw [e1, e2, h1, h2, decVal_decN, decVal_decN]
  simp [h3]

/-- Classifying a data header whose number is no multiple of 1000 gives number and size back
(rules R103, R106). -/
theorem classify_headerOf_data (a b c bn size : Nat) (hb : bn % 1000 ≠ 0) (hs : size ≤ burstMax) :
    classify (headerOf a b c (.data bn size)) = some (.data (bn % 1000) size) := by
  rw [classify, slice_headerOf_digits, slice_17_3, slice_20_4, slice_headerOf_tail]
  have h1 : (decN 4 a ++ decN 5 b ++ decN 4 c).all isDigit = true := by
    simp [List.all_append, all_isDigit_decN]
  have e1 : slice (Header.data bn size).tail 0 3 = decN 3 bn :=
    slice_append [] (decN 3 bn) (decN 4 size) 0 3 rfl (by simp)
  have e2 : slice (Header.data bn size).tail 3 4 = decN 4 size := by
    have := slice_append (decN 3 bn) (decN 4 size) [] 3 4 (by simp) (by simp)
    rwa [List.append_nil] at this
  have h2 : (Header.data bn size).tail.all isDigit = true := by
    simp [Header.tail, List.all_append, all_isDigit_decN]
  have h3 : (Header.data bn size).tail ≠ terminalMark := by
    intro hc
    rw [hc] at h2
    exact absurd h2 (by decide)
  have hs' : size % 10 ^ 4 = size := Nat.mod_eq_of_lt (by
    have : burstMax = 8192 := rfl
    omega)
  rw [e1, e2, h1, h2, decVal_decN, decVal_decN, hs']
  simp [h3, hb, show ¬ burstMax < size by omega]

/-- A data burst whose index is a multiple of 1000 prints `"000"`, the number of an announce burst (rule R106). -/
theorem headerOf_data_thousand (a b c size : Nat) {bn : Nat} (hb : bn % 1000 = 0) :
    headerOf a b c (.data bn size) = headerOf a b c (.announce size) := by
  have e : decN 3 bn = decN 3 0 := by
    simp only [decN, decDigit, List.nil_append]
    rw [show bn % 10 = 0 by omega, show bn / 10 % 10 = 0 by omega, show bn / 10 / 10 % 10 = 0 by omega]
  rw [headerOf, headerOf, Header.tail, Header.tail, e]

/-- Classifying a terminal header (rules R104, R106). -/
theorem classify_headerOf_terminal (a b c : Nat) :
    classify (headerOf a b c .terminal) = some .terminal := by
  rw [classify, slice_headerOf_digits, slice_headerOf_tail]
  have h1 : (decN 4 a ++ decN 5 b ++ decN 4 c).all isDigit = true := by
    simp [List.all_append, all_isDigit_decN]
  rw [h1]
  simp [Header.tail]

/-- Everything a header classified as well-formed satisfies (rules R106, R207). -/
theorem classify_eq_some {h : List Byte} {hd : Header} (hc : classify h = some hd) :
    (slice h 4 13).all isDigit = true ∧
    ((hd = .terminal ∧ slice h 17 7 = terminalMark) ∨
      ((slice h 17 7).all isDigit = true ∧ decVal (slice h 17 3) = 0 ∧
        hd = .announce (decVal (slice h 20 4))) ∨
      ((slice h 17 7).all isDigit = true ∧ decVal (slice h 17 3) ≠ 0 ∧
        decVal (slice h 20 4) ≤ burstMax ∧
        hd = .data (decVal (slice h 17 3)) (decVal (slice h 20 4)))) := by
  unfold classify at hc
  split at hc
  · next h1 =>
    refine ⟨h1, ?_⟩
    split at hc
    · next h2 => exact .inl ⟨(Option.some.inj hc).symm, h2⟩
    · split at hc
      · next h3 =>
        split at hc
        · next h4 => exact .inr (.inl ⟨h3, h4, (Option.some.inj hc).symm⟩)
        · next h4 =>
          split at hc
          · cases hc
          · next h5 =>
            exact .inr (.inr ⟨h3, h4, by omega, (Option.some.inj hc).symm⟩)
      · cases hc
  · cases hc

/-- The payload of a well-formed header is at most the largest burst (rule R106). -/
theorem payload_le_of_classify {h : List Byte} {hd : Header} (hc : classify h = some hd) :
    hd.payload ≤ burstMax := by
  rcases (classify_eq_some hc).2 with ⟨rfl, -⟩ | ⟨-, -, rfl⟩ | ⟨-, -, h5, rfl⟩
  · exact Nat.zero_le _
  · exact Nat.zero_le _
  · exact h5

theorem length_slice_le (h : List Byte) (i n : Nat) : (slice h i n).length ≤ n := by
  simp [slice]

theorem all_slice_of_all_slice {h : List Byte} {i n j k : Nat} {p : Byte → Bool}
    (ha : (slice h i n).all p = true) (hj : i ≤ j) (hk : j + k ≤ i + n) :
    (slice h j k).all p = true := by
  have : slice h j k = slice (slice h i n) (j - i) k := by
    simp only [slice, List.drop_take, List.take_take, List.drop_drop]
    rw [show i + (j - i) = j by omega, show min k (n - (j - i)) = k by omega]
  rw [this, List.all_eq_true]
  intro b hb
  exact (List.all_eq_true.1 ha) b (List.mem_of_mem_drop (List.mem_of_mem_take hb))

/-- A field of digits of at most `k` characters is below `10^k` (rule R18). -/
theorem decVal_slice_lt {h : List Byte} {j k : Nat} (ha : (slice h j k).all isDigit = true) :
    decVal (slice h j k) < 10 ^ k :=
  Nat.lt_of_lt_of_le (decVal_lt ha) (Nat.pow_le_pow_right (by omega) (length_slice_le h j k))

/-- The ranges of the fields of a well-formed header (rules R41 to R45). -/
theorem header_fields_in_range {h : List Byte} {hd : Header} (hc : classify h = some hd) :
    decVal (slice h 4 4) ≤ 9999 ∧ decVal (slice h 8 5) ≤ 99999 ∧ decVal (slice h 13 4) ≤ 9999 ∧
      hd.bn ≤ 999 ∧ hd.val ≤ 9999 := by
  obtain ⟨h1, h2⟩ := classify_eq_some hc
  have a1 := decVal_slice_lt (all_slice_of_all_slice (j := 4) (k := 4) h1 (by omega) (by omega))
  have a2 := decVal_slice_lt (all_slice_of_all_slice (j := 8) (k := 5) h1 (by omega) (by omega))
  have a3 := decVal_slice_lt (all_slice_of_all_slice (j := 13) (k := 4) h1 (by omega) (by omega))
  refine ⟨by omega, by omega, by omega, ?_⟩
  rcases h2 with ⟨rfl, -⟩ | ⟨h3, -, rfl⟩ | ⟨h3, -, h5, rfl⟩
  · exact ⟨Nat.zero_le _, Nat.zero_le _⟩
  · have b1 := decVal_slice_lt (all_slice_of_all_slice (j := 20) (k := 4) h3 (by omega) (by omega))
    exact ⟨Nat.zero_le _, by simp only [Header.val]; omega⟩
  · have b1 := decVal_slice_lt (all_slice_of_all_slice (j := 20) (k := 4) h3 (by omega) (by omega))
    have b2 := decVal_slice_lt (all_slice_of_all_slice (j := 17) (k := 3) h3 (by omega) (by omega))
    exact ⟨by simp only [Header.bn]; omega, by simp only [Header.val]; omega⟩

end Sys2Proof.Machine
end

