-- ==== Sys2Proof/Laws/Framer.lean ====
section
/-! SUPPORT. Laws of the framer: how the bursts divide the packet, and what a rendered burst is. -/

namespace Sys2Proof.Machine

/-- What `ceil(L / S)` is good for (rule R181). -/
theorem ceilDiv_spec {l d n : Nat} (hd : 0 < d) (h : n = ceilDiv l d) :
    n * d < l + d ∧ l ≤ n * d ∧ (1 ≤ n → (n - 1) * d < l) := by
  rw [ceilDiv] at h
  have h1 := Nat.div_mul_le_self (l + d - 1) d
  have h2 := Nat.lt_div_mul_add (a := l + d - 1) hd
  rw [← h] at h1 h2
  refine ⟨by omega, by omega, fun hn => ?_⟩
  obtain ⟨m, rfl⟩ : ∃ m, n = m + 1 := ⟨n - 1, by omega⟩
  rw [Nat.add_mul] at h1
  rw [Nat.add_sub_cancel]
  omega

/-- What `FRAMED` guarantees (rules R34, R62). -/
theorem State.framed_spec {s : State} (hc : s.FramedCoherent) (hf : s.framed = true) :
    128 ≤ s.burstSize.toNat ∧ s.burstSize.toNat ≤ 8192 ∧
      s.burstCount.toNat = ceilDiv s.pktLen.toNat s.burstSize.toNat := by
  obtain ⟨h1, -, h3⟩ := hc hf
  simp only [legalBurstSizes, List.mem_cons, List.not_mem_nil, or_false] at h1
  exact ⟨by omega, by omega, h3⟩

/-- Each data burst is not empty, fits in a burst, and ends where the next one starts or where the packet
ends (rules R182, R183). -/
theorem State.burstLen_spec {s : State} (hc : s.FramedCoherent) (hf : s.framed = true) {idx : Nat}
    (h1 : 1 ≤ idx) (h2 : idx ≤ s.burstCount.toNat) :
    1 ≤ s.burstLen idx ∧ s.burstLen idx ≤ s.burstSize.toNat ∧
      s.burstOffset idx + s.burstLen idx = min (idx * s.burstSize.toNat) s.pktLen.toNat := by
  obtain ⟨a, b, c⟩ := State.framed_spec hc hf
  obtain ⟨d, e, f⟩ := ceilDiv_spec (by omega) c
  obtain ⟨m, rfl⟩ : ∃ m, idx = m + 1 := ⟨idx - 1, by omega⟩
  unfold State.burstLen State.burstOffset
  split
  · have : (m + 1) * s.burstSize.toNat ≤ (s.burstCount.toNat - 1) * s.burstSize.toNat :=
      Nat.mul_le_mul_right _ (by omega)
    have := f (by omega)
    refine ⟨by omega, Nat.le_refl _, ?_⟩
    rw [Nat.min_eq_left (by omega), Nat.add_sub_cancel, Nat.add_mul]
    omega
  · have hh : m + 1 = s.burstCount.toNat := by omega
    have := f (by omega)
    rw [← hh] at d e this ⊢
    rw [Nat.add_mul] at d e
    simp only [Nat.add_sub_cancel] at *
    refine ⟨by omega, by omega, ?_⟩
    rw [Nat.add_mul, Nat.min_eq_right (by omega)]
    omega

/-- No burst has a payload above the largest burst size. -/
theorem State.payload_le {s : State} (hc : s.FramedCoherent) (hf : s.framed = true) (idx : Nat) :
    (s.burstHeader idx).payload ≤ 8192 := by
  unfold State.burstHeader
  split
  · exact Nat.zero_le _
  · split
    · next h =>
      exact (State.burstLen_spec hc hf (by omega) h).2.1.trans (State.framed_spec hc hf).2.1
    · exact Nat.zero_le _

@[simp] theorem State.length_renderedHeader (s : State) (idx : Nat) :
    (s.renderedHeader idx).length = 24 := length_headerOf _ _ _ _

/-- The CRC of a burst covers at least its header (rule R172). -/
theorem State.burstCovered_ne_nil (s : State) (idx : Nat) : s.burstCovered idx ≠ [] := by
  intro h
  have := congrArg List.length h
  rw [State.burstCovered, List.length_append, State.length_renderedHeader, List.length_nil] at this
  omega

@[simp] theorem State.length_wireBytes (s : State) (idx : Nat) :
    (s.wireBytes idx).length = 32 + (s.burstHeader idx).payload := by
  simp only [State.wireBytes, List.length_append, State.length_renderedHeader, length_hex8,
    State.burstPayload, State.length_bufBytes]

/-- The three parts of a string read at the address of their concatenation. -/
theorem Memory.readBytes_three {m : Memory} {a : Nat} {xs ys zs : List Byte}
    (h : m.readBytes a (xs ++ ys ++ zs).length = xs ++ ys ++ zs) :
    m.readBytes a xs.length = xs ∧ m.readBytes (a + xs.length) ys.length = ys ∧
      m.readBytes (a + (xs.length + ys.length)) zs.length = zs := by
  rw [List.length_append, List.length_append, Memory.readBytes_add, Memory.readBytes_add] at h
  obtain ⟨h1, h2⟩ := List.append_inj h (by simp)
  obtain ⟨h3, h4⟩ := List.append_inj h1 (by simp)
  exact ⟨h3, h4, h2⟩

/-- What a `RENDER` that completes leaves in TXBUF, field by field (rules R100, R105, R185). -/
theorem exec_render_txbuf {s t : State} {idx : Nat} (hm : s.mem.wf) (hc : s.FramedCoherent)
    (hf : s.framed = true) (hi : idx ≤ s.burstCount.toNat + 1)
    (h : exec (.render idx) s = .next t) :
    t.mem = s.mem.writeBytes s.cfg.txbufBase (s.wireBytes idx) ∧
    t.bufBytes .txbuf 0 24 = s.renderedHeader idx ∧
    t.bufBytes .txbuf 24 8 = hex8 s.cfg.hexUpper (s.cfg.crc32 (s.burstCovered idx)) ∧
    t.bufBytes .txbuf 32 (s.burstHeader idx).payload = s.burstPayload idx ∧
    t.txLen.toNat = 32 + (s.burstHeader idx).payload := by
  obtain ⟨hmem, hcfg, htl⟩ : t.mem = s.mem.writeBytes s.cfg.txbufBase (s.wireBytes idx) ∧
      t.cfg = s.cfg ∧
      t.txLen = BitVec.ofNat 32 (overheadBytes + (s.burstHeader idx).payload) := by
    rw [exec_render_ok hf hi] at h
    generalize s.wireBytes idx = bs at h ⊢
    generalize s.burstCovered idx = covered at h
    generalize (s.burstHeader idx).payload = n at h ⊢
    cases h
    exact ⟨rfl, rfl, rfl⟩
  have hw := Memory.readBytes_writeBytes_same hm s.cfg.txbufBase (s.wireBytes idx)
  obtain ⟨h1, h2, h3⟩ := Memory.readBytes_three hw
  rw [State.length_renderedHeader] at h1 h2 h3
  rw [length_hex8] at h2 h3
  rw [show (s.burstPayload idx).length = (s.burstHeader idx).payload from
    State.length_bufBytes _ _ _ _] at h3
  simp only [State.bufBytes, hmem, hcfg, Config.base]
  rw [Nat.add_zero]
  refine ⟨trivial, h1, h2, h3, ?_⟩
  have := State.payload_le hc hf idx
  rw [htl, BitVec.toNat_ofNat, Nat.mod_eq_of_lt]
  rw [overheadBytes]
  omega

end Sys2Proof.Machine
end

