-- ==== Sys2Proof/Laws/PerInstr.lean ====
section
/-! SUPPORT. Statements made for every instruction as syntax, one lemma per constructor. -/

/-- The word of a well-formed instruction decodes to it (rules R110 to R114). -/
def Sys2Proof.Laws.EncodeRoundTrip.Statement (i : Sys2Proof.Instr) : Prop :=
  i.wellFormed = true → Sys2Proof.decode (Sys2Proof.encode i) = .command i

namespace Sys2Proof.Laws.EncodeRoundTrip

theorem nop : Statement .nop := fun _ => decode_packWord ..

theorem srst : Statement .srst := fun _ => decode_packWord ..

theorem crcInit : Statement .crcInit := fun _ => decode_packWord ..

theorem frame : Statement .frame := fun _ => decode_packWord ..

theorem render (idx : Nat) : Statement (.render idx) := fun h => by
  have h' : idx ≤ 65535 := by simpa [Instr.wellFormed] using h
  rw [encode, decode_packWord, Nat.mod_eq_of_lt (show idx < 65536 by omega)]
  rfl

theorem scan : Statement .scan := fun _ => decode_packWord ..

theorem rxcompact : Statement .rxcompact := fun _ => decode_packWord ..

theorem grayEnc : Statement .grayEnc := fun _ => decode_packWord ..

theorem grayDec : Statement .grayDec := fun _ => decode_packWord ..

theorem bpEnc (k : Nat) : Statement (.bpEnc k) := fun h => by
  have h' : k ≤ 7 := by simpa [Instr.wellFormed] using h
  rw [encode, decode_packWord, Nat.mod_eq_of_lt (show k < 256 by omega)]
  show formatK .bpEnc k 0 = _
  simp [formatK, show ¬ 8 ≤ k by omega]

theorem bpDec (k : Nat) : Statement (.bpDec k) := fun h => by
  have h' : k ≤ 7 := by simpa [Instr.wellFormed] using h
  rw [encode, decode_packWord, Nat.mod_eq_of_lt (show k < 256 by omega)]
  show formatK .bpDec k 0 = _
  simp [formatK, show ¬ 8 ≤ k by omega]

end Sys2Proof.Laws.EncodeRoundTrip
end

