-- ==== Sys2Proof/Laws/Pipeline.lean ====
section
/-! SUPPORT. Laws of the sample transforms, bit by bit. -/

namespace Sys2Proof.Machine

theorem State.sampleRangeBad_eq_false {s : State} (h : s.nsamp.toNat ≤ s.cfg.nmax) :
    s.sampleRangeBad = false := by
  rw [State.sampleRangeBad, decide_eq_false_iff_not]
  omega

/-- Eight lanes to a group, and `NMAX` is a multiple of 8 (rule R10): the planes fit in PLN. -/
theorem State.groups_le {s : State} (hc : s.cfg.Legal) (h : s.nsamp.toNat ≤ s.cfg.nmax) :
    s.groups * 8 ≤ s.cfg.nmax := by
  have := hc.2.2.2.2.1
  unfold State.groups ceilDiv
  omega

/-! ### Gray code -/

theorem getLsbD_grayEnc (v : Sample) (j : Nat) :
    (grayEnc v).getLsbD j = (v.getLsbD j ^^ v.getLsbD (j + 1)) := by
  rw [grayEnc, BitVec.getLsbD_xor, BitVec.getLsbD_ushiftRight, Nat.add_comm]

theorem getLsbD_foldl_xor_shift (g : Sample) (j : Nat) (l : List Nat) (acc : Sample) :
    (l.foldl (fun b i => b ^^^ (g >>> i)) acc).getLsbD j =
      l.foldl (fun b i => b ^^ g.getLsbD (i + j)) (acc.getLsbD j) := by
  induction l generalizing acc with
  | nil => rfl
  | cons x l ih =>
    rw [List.foldl_cons, List.foldl_cons, ih, BitVec.getLsbD_xor, BitVec.getLsbD_ushiftRight]

theorem getLsbD_grayDec_eq_foldl (g : Sample) (j : Nat) :
    (grayDec g).getLsbD j = (List.range 16).foldl (fun b i => b ^^ g.getLsbD (i + j)) false := by
  rw [grayDec, getLsbD_foldl_xor_shift]
  congr 1
  exact BitVec.getLsbD_zero

/-- The prefix XOR, one bit from the next higher one (rule R143). -/
theorem getLsbD_grayDec (g : Sample) (j : Nat) :
    (grayDec g).getLsbD j = ((grayDec g).getLsbD (j + 1) ^^ g.getLsbD j) := by
  rw [getLsbD_grayDec_eq_foldl, getLsbD_grayDec_eq_foldl]
  have h16 : g.getLsbD (15 + (j + 1)) = false := BitVec.getLsbD_of_ge _ _ (by omega)
  simp only [List.range_succ, List.range_zero, List.nil_append, List.foldl_cons, List.foldl_nil,
    List.cons_append]
  simp only [h16, Nat.zero_add]
  simp only [show ∀ i, i + (j + 1) = (i + 1) + j by intro i; omega]
  simp [Bool.xor_comm, Nat.add_comm]

theorem getLsbD_grayDec_of_ge (g : Sample) {j : Nat} (h : 15 ≤ j) :
    (grayDec g).getLsbD j = g.getLsbD j := by
  rw [getLsbD_grayDec, BitVec.getLsbD_of_ge _ _ (show 16 ≤ j + 1 by omega), Bool.false_xor]

/-! ### Transforms in place -/

/-- A transform of the samples: sample `i` becomes `f` of it, and the bytes above are unchanged
(rule R141). -/
theorem State.mapSamples_spec {s : State} (hm : s.mem.wf) (f : Sample → Sample) :
    (∀ i, i < s.nsamp.toNat → (s.mapSamples f).sample i = f (s.sample i)) ∧
    ∀ a, (a < s.cfg.smpBase ∨ s.cfg.smpBase + 2 * s.nsamp.toNat ≤ a) →
      (s.mapSamples f).mem.read a = s.mem.read a := by
  constructor
  · intro i hi
    rw [State.mapSamples, State.sample_writeSamples hm _ i (by simpa using hi)]
    simp [State.samples]
  · intro a ha
    exact State.read_writeSamples_outside s _ (by simpa using ha)

/-! ### Bit planes -/

theorem length_flatMap_rows (n g : Nat) (f : Nat → Nat → Byte) :
    ((List.range n).flatMap fun j => (List.range g).map (f j)).length = n * g := by
  induction n with
  | zero => simp
  | succ n ih =>
    rw [List.range_succ, List.flatMap_append, List.length_append, ih]
    simp [Nat.succ_mul]

theorem getElem_flatMap_rows (n g : Nat) (f : Nat → Nat → Byte) (j k : Nat) (hj : j < n) (hk : k < g)
    (h : j * g + k < ((List.range n).flatMap fun j => (List.range g).map (f j)).length) :
    ((List.range n).flatMap fun j => (List.range g).map (f j))[j * g + k] = f j k := by
  induction n with
  | zero => omega
  | succ n ih =>
    have e : (List.range (n + 1)).flatMap (fun j => (List.range g).map (f j)) =
        (List.range n).flatMap (fun j => (List.range g).map (f j)) ++ (List.range g).map (f n) := by
      rw [List.range_succ, List.flatMap_append]
      simp
    simp only [e]
    rcases Nat.lt_or_ge j n with hn | hn
    · have hlt : j * g + k < n * g :=
        Nat.lt_of_lt_of_le (Nat.add_lt_add_left hk _)
          (by rw [← Nat.succ_mul]; exact Nat.mul_le_mul_right _ hn)
      rw [List.getElem_append_left (by rw [length_flatMap_rows]; exact hlt)]
      exact ih hn _
    · obtain rfl : j = n := by omega
      rw [List.getElem_append_right (by rw [length_flatMap_rows]; omega)]
      simp

@[simp] theorem State.length_planeBytes (s : State) (k : Nat) :
    (s.planeBytes k).length = (16 - k) * s.groups := length_flatMap_rows _ _ _

theorem State.getElem_planeBytes (s : State) (k j g : Nat) (hj : j < 16 - k) (hg : g < s.groups)
    (h : j * s.groups + g < (s.planeBytes k).length) :
    (s.planeBytes k)[j * s.groups + g] = s.planeByte j g :=
  getElem_flatMap_rows _ _ (fun j g => s.planeByte j g) j g hj hg h

/-- Lane `t` of a plane byte is bit `15 - j` of sample `8g + t`, 0 beyond `NSAMP` (rule R152). -/
theorem State.getLsbD_planeByte (s : State) (j g : Nat) {lane : Nat} (hl : lane ≤ 7) :
    (s.planeByte j g).getLsbD (7 - lane) =
      (decide (8 * g + lane < s.nsamp.toNat) && (s.sample (8 * g + lane)).getLsbD (15 - j)) := by
  rw [State.planeByte, getLsbD_ofBits, show 7 - (7 - lane) = lane by omega, State.laneBit,
    decide_eq_true (show 7 - lane < 8 by omega), Bool.true_and]

/-- Bit `p` of a decoded sample (rule R155). -/
theorem State.getLsbD_decodedSample (s : State) (k i p : Nat) :
    (s.decodedSample k i).getLsbD p =
      (decide (p < 16) && (decide (k ≤ p) &&
        (s.bufByte .pln ((15 - p) * s.groups + i / 8)).getLsbD (7 - i % 8))) :=
  getLsbD_ofBits _ _ _

end Sys2Proof.Machine
end

