-- ==== Sys2Proof/Laws/Step.lean ====
section
/-! SUPPORT. What one step is, event by event, and what every step keeps. -/

namespace Sys2Proof.Machine

theorem step_idle {s : State} (h : s.script = []) : step s = engineStep s := by
  simp only [step, machineStep, h]

theorem step_read {s : State} {addr n : Nat} {rest : List Event}
    (h : s.script = .read addr n :: rest) :
    step s = .next ((s.withScript rest).hostRead addr n) := by
  simp only [step, machineStep, h, eventStep]

theorem step_write {s : State} {addr n : Nat} {v : Word} {rest : List Event}
    (h : s.script = .write addr n v :: rest) :
    step s = .next ((s.withScript rest).hostWrite addr n v) := by
  simp only [step, machineStep, h, eventStep]

theorem step_engine {s : State} {rest : List Event} (h : s.script = .engine :: rest) :
    step s = engineStep (s.withScript rest) := by
  simp only [step, machineStep, h, eventStep]

theorem step_hardReset {s : State} {cells : List Host.Cell} {rest : List Event}
    (h : s.script = .hardReset cells :: rest) :
    step s = .next ((s.withScript rest).hardwareReset cells) := by
  simp only [step, machineStep, h, eventStep]

theorem engineStep_idle {s : State} (h : s.pending = none) : engineStep s = .next s := by
  simp only [engineStep, h]

theorem engineStep_command {s : State} {w : Word} {i : Instr} (h : s.pending = some w)
    (hd : decode w = .command i) : engineStep s = exec i s := by
  simp only [engineStep, h, hd]

theorem engineStep_illegal {s : State} {w : Word} {why : IllegalWord} (h : s.pending = some w)
    (hd : decode w = .illegal why) : engineStep s = .next (s.raise .illegalCmd) := by
  simp only [engineStep, h, hd]

/-- The engine's turn always ends in a next state with nothing pending; the parameters and what the
environment holds stay. -/
theorem engineStep_keeps (s : State) :
    ∃ t, engineStep s = .next t ∧ t.cfg = s.cfg ∧ t.script = s.script ∧ t.pending = none := by
  cases hp : s.pending with
  | none => exact ⟨s, engineStep_idle hp, rfl, rfl, hp⟩
  | some w =>
    cases hd : decode w with
    | command i =>
      obtain ⟨t, ht, h1, h2, -, h3, -⟩ := exec_keeps i s
      exact ⟨t, (engineStep_command hp hd).trans ht, h1, h2, h3⟩
    | illegal why => exact ⟨_, engineStep_illegal hp hd, rfl, rfl, rfl⟩

theorem State.respond_eq (s : State) (r : BusResponse) :
    s.respond r = { s with busResp := some r, fault := s.fault ||| 0 } := by
  simp only [State.respond, BitVec.ofNat_eq_ofNat, BitVec.or_zero]

/-- A host read changes only the bus answer and, when refused, a fault bit. -/
theorem State.hostRead_eq (s : State) (addr n : Nat) :
    ∃ r f, s.hostRead addr n = { s with busResp := some r, fault := s.fault ||| f } := by
  rcases ht : target s.cfg addr n with - | t
  · exact ⟨_, _, State.hostRead_illegal ht⟩
  · rcases Option.eq_none_or_eq_some s.pending with hp | ⟨w, hp⟩
    · exact ⟨_, _, (State.hostRead_idle ht hp).trans (State.respond_eq _ _)⟩
    · rcases hr : t.readableWhileBusy with - | -
      · refine ⟨.busError, FaultBit.mask .busyAccess, ?_⟩
        rw [State.hostRead_busy ht (by rw [hp]; rfl), hr]
        rfl
      · refine ⟨.data (s.readTarget n t), 0, ?_⟩
        rw [State.hostRead_busy ht (by rw [hp]; rfl), hr]
        exact State.respond_eq _ _

/-- A host write while a command is pending changes only the bus answer and a fault bit. -/
theorem State.hostWrite_busy_eq {s : State} (addr n : Nat) (v : Word) (h : s.pending.isSome = true) :
    ∃ f, s.hostWrite addr n v = { s with busResp := some .busError, fault := s.fault ||| f } := by
  cases ht : target s.cfg addr n with
  | none => exact ⟨_, State.hostWrite_illegal v ht⟩
  | some t => exact ⟨_, State.hostWrite_busy v ht h⟩

/-- A host write keeps the parameters and what the environment holds. -/
theorem State.hostWrite_keeps (s : State) (addr n : Nat) (v : Word) :
    (s.hostWrite addr n v).cfg = s.cfg ∧ (s.hostWrite addr n v).script = s.script := by
  cases ht : target s.cfg addr n with
  | none => rw [State.hostWrite_illegal v ht]; exact ⟨rfl, rfl⟩
  | some t =>
    cases hp : s.pending with
    | some w => rw [State.hostWrite_busy v ht (by rw [hp]; rfl)]; exact ⟨rfl, rfl⟩
    | none =>
      rw [State.hostWrite_idle v ht hp]
      cases t with
      | reg r => exact ⟨(s.writeReg_keeps v r).1, (s.writeReg_keeps v r).2.1⟩
      | buf b off => exact ⟨rfl, rfl⟩

/-- The engine moves with its turn taken off the script. -/
theorem step_engineTurn {s : State} (h : s.EngineTurn) :
    step s = engineStep (s.withScript s.script.tail) := by
  rcases h with h | h
  · rw [step_idle h, h]
    congr 1
    cases s
    simp only [State.withScript]
    simp_all
  · cases hs : s.script with
    | nil => rw [hs] at h; cases h
    | cons e rest =>
      rw [hs] at h
      obtain rfl : e = .engine := by simpa using h
      exact step_engine hs

end Sys2Proof.Machine
end

