-- ==== Sys2Proof/Laws/Verifier.lean ====
section
/-! SUPPORT. Laws of the receive scan: the search, and everything one attempt can answer. -/

namespace Sys2Proof.Machine

/-! ### The search -/

/-- The search finds the first window that is the magic (rule R204). -/
theorem findMagic_eq_some {bs : List Byte} {d : Nat} (h : findMagic bs = some d) :
    (bs.drop d).take 4 = magic ∧ d + 4 ≤ bs.length ∧ ∀ e < d, (bs.drop e).take 4 ≠ magic := by
  induction bs generalizing d with
  | nil => cases h
  | cons b bs ih =>
    rw [findMagic] at h
    split at h
    · next hm =>
      cases h
      refine ⟨hm, ?_, fun e he => absurd he (Nat.not_lt_zero e)⟩
      have := congrArg List.length hm
      simp [magic] at this
      simp only [List.length_cons]
      omega
    · next hm =>
      cases hf : findMagic bs with
      | none => rw [hf] at h; cases h
      | some d' =>
        rw [hf] at h
        cases h
        obtain ⟨h1, h2, h3⟩ := ih hf
        refine ⟨h1, by simp only [List.length_cons]; omega, fun e he => ?_⟩
        cases e with
        | zero => exact hm
        | succ e => exact h3 e (Nat.lt_of_succ_lt_succ he)

/-- The search finds nothing only when no window is the magic (rule R205). -/
theorem findMagic_eq_none {bs : List Byte} (h : findMagic bs = none) (d : Nat) :
    (bs.drop d).take 4 ≠ magic := by
  induction bs generalizing d with
  | nil => simp [magic]
  | cons b bs ih =>
    rw [findMagic] at h
    split at h
    · cases h
    · next hm =>
      have hf : findMagic bs = none := by simpa using h
      cases d with
      | zero => exact hm
      | succ d => exact ih hf d

/-- A window of the received bytes, as a window of the string the search reads. -/
theorem State.window_eq (s : State) {q : Nat} (hp : s.rxPos.toNat ≤ q)
    (hq : q + 4 ≤ s.rxLen.toNat) :
    ((s.bufBytes .rxbuf s.rxPos.toNat (s.rxLen.toNat - s.rxPos.toNat)).drop
      (q - s.rxPos.toNat)).take 4 = s.bufBytes .rxbuf q 4 := by
  refine List.ext_getElem (by simp; omega) fun i h1 h2 => ?_
  simp only [List.getElem_take, List.getElem_drop, State.getElem_bufBytes]
  rw [show s.rxPos.toNat + (q - s.rxPos.toNat + i) = q + i by omega]

/-- The attempt goes to the first magic of the window (rules R202, R204). -/
theorem State.scanWindow_of_first {s : State} {q : Nat} (hp : s.rxPos.toNat ≤ q)
    (hq : q + 4 ≤ s.rxLen.toNat) (hm : s.bufBytes .rxbuf q 4 = magic)
    (hf : ∀ r < q, s.rxPos.toNat ≤ r → s.bufBytes .rxbuf r 4 ≠ magic) :
    s.scanWindow = s.scanAt q := by
  rw [State.scanWindow]
  cases h : findMagic (s.bufBytes .rxbuf s.rxPos.toNat (s.rxLen.toNat - s.rxPos.toNat)) with
  | none =>
    exact absurd (s.window_eq hp hq ▸ hm) (findMagic_eq_none h (q - s.rxPos.toNat))
  | some d =>
    obtain ⟨h1, h2, h3⟩ := findMagic_eq_some h
    rw [State.length_bufBytes] at h2
    have hd : s.rxPos.toNat + d = q := by
      rcases Nat.lt_trichotomy (s.rxPos.toNat + d) q with hlt | heq | hgt
      · have w := s.window_eq (q := s.rxPos.toNat + d) (by omega) (by omega)
        rw [Nat.add_sub_cancel_left, h1] at w
        exact absurd w.symm (hf _ hlt (by omega))
      · exact heq
      · have w := s.window_eq hp hq
        exact absurd (w.trans hm) (h3 (q - s.rxPos.toNat) (by omega))
    show s.scanAt (s.rxPos.toNat + d) = s.scanAt q
    rw [hd]

/-- What the window holds when an attempt goes to `q`, or when it finds no magic. -/
theorem State.scanWindow_cases (s : State) :
    (s.scanWindow = .noMagic ∧
      ∀ q, s.rxPos.toNat ≤ q → q + 4 ≤ s.rxLen.toNat → s.bufBytes .rxbuf q 4 ≠ magic) ∨
    (∃ q, s.scanWindow = s.scanAt q ∧ s.rxPos.toNat ≤ q ∧ q + 4 ≤ s.rxLen.toNat ∧
      s.bufBytes .rxbuf q 4 = magic ∧
      ∀ r < q, s.rxPos.toNat ≤ r → s.bufBytes .rxbuf r 4 ≠ magic) := by
  cases h : findMagic (s.bufBytes .rxbuf s.rxPos.toNat (s.rxLen.toNat - s.rxPos.toNat)) with
  | none =>
    refine .inl ⟨by rw [State.scanWindow, h], fun q hp hq hm => ?_⟩
    exact findMagic_eq_none h (q - s.rxPos.toNat) ((s.window_eq hp hq).trans hm)
  | some d =>
    obtain ⟨h1, h2, h3⟩ := findMagic_eq_some h
    rw [State.length_bufBytes] at h2
    refine .inr ⟨s.rxPos.toNat + d, by rw [State.scanWindow, h], by omega, by omega, ?_, ?_⟩
    · have w := s.window_eq (q := s.rxPos.toNat + d) (by omega) (by omega)
      rw [Nat.add_sub_cancel_left, h1] at w
      exact w.symm
    · intro r hr hpr hm
      have w := s.window_eq (q := r) hpr (by omega)
      exact h3 (r - s.rxPos.toNat) (by omega) (w.trans hm)

theorem State.scanWindow_of_none {s : State}
    (hf : ∀ q, s.rxPos.toNat ≤ q → q + 4 ≤ s.rxLen.toNat → s.bufBytes .rxbuf q 4 ≠ magic) :
    s.scanWindow = .noMagic := by
  rcases s.scanWindow_cases with h | ⟨q, -, hp, hq, hm, -⟩
  · exact h.1
  · exact absurd hm (hf q hp hq)

/-! ### The attempt at a magic -/

/-- Everything an attempt at `q` can answer, with the condition of each answer (rules R206 to R211). -/
theorem State.scanAt_cases (s : State) (q : Nat) :
    (s.rxLen.toNat - q < 32 ∧ s.scanAt q = .short q) ∨
    (32 ≤ s.rxLen.toNat - q ∧ classify (s.bufBytes .rxbuf q 24) = none ∧
      s.scanAt q = .malformed q) ∨
    (∃ hd, 32 ≤ s.rxLen.toNat - q ∧ classify (s.bufBytes .rxbuf q 24) = some hd ∧
      ((s.rxLen.toNat - q < 32 + hd.payload ∧ s.scanAt q = .short q) ∨
        (32 + hd.payload ≤ s.rxLen.toNat - q ∧ s.scanAt q = s.checkCrc q hd))) := by
  by_cases h : s.rxLen.toNat - q < 32
  · exact .inl ⟨h, by rw [State.scanAt]; exact if_pos h⟩
  · have e : s.scanAt q = match classify (s.bufBytes .rxbuf q headerBytes) with
        | none => .malformed q
        | some hd =>
          if s.rxLen.toNat - q < overheadBytes + hd.payload then .short q else s.checkCrc q hd := by
      rw [State.scanAt]; exact if_neg h
    rw [e]
    cases hc : classify (s.bufBytes .rxbuf q 24) with
    | none => exact .inr (.inl ⟨by omega, rfl, rfl⟩)
    | some hd =>
      refine .inr (.inr ⟨hd, by omega, rfl, ?_⟩)
      by_cases h2 : s.rxLen.toNat - q < 32 + hd.payload
      · exact .inl ⟨h2, if_pos h2⟩
      · exact .inr ⟨by omega, if_neg h2⟩

/-- Everything the CRC comparison can answer (rules R209 to R211). -/
theorem State.checkCrc_cases (s : State) (q : Nat) (hd : Header) (covered field : List Byte)
    (hcov : covered = s.bufBytes .rxbuf q 24 ++ s.bufBytes .rxbuf (q + 32) hd.payload)
    (hfield : field = s.bufBytes .rxbuf (q + 24) 8) :
    (field.all isHex = true ∧ hexVal field = s.cfg.crc32 covered ∧
      s.checkCrc q hd = .verified q (s.bufBytes .rxbuf q 24) hd covered) ∨
    (field.all isHex = true ∧ hexVal field ≠ s.cfg.crc32 covered ∧
      s.checkCrc q hd = .crcBad q covered (hexVal field)) ∨
    (field.all isHex = false ∧ s.checkCrc q hd = .crcBad q covered 0) := by
  subst hcov hfield
  rw [State.checkCrc]
  cases h : (s.bufBytes .rxbuf (q + 24) 8).all isHex with
  | false => exact .inr (.inr ⟨rfl, by simp⟩)
  | true =>
    by_cases h2 : hexVal (s.bufBytes .rxbuf (q + 24) 8) = s.cfg.crc32
        (s.bufBytes .rxbuf q 24 ++ s.bufBytes .rxbuf (q + 32) hd.payload)
    · exact .inl ⟨rfl, h2, by simp [h2]⟩
    · exact .inr (.inl ⟨rfl, h2, by simp [h2]⟩)

theorem State.rxRangeBad_eq_false {s : State} (h1 : s.rxLen.toNat ≤ s.cfg.rxbufBytes)
    (h2 : s.rxPos.toNat ≤ s.rxLen.toNat) : s.rxRangeBad = false := by
  rw [State.rxRangeBad, decide_eq_false_iff_not]
  omega

/-- `SCAN` within range applies what its attempt found (rule R202). -/
theorem execScan_of_range {s : State} (h1 : s.rxLen.toNat ≤ s.cfg.rxbufBytes)
    (h2 : s.rxPos.toNat ≤ s.rxLen.toNat) : execScan s = .next (s.applyScan s.scanWindow) := by
  rw [execScan, State.rxRangeBad_eq_false h1 h2]
  rfl

/-- `SCAN` out of range (rule R203). -/
theorem execScan_of_bad {s : State} (h : s.rxRangeBad = true) :
    execScan s = .next (s.raise .badRange) := by
  rw [execScan, h]
  rfl

/-- Everything one attempt can find, with how far the burst reaches (rules R204 to R211). -/
theorem State.scanWindow_outcomes (s : State) :
    s.scanWindow = .noMagic ∨
    ∃ q, s.rxPos.toNat ≤ q ∧ q + 4 ≤ s.rxLen.toNat ∧ s.scanWindow = s.scanAt q ∧
      (s.scanWindow = .short q ∨
        (s.scanWindow = .malformed q ∧ q + 32 ≤ s.rxLen.toNat) ∨
        (∃ covered rcvd, s.scanWindow = .crcBad q covered rcvd ∧ q + 32 ≤ s.rxLen.toNat) ∨
        ∃ hd covered, classify (s.bufBytes .rxbuf q 24) = some hd ∧
          s.scanWindow = .verified q (s.bufBytes .rxbuf q 24) hd covered ∧
          q + 32 + hd.payload ≤ s.rxLen.toNat) := by
  rcases s.scanWindow_cases with ⟨h, -⟩ | ⟨q, h, h1, h2, -, -⟩
  · exact .inl h
  · refine .inr ⟨q, h1, h2, h, ?_⟩
    rw [h]
    rcases s.scanAt_cases q with ⟨_, b⟩ | ⟨_, -, b⟩ | ⟨hd, _, b, ⟨_, d⟩ | ⟨_, d⟩⟩
    · exact .inl b
    · exact .inr (.inl ⟨b, by omega⟩)
    · exact .inl d
    · rw [d]
      rcases s.checkCrc_cases q hd _ _ rfl rfl with ⟨-, -, e⟩ | ⟨-, -, e⟩ | ⟨-, e⟩
      · exact .inr (.inr (.inr ⟨hd, _, b, e, by omega⟩))
      · exact .inr (.inr (.inl ⟨_, _, e, by omega⟩))
      · exact .inr (.inr (.inl ⟨_, _, e, by omega⟩))

/-- A CRC that an attempt computes covers at least a header (rules R172, R209). -/
theorem State.scanWindow_covered_ne_nil {s : State} {covered : List Byte}
    (h : (∃ q rcvd, s.scanWindow = .crcBad q covered rcvd) ∨
      ∃ q hdr hd, s.scanWindow = .verified q hdr hd covered) : covered ≠ [] := by
  have key : ∀ q hd, s.bufBytes .rxbuf q 24 ++ s.bufBytes .rxbuf (q + 32) hd ≠ [] := by
    intro q hd he
    have := congrArg List.length he
    rw [List.length_append, State.length_bufBytes, List.length_nil] at this
    omega
  rcases s.scanWindow_cases with ⟨e, -⟩ | ⟨q, e, -⟩
  · rcases h with ⟨_, _, h⟩ | ⟨_, _, _, h⟩ <;> rw [e] at h <;> cases h
  rcases s.scanAt_cases q with ⟨-, d⟩ | ⟨-, -, d⟩ | ⟨hd, -, -, ⟨-, d⟩ | ⟨-, d⟩⟩
  · rcases h with ⟨_, _, h⟩ | ⟨_, _, _, h⟩ <;> rw [e, d] at h <;> cases h
  · rcases h with ⟨_, _, h⟩ | ⟨_, _, _, h⟩ <;> rw [e, d] at h <;> cases h
  · rcases h with ⟨_, _, h⟩ | ⟨_, _, _, h⟩ <;> rw [e, d] at h <;> cases h
  · rcases s.checkCrc_cases q hd _ _ rfl rfl with ⟨-, -, c⟩ | ⟨-, -, c⟩ | ⟨-, c⟩ <;>
      rcases h with ⟨_, _, h⟩ | ⟨_, _, _, h⟩ <;> rw [e, d, c] at h <;> cases h <;> exact key q _

end Sys2Proof.Machine
end

