-- ==== Sys2Proof/Machine/HostProgram.lean ====
section
/-! DEFINITION. The host's side in assembler form: register and buffer accesses, command writes and the
pseudo-instructions (rules R116, R117), each as the events it stands for. -/

namespace Sys2Proof.Machine

/-- `WR <register>, v` (rule R116). -/
def wrReg (c : Config) (r : Reg) (v : Word) : List Event := [.write (c.regBase + r.offset) 4 v]

/-- `RD <register>` (rule R116). -/
def rdReg (c : Config) (r : Reg) : List Event := [.read (c.regBase + r.offset) 4]

/-- `WR BUF[i], v`, `WR2`, `WR4`: `n` bytes at index `i` (rule R116). -/
def wrBuf (c : Config) (b : Buf) (i n : Nat) (v : Word) : List Event := [.write (c.base b + i) n v]

/-- `RD BUF[i]` of `n` bytes (rule R116). -/
def rdBuf (c : Config) (b : Buf) (i n : Nat) : List Event := [.read (c.base b + i) n]

/-- A command mnemonic: a write of its word to `CMD` (rule R116). -/
def command (c : Config) (i : Instr) : List Event := wrReg c .cmd (encode i)

/-- `WAIT`: `polls` reads of `STATUS` that find `BUSY` 1, the engine's step, and the read that finds
`BUSY` 0 (rules R117, R259). -/
def wait (c : Config) (polls : Nat) : List Event :=
  (List.replicate polls (rdReg c .status)).flatten ++ [.engine] ++ rdReg c .status

/-- A command and its `WAIT`. -/
def run (c : Config) (polls : Nat) (i : Instr) : List Event := command c i ++ wait c polls

/-- `PIPE_ENC #k` (rule R117). -/
def pipeEnc (c : Config) (polls k : Nat) : List Event :=
  run c polls .grayEnc ++ command c (.bpEnc k)

/-- `PIPE_DEC #k` (rule R117). -/
def pipeDec (c : Config) (polls k : Nat) : List Event :=
  run c polls (.bpDec k) ++ command c .grayDec

/-- `CRC_STR s` (rule R117). -/
def crcStr (c : Config) (polls : Nat) (bs : List Byte) : List Event :=
  run c polls .crcInit ++ bs.flatMap fun b => wrReg c .crcData (b.setWidth 32)

/-- `RENDER_ALL` for a packet of `n` data bursts, without the host's copies to the link (rule R117). -/
def renderAll (c : Config) (polls n : Nat) : List Event :=
  run c polls .frame ++ (List.range (n + 2)).flatMap fun idx => run c polls (.render idx)

end Sys2Proof.Machine
end

