-- ==== Sys2Proof/Tests/Slice0.lean ====
section
/-! SUPPORT. Smoke tests of the well-formedness checks, words written out from the encoding tables, one-step
tests whose expected values are those of `95_test_vectors.md` and of the rules' own examples, and for each
obligation with hypotheses a concrete state that meets them. -/

open Sys2Proof Sys2Proof.Machine

namespace Sys2Proof.Tests

/-! ### Helpers -/

/-- The state a step answers, if it answers one. -/
def next? : Host.Outcome State Fault Refusal → Option State
  | .next s => some s
  | .fault _ => none
  | .refused _ => none

/-- Bytes from numbers. -/
def bytes (ns : List Nat) : List Byte := ns.map (BitVec.ofNat 8)

/-- The reset state with some bytes at the start of a buffer. -/
def holding (b : Buf) (ns : List Nat) : State := State.reset.bufWrite b 0 (bytes ns)

/-- A received string at the start of RXBUF. -/
def received (ns : List Nat) : State :=
  { holding .rxbuf ns with rxLen := BitVec.ofNat 32 ns.length }

/-- The reset state with events ordered. -/
def ordered (es : List Event) : State := { State.reset with script := es }

/-- Burst B0 (vector V21): `"BRST0770123450001" "000" "0003" "55433E97"`. -/
def burstB0 : List Nat :=
  [0x42, 0x52, 0x53, 0x54, 0x30, 0x37, 0x37, 0x30, 0x31, 0x32, 0x33, 0x34, 0x35, 0x30, 0x30, 0x30] ++
  [0x31, 0x30, 0x30, 0x30, 0x30, 0x30, 0x30, 0x33, 0x35, 0x35, 0x34, 0x33, 0x33, 0x45, 0x39, 0x37]

/-- Burst B4 (vector V24): `"BRST0770123450001" "ZZZZZZZ" "BACF6DAC"`. -/
def burstB4 : List Nat :=
  burstB0.take 17 ++ [0x5A, 0x5A, 0x5A, 0x5A, 0x5A, 0x5A, 0x5A] ++
  [0x42, 0x41, 0x43, 0x46, 0x36, 0x44, 0x41, 0x43]

/-- Vector V54: data burst 1 of size 0, `"F12A469D"`. -/
def burstEmpty : List Nat :=
  burstB0.take 17 ++ [0x30, 0x30, 0x31, 0x30, 0x30, 0x30, 0x30] ++
  [0x46, 0x31, 0x32, 0x41, 0x34, 0x36, 0x39, 0x44]

/-- The header of vector V20: data burst 3 of 44 bytes. -/
def headerB3 : List Nat := burstB0.take 17 ++ [0x30, 0x30, 0x33, 0x30, 0x30, 0x34, 0x34]

/-- A framed packet of one byte (vector V11) with the identity of vector V20. -/
def framedOne : State :=
  { holding .pkt [0xA5] with
    txSerial := 770, txProfile := 12345, txPacket := 1, burstSize := 128, pktLen := 1,
    burstCount := 1, framed := true }

/-! ### Well-formedness: each check refuses an ill-formed command -/

theorem test_wf_render_refused : (Instr.render 65536).wellFormed = false := by decide
theorem test_wf_bpEnc_refused : (Instr.bpEnc 8).wellFormed = false := by decide
theorem test_wf_bpDec_refused : (Instr.bpDec 8).wellFormed = false := by decide

/-! ### Decoding words written out from the encoding tables (rules R110 to R114, vectors V78 to V87) -/

theorem test_decode_nop : decode 0b00000000000000000000000000000000 = .command .nop := by decide
theorem test_decode_srst : decode 0b00000000000000000000000000000001 = .command .srst := by decide
theorem test_decode_crcInit : decode 0b00000000000000000000000000010000 = .command .crcInit := by decide
theorem test_decode_frame : decode 0b00000000000000000000000000100000 = .command .frame := by decide
theorem test_decode_render : decode 0b00000000000000110000000000100001 = .command (.render 3) := by
  decide
theorem test_decode_scan : decode 0b00000000000000000000000000110000 = .command .scan := by decide
theorem test_decode_rxcompact : decode 0b00000000000000000000000000110001 = .command .rxcompact := by
  decide
theorem test_decode_grayEnc : decode 0b00000000000000000000000001000000 = .command .grayEnc := by decide
theorem test_decode_grayDec : decode 0b00000000000000000000000001000001 = .command .grayDec := by decide
theorem test_decode_bpEnc : decode 0b00000000000000000000001101000010 = .command (.bpEnc 3) := by decide
theorem test_decode_bpDec : decode 0b00000000000000000000011101000011 = .command (.bpDec 7) := by decide
theorem test_decode_illegal :
    decode 0x00000099 = .illegal .undefinedOp ∧ decode 0x00000842 = .illegal .modNotZero ∧
      decode 0x00010020 = .illegal .argNotZero := by decide
theorem test_decodeTableWord :
    decodeTableWord 32 0x00030021 = some (.render 3) ∧ decodeTableWord 8 0x42 = some (.bpEnc 0) ∧
      decodeTableWord 32 0x00000101 = none := by decide

/-! ### One step of each command -/

/-- Rule R231's example: `STATUS` 0x00200006 becomes 0x00000006. -/
theorem test_nop :
    (next? (step (State.withFetchWord
      { State.reset with lastop := 0x20, framed := true, done := true } 32 0))).map
        (fun t => t.regValue .status) = some 0x00000006 := by decide

/-- Rule R232's example. -/
theorem test_srst :
    (next? (exec .srst { State.reset with fault := 0x10, burstSize := 128, txSerial := 770 })).map
        (fun t => (t.regValue .fault, t.regValue .status, t.regValue .burstSize)) =
      some (0, 0x00010002, 0) := by decide

/-- Vector V1. -/
theorem test_crcInit :
    (next? (exec .crcInit { State.reset with crcAcc := 0x174841BC })).map
        (fun t => (t.regValue .crcAcc, t.regValue .crcVal)) = some (0xFFFFFFFF, 0) := by decide

/-- Vector V15. -/
theorem test_frame :
    (next? (step (State.withFetchWord
      { State.reset with pktLen := 300, burstSize := 128 } 32 0x20))).map
        (fun t => (t.regValue .burstCount, t.regValue .status)) = some (3, 0x00200006) := by decide

/-- Vector V19c: 65537 bytes. -/
theorem test_frame_bad_cfg :
    (next? (exec .frame { State.reset with pktLen := 65537, burstSize := 128 })).map
        (fun t => (t.regValue .fault, t.regValue .burstCount)) = some (0x04, 0) := by decide

/-- Vector V27: a terminal burst, every identity field reduced. -/
theorem test_render_terminal :
    (next? (exec (.render 1)
      { State.reset with
        txSerial := 65535, txProfile := 65535, txPacket := 12345, burstSize := 128,
        framed := true })).map (fun t => (t.bufBytes .txbuf 0 32, t.txLen)) =
      some (bytes ([0x42, 0x52, 0x53, 0x54, 0x35, 0x35, 0x33, 0x35, 0x36, 0x35, 0x35, 0x33, 0x35] ++
        [0x32, 0x33, 0x34, 0x35, 0x5A, 0x5A, 0x5A, 0x5A, 0x5A, 0x5A, 0x5A] ++
        [0x39, 0x33, 0x34, 0x33, 0x36, 0x37, 0x37, 0x44]), 32) := by decide +kernel

/-- Vector V25: index 5 of a packet of three bursts. -/
theorem test_render_bad_index :
    (next? (step (State.withFetchWord
      { State.reset with burstCount := 3, framed := true } 32 0x00050021))).map
        (fun t => (t.regValue .fault, t.regValue .status)) = some (0x10, 0x0021FF0E) := by decide

/-- Vector V41: an announce burst is verified. -/
theorem test_scan_announce :
    (next? (exec .scan (received burstB0))).map (fun t =>
      (t.result, t.regValue .rxPos, t.regValue .rxKind, t.regValue .rxSerial, t.regValue .rxProfile,
        t.regValue .rxValue, t.regValue .rxCrcCalc, t.regValue .crcAcc)) =
      some (.announce, 32, 1, 770, 12345, 3, 0x55433E97, 0xAABCC168) := by decide +kernel

/-- Vector V47: `"abcdeBR"`, three bytes are kept. -/
theorem test_scan_partial :
    (next? (exec .scan (received [0x61, 0x62, 0x63, 0x64, 0x65, 0x42, 0x52]))).map
        (fun t => (t.result, t.regValue .rxPos)) = some (.needMore, 4) := by decide +kernel

/-- Rule R215 on the state vector V47 leaves: `"eBR"` moves to the front. -/
theorem test_rxcompact :
    (next? (exec .rxcompact
      { received [0x61, 0x62, 0x63, 0x64, 0x65, 0x42, 0x52] with rxPos := 4 })).map
        (fun t => (t.bufBytes .rxbuf 0 4, t.rxLen, t.rxPos)) =
      some (bytes [0x65, 0x42, 0x52, 0x64], 3, 0) := by decide +kernel

/-- Vector V65: two samples, the third is left alone. -/
theorem test_grayEnc :
    (next? (exec .grayEnc
      { holding .smp [0x12, 0x34, 0x56, 0x78, 0x9A, 0xBC] with nsamp := 2 })).map
        (fun t => t.bufBytes .smp 0 6) =
      some (bytes [0x1B, 0x2E, 0x7D, 0x44, 0x9A, 0xBC]) := by decide +kernel

/-- Vector V61. -/
theorem test_grayDec :
    (next? (exec .grayDec { holding .smp [0x1B, 0x2E, 0x80, 0x01] with nsamp := 2 })).map
        (fun t => t.bufBytes .smp 0 4) = some (bytes [0x12, 0x34, 0xFF, 0xFE]) := by decide +kernel

/-- Vector V72: three samples. -/
theorem test_bpEnc :
    (next? (exec (.bpEnc 0)
      { holding .smp [0x80, 0x01, 0x40, 0x02, 0xC0, 0x03] with nsamp := 3 })).map
        (fun t => (t.plnLen, t.bufBytes .pln 0 16)) =
      some (16, bytes [0xA0, 0x60, 0, 0, 0, 0, 0, 0, 0, 0, 0, 0, 0, 0, 0x60, 0xA0]) := by
  decide +kernel

/-- Rule R155 on the planes of vector V72 with `k` = 1: bit 0 is dropped. -/
theorem test_bpDec :
    (next? (exec (.bpDec 1)
      { holding .pln [0xA0, 0x60, 0, 0, 0, 0, 0, 0, 0, 0, 0, 0, 0, 0, 0x60, 0xA0] with
        nsamp := 3 })).map
        (fun t => (t.plnLen, t.bufBytes .smp 0 6)) =
      some (15, bytes [0x80, 0x00, 0x40, 0x02, 0xC0, 0x02]) := by decide +kernel

/-! ### Host accesses, lock, interrupt -/

/-- Rule R72's example: 0x11223344 written at TXBUF, the byte at offset 1 reads 0x22. -/
theorem test_big_endian :
    ((State.reset.hostWrite 0x04000 4 0x11223344).hostRead 0x04001 1).busResp = some (.data 0x22) := by
  decide

/-- Vector V9: only the low byte of a `CRC_DATA` write is fed. -/
theorem test_crc_data :
    ((State.reset.hostWrite 0x18 4 0xFFFFFF61).regValue .crcVal) = 0xE8B7BE43 := by decide +kernel

/-- Vectors V80 and V81: an illegal word, then a `NOP` that the lock ignores. -/
theorem test_lock :
    (next? (step (State.reset.withFetchWord 32 0x99))).map
        (fun t => (t.regValue .status, (t.hostWrite 0 4 0).regValue .status)) =
      some (0x0099FF0A, 0x0099FF0A) := by decide

/-- Vector V90: `STATUS` between acceptance and the engine's step. -/
theorem test_busy_status :
    ((State.reset.hostWrite 0 4 0x20).hostRead 0x04 4).busResp = some (.data 0x00200001) := by decide

/-- Vector V88: `DONE` raises `irq`, writing 1 to `STATUS` bit 1 lowers it. -/
theorem test_irq :
    (next? (exec .nop { State.reset with ien := 1 })).map
        (fun t => (t.irq, (t.hostWrite 0x04 4 0x2).irq)) = some (true, false) := by decide

/-- Example S2: the CRC of the control-line prefix `RXED,0770,12345,0001,999,`. -/
theorem test_control_line :
    crc32 (controlPrefix .rxed 770 12345 1 999) = 0xEB6FEDF4 := by decide +kernel

/-- The size of the two wire lines software writes (rules R107, R108). -/
theorem test_line_lengths :
    (controlPrefix .rsnd 770 12345 1 2).length = 25 ∧ heartbeat.length = 6 := by decide

/-! ### Witnesses: states and operands that meet the hypotheses of the obligations -/

theorem witness_DecodeOfEncodeIsTheCommand :
    (Instr.render 65535).wellFormed = true ∧ (Instr.bpEnc 7).wellFormed = true ∧
      (Instr.bpDec 0).wellFormed = true := by decide

theorem witness_EncodeOfDecodeIsTheWord : decode 0xFFFF0021 = .command (.render 65535) := by decide

theorem witness_EngineTurnRunsThePendingCommand :
    ({ ordered [.engine] with pending := some 0x20 }).script = [.engine] ∧
    ({ State.reset with pending := some 0x20 }).script = [] ∧ decode 0x20 = .command .frame ∧
    ({ State.reset with pending := some 0x99 }).EngineTurn ∧ decode 0x99 = .illegal .undefinedOp ∧
    (ordered [.engine]).script = [.engine] ∧ (ordered [.engine]).pending = none ∧
    (Instr.render 65535).wellFormed = true := by decide

theorem witness_CmdWriteIsAcceptedOrIgnored :
    State.reset.cfg.Legal ∧
    (({ ordered [.write 0 4 0x20] with fault := 1 }).pending = none ∧ (1 : BitVec 7) ≠ 0 ∧
      (0x20 : Word) ≠ 0x00000001) ∧
    ((ordered [.write 0 4 0x20]).pending = none ∧ ¬ ((ordered []).fault ≠ 0 ∧ (0x20 : Word) ≠ 1)) ∧
    ¬ ((1 : BitVec 7) ≠ 0 ∧ (0x00000001 : Word) ≠ 0x00000001) := ⟨Config.default_legal, by decide⟩

theorem witness_IllegalWordRaisesIllegalCmd :
    let s := ordered [.write 0 4 0x99, .engine]
    s.cfg.Legal ∧ s.pending = none ∧ s.fault = 0 ∧ decode 0x99 = .illegal .undefinedOp ∧
      s.script = .write s.cfg.regBase 4 0x99 :: .engine :: [] := ⟨Config.default_legal, by decide⟩

theorem witness_PendingCommandIsEventuallyPerformed :
    ({ ordered [.read 0x04 4] with pending := some 0x20 }).pending = some 0x20 := by decide

theorem witness_EveryStepKeepsTheInvariant :
    Inv State.reset ∧ step State.reset = .next State.reset := by
  refine ⟨⟨Config.default_legal, by decide, by decide, ?_, by decide, by decide, by decide, by decide⟩, rfl⟩
  intro w h
  cases h

theorem witness_ResetStateIsComplete :
    (ordered [.hardReset [(0x08000, 0x42)]]).script = [.hardReset [(0x08000, 0x42)]] ∧
    Memory.wf [(0x08000, 0x42)] ∧
    ∀ c ∈ ([(0x08000, 0x42)] : Memory), (bufAt Config.default c.1).isSome := by decide

/-- The stability clause: a host write changes the last byte of PLN, a hardware reset the first of RXBUF, and
`GRAY_ENC` the high byte of the first sample. -/
theorem witness_ResetStateIsComplete_stable :
    ((next? (step (ordered [.write 0x1FFFF 1 0x42]))).map (·.mem.read 0x1FFFF) = some 0x42 ∧
      (ordered [.write 0x1FFFF 1 0x42]).mem.read 0x1FFFF = 0) ∧
    (next? (step (ordered [.hardReset [(0x08000, 0x42)]]))).map (·.mem.read 0x08000) = some 0x42 ∧
    ((next? (step { State.reset with mem := [(0x10000, 0x80)], nsamp := 1, pending := some 0x40 })).map
      (·.mem.read 0x10000) = some 0xC0) := by decide

theorem witness_CrcStreamsAndDetectsOneChangedByte : (0x00 : Byte) ≠ 0x80 := by decide

theorem witness_CrcDataPortFeedsOneByte :
    let w := ordered [.write 0x18 4 0x61]
    let r := ordered [.read 0x18 4]
    w.cfg.Legal ∧ w.pending = none ∧ w.script = .write (w.cfg.regBase + 0x18) 4 0x61 :: [] ∧
      r.script = .read (r.cfg.regBase + 0x18) 4 :: [] ∧ w.cfg = Config.default ∧
      w.crcAcc = 0xFFFFFFFF ∧ w.cfg.crc32fn = .decided := ⟨Config.default_legal, by decide⟩

theorem witness_OnlyFourCommandsTouchTheCrc :
    (∃ t, exec .crcInit { State.reset with crcAcc := 0 } = .next t ∧ t.crcAcc ≠ 0) ∧
    (State.reset.cfg.Legal ∧ ({ State.reset with crcFed := [0x61], crcAcc := 0x174841BC }).CrcCoherent ∧
      (ordered [.write 0x18 4 0x61]).CrcCoherent ∧ (ordered []).pending = none) ∧
    (∃ t, exec .scan State.reset = .next t ∧ t.result = .needMore) ∧
    (next? (exec .scan (received burstB0))).map (fun t => t.result) = some .announce :=
  ⟨⟨_, rfl, by decide⟩, ⟨Config.default_legal, by decide⟩, ⟨_, rfl, rfl⟩, by decide +kernel⟩

theorem witness_FrameComputesTheBurstCount :
    (128 : Word).toNat ∈ ([128, 256, 512, 1024, 2048, 4096, 8192] : List Nat) ∧
    (8192 : Word).toNat ∈ ([128, 256, 512, 1024, 2048, 4096, 8192] : List Nat) ∧
    (0 : Word).toNat ≤ Config.default.maxPacket ∧ (65536 : Word).toNat ≤ Config.default.maxPacket := by
  decide

theorem witness_FrameRefusesABadConfiguration :
    (0 : Word).toNat ∉ ([128, 256, 512, 1024, 2048, 4096, 8192] : List Nat) ∧
    (16384 : Word).toNat ∉ ([128, 256, 512, 1024, 2048, 4096, 8192] : List Nat) ∧
    Config.default.maxPacket < (65537 : Word).toNat := by decide

theorem witness_RenderFaultsInOrder :
    State.reset.framed = false ∧ framedOne.framed = true ∧ framedOne.burstCount.toNat + 1 < 3 := by
  decide

theorem witness_RenderWritesTheBurst :
    framedOne.mem.wf ∧ framedOne.FramedCoherent ∧ framedOne.framed = true ∧
      0 ≤ framedOne.burstCount.toNat + 1 ∧ 1 = framedOne.burstCount.toNat ∧
      2 ≤ framedOne.burstCount.toNat + 1 := by decide

/-- A packet of two bursts, the second of one byte. -/
theorem witness_RenderedPayloadsAreThePacket :
    ∃ (s : State) (ts : List State), s.mem.wf ∧ s.FramedCoherent ∧ s.framed = true ∧
      s.burstCount.toNat = 2 ∧ ts.length = s.burstCount.toNat ∧
      ∀ i, (h : i < ts.length) → exec (.render (i + 1)) s = .next ts[i] := by
  let s : State := { framedOne with pktLen := 129, burstCount := 2 }
  obtain ⟨t1, h1⟩ : ∃ t, exec (.render 1) s = .next t := ⟨_, exec_render_ok (by decide) (by decide)⟩
  obtain ⟨t2, h2⟩ : ∃ t, exec (.render 2) s = .next t := ⟨_, exec_render_ok (by decide) (by decide)⟩
  refine ⟨s, [t1, t2], by decide, by decide, by decide, by decide, rfl, fun i h => ?_⟩
  match i, h with
  | 0, _ => exact h1
  | 1, _ => exact h2

/-- The announce burst of a packet of three bursts (vector V21) and a block that received it. -/
theorem witness_ScanVerifiesWhatRenderWrote :
    let s : State := { framedOne with pktLen := 300, burstCount := 3 }
    let u := received burstB0
    s.mem.wf ∧ s.FramedCoherent ∧ s.framed = true ∧ 0 ≤ s.burstCount.toNat + 1 ∧
    u.cfg.crc32fn = s.cfg.crc32fn ∧ u.rxLen.toNat ≤ u.cfg.rxbufBytes ∧
    (next? (exec (.render 0) s)).map (fun t =>
      (decide (u.rxPos.toNat + t.txLen.toNat ≤ u.rxLen.toNat),
        decide (u.bufBytes .rxbuf u.rxPos.toNat t.txLen.toNat = t.bufBytes .txbuf 0 t.txLen.toNat))) =
      some (true, true) := by decide +kernel

/-- The data burst and the terminal burst of a packet of one byte, each received alone. -/
theorem witness_ScanVerifiesWhatRenderWrote_data_terminal :
    (1 % 1000 ≠ 0) ∧ framedOne.burstCount.toNat = 1 ∧
    (let u := received ((framedOne.wireBytes 1).map BitVec.toNat)
     u.rxLen.toNat ≤ u.cfg.rxbufBytes ∧
      (next? (exec (.render 1) framedOne)).map (fun t =>
        (decide (u.rxPos.toNat + t.txLen.toNat ≤ u.rxLen.toNat),
          decide (u.bufBytes .rxbuf 0 t.txLen.toNat = t.bufBytes .txbuf 0 t.txLen.toNat))) =
        some (true, true)) ∧
    (let u := received ((framedOne.wireBytes 2).map BitVec.toNat)
     u.rxLen.toNat ≤ u.cfg.rxbufBytes ∧
      (next? (exec (.render 2) framedOne)).map (fun t =>
        (decide (u.rxPos.toNat + t.txLen.toNat ≤ u.rxLen.toNat),
          decide (u.bufBytes .rxbuf 0 t.txLen.toNat = t.bufBytes .txbuf 0 t.txLen.toNat))) =
        some (true, true)) := by decide +kernel

/-- The clause on a burst whose index is a multiple of 1000: the last of 1000 bursts, of one byte, in a block with a larger
PKT, received alone. -/
theorem witness_ScanVerifiesWhatRenderWrote_thousand :
    let s : State := { framedOne with
      cfg := { Config.default with maxPacket := 131072 }, pktLen := 127873, burstCount := 1000 }
    let u := received ((s.wireBytes 1000).map BitVec.toNat)
    s.mem.wf ∧ s.FramedCoherent ∧ s.framed = true ∧ 1000 ≤ s.burstCount.toNat + 1 ∧
    (1 ≤ 1000 ∧ 1000 ≤ s.burstCount.toNat ∧ 1000 % 1000 = 0) ∧
    u.cfg.crc32fn = s.cfg.crc32fn ∧ u.rxLen.toNat ≤ u.cfg.rxbufBytes ∧
    (next? (exec (.render 1000) s)).map (fun t =>
      (decide (u.rxPos.toNat + t.txLen.toNat ≤ u.rxLen.toNat),
        decide (u.bufBytes .rxbuf 0 t.txLen.toNat = t.bufBytes .txbuf 0 t.txLen.toNat))) =
      some (true, true) := by decide +kernel

theorem witness_ReceiveRangeCheck :
    ¬ ({ State.reset with rxLen := 5, rxPos := 6 }).RxRangeOk ∧
    ¬ ({ State.reset with rxLen := 16385 }).RxRangeOk ∧
    ({ State.reset with rxLen := 16384, rxPos := 16384 }).RxRangeOk := by decide

theorem witness_ScanKeepsAPartialMagic :
    (received [0x42, 0x52, 0x53]).RxRangeOk ∧
    ∀ q, (received [0x42, 0x52, 0x53]).rxPos.toNat ≤ q → q + 4 ≤ (received [0x42, 0x52, 0x53]).rxLen.toNat →
      ¬ (received [0x42, 0x52, 0x53]).MagicAt q := by
  refine ⟨by decide, fun q _ h => absurd h ?_⟩
  rw [show (received [0x42, 0x52, 0x53]).rxLen.toNat = 3 from rfl]
  omega

/-- One header for each clause, sizes 8192 and 9000 at and above the limit. -/
theorem witness_HeaderKindsAreToldApart :
    (let h := bytes (burstB0.take 5 ++ [0x41] ++ (burstB0.drop 6).take 18)
     h.length = 24 ∧ h.take 4 = magic ∧ ¬ (slice h 4 13).all isDigit) ∧
    (let h := bytes (burstB4.take 24)
     h.length = 24 ∧ h.take 4 = magic ∧ (slice h 4 13).all isDigit ∧ slice h 17 7 = terminalMark) ∧
    (let h := bytes (burstB0.take 24)
     h.length = 24 ∧ h.take 4 = magic ∧ (slice h 4 13).all isDigit ∧ (slice h 17 7).all isDigit ∧
       decVal (slice h 17 3) = 0) ∧
    (let h := bytes (burstB0.take 17 ++ [0x30, 0x30, 0x31, 0x38, 0x31, 0x39, 0x32])
     h.length = 24 ∧ h.take 4 = magic ∧ (slice h 4 13).all isDigit ∧ (slice h 17 7).all isDigit ∧
       decVal (slice h 17 3) ≠ 0 ∧ decVal (slice h 20 4) = 8192) ∧
    (let h := bytes (burstB0.take 17 ++ [0x30, 0x30, 0x31, 0x39, 0x30, 0x30, 0x30])
     h.length = 24 ∧ h.take 4 = magic ∧ (slice h 4 13).all isDigit ∧ (slice h 17 7).all isDigit ∧
       decVal (slice h 17 3) ≠ 0 ∧ 8192 < decVal (slice h 20 4)) ∧
    (let h := bytes (burstB0.take 17 ++ [0x5A] ++ (burstB0.drop 18).take 6)
     h.length = 24 ∧ h.take 4 = magic ∧ (slice h 4 13).all isDigit ∧ slice h 17 7 ≠ terminalMark ∧
       ¬ (slice h 17 7).all isDigit) := by decide

/-- 31 bytes of a header block; 75 of the 76 bytes of a burst of 44 (vectors V45, V46). -/
theorem witness_ScanWaitsForEnoughBytes :
    ((received (burstB0.take 31)).RxRangeOk ∧ (received (burstB0.take 31)).FirstMagic 0 ∧
      (received (burstB0.take 31)).rxLen.toNat - 0 < 32) ∧
    (let s : State := { received headerB3 with rxLen := 75 }
     s.RxRangeOk ∧ s.FirstMagic 0 ∧
      classify (s.bufBytes .rxbuf 0 24) = some (.data 3 44) ∧
      s.rxLen.toNat - 0 < 32 + (Header.data 3 44).payload) := by decide +kernel

/-- Vector V48. -/
theorem witness_ScanSkipsAMalformedHeader :
    let s := received (burstB0.take 5 ++ [0x41] ++ burstB0.drop 6)
    s.RxRangeOk ∧ s.FirstMagic 0 ∧ 32 ≤ s.rxLen.toNat - 0 ∧
      classify (s.bufBytes .rxbuf 0 24) = none := by decide +kernel

/-- Vector V51 (a field that is not hex), and a field of zeros. -/
theorem witness_ScanRejectsACrcMismatch :
    (let s := received (burstB0.take 24 ++ [0x47] ++ burstB0.drop 25)
     s.RxRangeOk ∧ s.FirstMagic 0 ∧ classify (s.bufBytes .rxbuf 0 24) = some (.announce 3) ∧
      32 + (Header.announce 3).payload ≤ s.rxLen.toNat - 0 ∧
      ¬ (s.bufBytes .rxbuf 24 8).all isHex) ∧
    (let s := received (burstB0.take 24 ++ [0x30, 0x30, 0x30, 0x30, 0x30, 0x30, 0x30, 0x30])
     s.RxRangeOk ∧ s.FirstMagic 0 ∧ classify (s.bufBytes .rxbuf 0 24) = some (.announce 3) ∧
      (s.bufBytes .rxbuf 24 8).all isHex ∧
      hexVal (s.bufBytes .rxbuf 24 8) ≠ crc32 (bytes (burstB0.take 24))) := by
  decide +kernel

/-- The three kinds: vectors V41, V54, V43. -/
theorem witness_ScanReportsAVerifiedBurst :
    (let s := received burstB0
     s.RxRangeOk ∧ s.FirstMagic 0 ∧ classify (s.bufBytes .rxbuf 0 24) = some (.announce 3) ∧
      32 + (Header.announce 3).payload ≤ s.rxLen.toNat - 0 ∧ (s.bufBytes .rxbuf 24 8).all isHex ∧
      hexVal (s.bufBytes .rxbuf 24 8) = crc32 (s.bufBytes .rxbuf 0 24)) ∧
    (let s := received burstEmpty
     s.RxRangeOk ∧ s.FirstMagic 0 ∧ classify (s.bufBytes .rxbuf 0 24) = some (.data 1 0) ∧
      32 + (Header.data 1 0).payload ≤ s.rxLen.toNat - 0 ∧ (s.bufBytes .rxbuf 24 8).all isHex ∧
      hexVal (s.bufBytes .rxbuf 24 8) = crc32 (s.bufBytes .rxbuf 0 24)) ∧
    (let s := received burstB4
     s.RxRangeOk ∧ s.FirstMagic 0 ∧ classify (s.bufBytes .rxbuf 0 24) = some .terminal ∧
      32 + Header.terminal.payload ≤ s.rxLen.toNat - 0 ∧ (s.bufBytes .rxbuf 24 8).all isHex ∧
      hexVal (s.bufBytes .rxbuf 24 8) = crc32 (s.bufBytes .rxbuf 0 24)) := by
  decide +kernel

theorem witness_RepeatedScanEndsInNeedMore :
    (received burstB0).RxRangeOk ∧
    (next? (exec .scan (received burstB0))).map (fun t => t.result) = some .announce ∧
    (next? (exec .scan State.reset)).map (fun t => t.result) = some .needMore := by decide +kernel

/-- One byte changed in a burst that `SCAN` verifies, for each clause: a digit of the serial, the last digit of
the announced count, the number of a data burst, the mark of a terminal burst, a size digit to a letter,
and the payload of one byte; each change is the flip of one bit. -/
theorem witness_OneChangedByteIsNotVerified :
    State.reset.cfg.Legal ∧ State.reset.cfg.crc32fn = .decided ∧
    (∀ c ∈ ([(received burstB0, 5, .announce, 0), (received burstB0, 23, .announce, 0),
          (received burstEmpty, 17, .data, 1), (received burstB4, 17, .terminal, 0),
          (received burstEmpty, 20, .data, 6),
          (received ((framedOne.wireBytes 1).map BitVec.toNat), 32, .data, 0)] :
        List (State × Nat × RxKind × Nat)),
      let s := c.1
      let x := c.2.1
      let s' := s.bufWrite .rxbuf x [s.bufByte .rxbuf x ^^^ BitVec.twoPow 8 c.2.2.2]
      s.RxRangeOk ∧ s.FirstMagic 0 ∧
      (next? (exec .scan s)).map (fun t => t.rxKind) = some c.2.2.1 ∧
      s' = { s with mem := s'.mem } ∧ s'.bufByte .rxbuf x ≠ s.bufByte .rxbuf x ∧
      s'.bufByte .rxbuf x = s.bufByte .rxbuf x ^^^ BitVec.twoPow 8 c.2.2.2) ∧
    (received burstEmpty |>.bufWrite .rxbuf 17 [0x32]).bufBytes .rxbuf 17 3 ≠ [0x30, 0x30, 0x30] ∧
    0x39 < (0x70 : Byte).toNat := by
  refine ⟨Config.default_legal, rfl, ?_⟩
  decide +kernel

/-- A byte of the magic, the first CRC character to another digit, and the letter in the CRC `"55433E97"` to
lower case. -/
theorem witness_ChangedMagicOrCrcFieldIsSeen :
    let s := received burstB0
    s.RxRangeOk ∧ s.FirstMagic 0 ∧
    (next? (exec .scan s)).map (fun t => t.rxKind) = some .announce ∧
    (∀ c ∈ ([(0, 0x43), (24, 0x34), (29, 0x65)] : List (Nat × Byte)),
      (s.bufWrite .rxbuf c.1 [c.2]).bufByte .rxbuf c.1 ≠ s.bufByte .rxbuf c.1) ∧
    (0x41 ≤ (s.bufByte .rxbuf 29).toNat ∧ 0x65 = s.bufByte .rxbuf 29 ^^^ 0x20) ∧
    ¬ 0x41 ≤ (s.bufByte .rxbuf 24).toNat := by
  decide +kernel

/-- The bytes that the two witnesses above leave alone. -/
theorem witness_OneChangedByte_others (s : State) (x y : Nat) (b : Byte) (h : y ≠ x) :
    (s.bufWrite .rxbuf x [b]).bufByte .rxbuf y = s.bufByte .rxbuf y :=
  Memory.read_writeBytes_outside (a := s.cfg.base .rxbuf + x) (x := s.cfg.base .rxbuf + y) s.mem [b] (by
    simp only [List.length_cons, List.length_nil]
    omega)

theorem witness_RxcompactMovesTheTail :
    let s : State := { received burstB0 with rxPos := 4 }
    s.mem.wf ∧ s.RxRangeOk := by decide +kernel

theorem witness_PipelineRangeCheck :
    Config.default.nmax < (16385 : Word).toNat ∧ State.reset.nsamp = 0 ∧
    (0x00000842 : Word).extractLsb' 0 8 = 0x42 ∧ 8 ≤ ((0x00000842 : Word).extractLsb' 8 8).toNat ∧
    (0x0000FF43 : Word).extractLsb' 0 8 = 0x43 ∧
    8 ≤ ((0x0000FF43 : Word).extractLsb' 8 8).toNat := by decide

/-- For GrayEncTransformsEachSample, GrayDecTransformsEachSample, GrayCommandsUndoEachOther,
BpEncLaysOutThePlanes, BpDecRebuildsTheSamples, BitPlanesRoundTrip and PipelineKeepsTheHighBits: memory in
canonical form, a sample count at the limit and one that is no multiple of 8, and `k` at both ends. -/
theorem witness_pipeline :
    (let s : State := { holding .smp [0x12, 0x34, 0x56, 0x78] with nsamp := 16384 }
     s.mem.wf ∧ s.nsamp.toNat ≤ s.cfg.nmax) ∧
    (let s : State := { holding .pln [0xA0, 0x60] with nsamp := 3 }
     s.mem.wf ∧ s.nsamp.toNat ≤ s.cfg.nmax) ∧
    (0 : Nat) ≤ 7 ∧ (7 : Nat) ≤ 7 ∧ State.reset.cfg.Legal :=
  ⟨by decide +kernel, by decide +kernel, by decide, by decide, Config.default_legal⟩

theorem witness_AdjacentGrayCodesDifferInOneBit :
    (0xFFFE : Sample) ≠ 0xFFFF ∧ (0 : Sample) ≠ 0xFFFF := by decide

theorem witness_RaisingAFaultIsPrecise :
    let s : State := { State.reset with pending := some 0x20, lastop := 0x20, ien := 2 }
    s.EngineTurn ∧ s.pending = some 0x20 ∧
    (next? (step s)).map (fun t => (t.result, t.ien.getLsbD 1)) = some (.fault, true) := by decide

theorem witness_CommandsIgnoreTheFaultBits :
    Instr.frame ≠ .srst ∧ ∃ t, exec .frame State.reset = .next t := ⟨by decide, _, rfl⟩

/-- An address outside the buffer a command writes, for each buffer. -/
theorem witness_CommandsWriteOnlyTheirBuffer :
    Inv State.reset ∧ (Instr.render 0).wellFormed = true ∧
    (∃ t, exec (.render 0) State.reset = .next t) ∧
    bufAt State.reset.cfg 0x0601F = some .txbuf ∧ bufAt State.reset.cfg 0x06020 ≠ some .txbuf ∧
    bufAt State.reset.cfg 0x0C000 ≠ some .rxbuf ∧ bufAt State.reset.cfg 0x18000 ≠ some .smp ∧
    bufAt State.reset.cfg 0x20000 ≠ some .pln :=
  ⟨witness_EveryStepKeepsTheInvariant.1, by decide, ⟨_, rfl⟩, by decide, by decide, by decide,
    by decide, by decide⟩

theorem witness_FaultBitsAreSticky :
    let s : State := { ordered [.write 0x04 4 0x2] with fault := 0x40 }
    (next? (step s)).isSome ∧ s.script.head? = some (.write 0x04 4 0x2) ∧
      s.fault.getLsbD 6 = true := by decide

theorem witness_FramedChangesOnlyAsStated :
    (next? (step { State.reset with burstSize := 128, pending := some 0x20 })).map (fun t => t.framed) =
      some true ∧ State.reset.framed = false ∧
    (next? (step { framedOne with script := [.write 0x30 4 1] })).map (fun t => t.framed) =
      some false ∧ framedOne.framed = true := by decide

/-- The last byte of a buffer, a whole word that ends with it, and the first and the last register. -/
theorem witness_LegalAccessesAreExactlyThese :
    Config.default.Legal ∧ target Config.default 0x00 4 = some (.reg .cmd) ∧
    target Config.default 0x74 4 = some (.reg .plnLen) ∧
    target Config.default 0x0601F 1 = some (.buf .txbuf 8223) ∧
    target Config.default 0x0601C 4 = some (.buf .txbuf 8220) ∧
    target Config.default 0x2FFFE 2 = some (.buf .pkt 65534) := ⟨Config.default_legal, by decide⟩

/-- Misaligned, reserved, unmapped, off the end, a byte of a register, three bytes. -/
theorem witness_IllegalAccessSetsBadAccess :
    target State.reset.cfg 0x04001 2 = none ∧ target State.reset.cfg 0x1C 4 = none ∧
    target State.reset.cfg 0x06020 1 = none ∧ target State.reset.cfg 0x30000 4 = none ∧
    target State.reset.cfg 0x04 1 = none ∧ target State.reset.cfg 0x04000 3 = none ∧
    (ordered [.read 0x1C 4]).script = [.read 0x1C 4] ∧
    (ordered [.write 0x1C 4 0]).script = [.write 0x1C 4 0] := by decide

theorem witness_BusyAccessIsRefused :
    let b : List Event → State := fun es => { ordered es with pending := some 0x20 }
    (b []).pending.isSome = true ∧ (b [.write 0 4 1]).script = [.write 0 4 1] ∧
    target (b []).cfg 0x00 4 = some (.reg .cmd) ∧ target (b []).cfg 0x04 4 = some (.reg .status) ∧
    target (b []).cfg 0x08 4 = some (.reg .fault) ∧
    target (b []).cfg 0x04000 1 = some (.buf .txbuf 0) := by decide

theorem witness_ReadsReturnValuesAndChangeNothing :
    State.reset.pending = none ∧ target State.reset.cfg 0x10 4 = some (.reg .crcAcc) ∧
    target State.reset.cfg 0x10000 1 = some (.buf .smp 0) ∧
    target State.reset.cfg 0x17FFE 2 = some (.buf .smp 32766) ∧
    target State.reset.cfg 0x1FFFC 4 = some (.buf .pln 32764) := by decide

theorem witness_BufferWritesAreBigEndian :
    let s := ordered [.write 0x04000 4 0x11223344]
    s.mem.wf ∧ s.pending = none ∧ target s.cfg 0x04000 4 = some (.buf .txbuf 0) := by decide

theorem witness_RegisterWritesStoreTheWritableBits :
    let s := ordered [.write 0x04 4 0xFFFFFFFF]
    s.cfg.Legal ∧ s.pending = none ∧
      s.script = .write (s.cfg.regBase + Reg.status.offset) 4 0xFFFFFFFF :: [] ∧
      (0xFFFFFFFF : Word).getLsbD 1 = true ∧ (0xFFFFFFFD : Word).getLsbD 1 = false :=
  ⟨Config.default_legal, by decide⟩

/-- The first and the last register of the map. -/
theorem witness_EachRegisterReadsItsField :
    let s := ordered [.read 0x74 4]
    s.cfg.Legal ∧ s.pending = none ∧ s.script = .read (s.cfg.regBase + 0x74) 4 :: [] ∧
      (ordered [.read 0x00 4]).script = .read (s.cfg.regBase + 0x00) 4 :: [] :=
  ⟨Config.default_legal, by decide⟩

/-- Vector V103: `TX_SERIAL` stores and reads 16 bits. -/
theorem test_reserved_bits :
    ((State.reset.hostWrite 0x20 4 0x12345678).hostRead 0x20 4).busResp = some (.data 0x00005678) := by
  decide

theorem witness_ReadOnlyAndWriteOnlyRegisters :
    let s := ordered [.write 0x08 4 0x7F]
    let r := ordered [.read 0x00 4]
    s.cfg.Legal ∧ s.pending = none ∧
      s.script = .write (s.cfg.regBase + Reg.fault.offset) 4 0x7F :: [] ∧
      r.script = .read (r.cfg.regBase + Reg.cmd.offset) 4 :: [] := ⟨Config.default_legal, by decide⟩

end Sys2Proof.Tests
end

section
/-! SUPPORT. Host accesses to a register while nothing is pending, and rule R53: the registers whose writes are
ignored and the ones that read as 0. -/

namespace Sys2Proof.Machine

/-- A whole-word write to a register while not BUSY is that register's write effect, answered OK (rules R76,
R77). -/
theorem step_write_reg_idle {s : State} {v : Word} {rest : List Event} {r : Reg} (hc : s.cfg.Legal)
    (hp : s.pending = none) (h : s.script = .write (s.cfg.regBase + r.offset) 4 v :: rest) :
    step s = .next (((s.withScript rest).writeReg v r).respond .ok) := by
  have ht : target (s.withScript rest).cfg (s.cfg.regBase + r.offset) 4 = some (.reg r) :=
    target_reg hc r
  rw [step_write h, State.hostWrite_idle v ht hp, State.writeTarget]

/-- A whole-word read of a register while not BUSY answers its value and changes nothing else (rules R75, R77). -/
theorem step_read_reg_idle {s : State} {rest : List Event} {r : Reg} (hc : s.cfg.Legal)
    (hp : s.pending = none) (h : s.script = .read (s.cfg.regBase + r.offset) 4 :: rest) :
    step s = .next ((s.withScript rest).respond (.data ((s.withScript rest).regValue r))) := by
  have ht : target (s.withScript rest).cfg (s.cfg.regBase + r.offset) 4 = some (.reg r) :=
    target_reg hc r
  rw [step_read h, State.hostRead_idle ht hp, State.readTarget]

/-- The registers marked RO (rule R53). -/
def Reg.readOnly : List Reg :=
  [.fault, .crcAcc, .crcVal, .burstCount, .txLen, .rxKind, .rxSerial, .rxProfile, .rxPacket,
    .rxBurst, .rxValue, .rxPay, .rxCrcCalc, .rxCrcRcvd, .plnLen]

/-- The registers marked WO (rule R53). -/
def Reg.writeOnly : List Reg := [.cmd, .crcData]

/-- A read-only register has no write effect (rule R53). -/
theorem State.writeReg_of_mem_readOnly (s : State) (v : Word) {r : Reg} (hr : r ∈ Reg.readOnly) :
    s.writeReg v r = s := by
  unfold Reg.readOnly at hr
  fin_cases hr <;> rfl

/-- A write-only register reads as 0 (rule R53). -/
theorem State.regValue_of_mem_writeOnly (s : State) {r : Reg} (hr : r ∈ Reg.writeOnly) :
    s.regValue r = 0 := by
  unfold Reg.writeOnly at hr
  fin_cases hr <;> rfl

end Sys2Proof.Machine
end

section
/-! PROOFS. The family `10_state.md`. -/

namespace Sys2Proof

open Machine

/-- Settles O60: the access reaches its register, whose write effect is none (RO) or whose value is 0 (WO). -/
theorem readOnlyAndWriteOnlyRegisters : Obligations.ReadOnlyAndWriteOnlyRegisters := by
  refine ⟨fun s v rest r hc hp hr h => ?_, fun s rest r hc hp hr h => ?_⟩
  · rw [step_write_reg_idle hc hp h, State.writeReg_of_mem_readOnly _ v hr]
    rfl
  · rw [step_read_reg_idle hc hp h, State.regValue_of_mem_writeOnly _ hr]
    rfl

end Sys2Proof
end

section
/-! SUPPORT. What an access that reaches a register or a buffer must look like (rule R77): the converses of
`target_reg` and `target_buf`. -/

namespace Sys2Proof.Machine

/-- An access that reaches a register is an aligned whole-word access at its offset (rule R77 (a)). -/
theorem target_eq_reg {c : Config} {addr n : Nat} {r : Reg} (h : target c addr n = some (.reg r)) :
    n = 4 ∧ addr % 4 = 0 ∧ addr = c.regBase + r.offset := by
  unfold target at h
  split at h
  next hin =>
    split at h
    next hw =>
      obtain ⟨hn, ha⟩ := hw
      obtain ⟨r', hr, ⟨⟩⟩ := Option.map_eq_some_iff.1 h
      have ho := Reg.ofOffset_eq_some hr
      have hlo : c.regBase ≤ addr := (of_decide_eq_true hin).1
      exact ⟨hn, ha, by omega⟩
    next => cases h
  next =>
    split at h
    next => cases h
    next => split at h <;> cases h

/-- An access that reaches a buffer is of 1, 2 or 4 bytes, aligned to its size, and ends inside the buffer's region
(rule R77 (b)). -/
theorem target_eq_buf {c : Config} {addr n : Nat} {b : Buf} {off : Nat}
    (h : target c addr n = some (.buf b off)) :
    addr = c.base b + off ∧ (n = 1 ∨ n = 2 ∨ n = 4) ∧ addr % n = 0 ∧
      addr + n - 1 < c.base b + c.size b := by
  unfold target at h
  split at h
  next =>
    split at h
    next => obtain ⟨r, -, ⟨⟩⟩ := Option.map_eq_some_iff.1 h
    next => cases h
  next =>
    split at h
    next => cases h
    next b' hb =>
      split at h
      next hw =>
        cases h
        obtain ⟨hn, ha, hend⟩ := hw
        obtain ⟨hlo, -⟩ := bufAt_eq_some hb
        exact ⟨by omega, hn, ha, hend⟩
      next => cases h

end Sys2Proof.Machine
end

section
/-! PROOFS. The family `20_memory.md`. -/

namespace Sys2Proof

open Machine

/-- Settles O53: an access reaches a register or a buffer only in the form rule R77 gives, and each access of that form
reaches it, since in a legal configuration the six regions are disjoint. -/
theorem legalAccessesAreExactlyThese : Obligations.LegalAccessesAreExactlyThese := by
  refine fun c addr n hc => ⟨fun r => ⟨target_eq_reg, ?_⟩, fun b off => ⟨target_eq_buf, ?_⟩⟩
  · rintro ⟨rfl, -, rfl⟩
    exact target_reg hc r
  · rintro ⟨rfl, hn, ha, hend⟩
    exact target_buf hc b hn ha (by omega)

end Sys2Proof
end

section
/-! SUPPORT. The decoder inverts the encoder, and what a mask asks of the three fields of a word (rules R110 to
R114). -/

namespace Sys2Proof

/-- A word in range is built from its fields and no others. -/
theorem eq_packWord_iff {op md arg : Nat} (ho : op < 256) (hm : md < 256) (ha : arg < 65536) (w : Word) :
    w = packWord op md arg ↔ opField w = op ∧ modField w = md ∧ argField w = arg := by
  refine ⟨?_, ?_⟩
  · rintro rfl
    rw [opField_packWord, modField_packWord, argField_packWord]
    exact ⟨Nat.mod_eq_of_lt ho, Nat.mod_eq_of_lt hm, Nat.mod_eq_of_lt ha⟩
  · rintro ⟨rfl, rfl, rfl⟩
    exact (packWord_fields w).symm

/-- Words are masked field by field. -/
theorem packWord_and (op md arg op' md' arg' : Nat) :
    packWord op md arg &&& packWord op' md' arg' = packWord (op &&& op') (md &&& md') (arg &&& arg') := by
  simp only [packWord, BitVec.ofNat_and, ← BitVec.and_append]

/-- A word matches under a mask when each of its fields does. -/
theorem and_packWord_eq_iff {op md arg : Nat} (ho : op < 256) (hm : md < 256) (ha : arg < 65536)
    (w : Word) (op' md' arg' : Nat) :
    w &&& packWord op' md' arg' = packWord op md arg ↔
      opField w &&& op' = op ∧ modField w &&& md' = md ∧ argField w &&& arg' = arg := by
  conv_lhs => rw [← packWord_fields w, packWord_and]
  rw [eq_packWord_iff ho hm ha, opField_packWord, modField_packWord, argField_packWord,
    Nat.mod_eq_of_lt (Nat.and_le_left.trans_lt (opField_lt w)),
    Nat.mod_eq_of_lt (Nat.and_le_left.trans_lt (modField_lt w)),
    Nat.mod_eq_of_lt (Nat.and_le_left.trans_lt (argField_lt w))]

/-- What the opcode map answers is the command whose word has these fields, and its immediates fit. -/
theorem decodeFields_eq_command {op md arg : Nat} {i : Instr} (ha : arg < 65536)
    (h : decodeFields op md arg = .command i) : i.wellFormed = true ∧ encode i = packWord op md arg := by
  unfold decodeFields at h
  split at h
  case h_5 =>
    obtain ⟨rfl, rfl⟩ := formatI_eq_command h
    exact ⟨decide_eq_true (by omega), rfl⟩
  case h_10 | h_11 =>
    obtain ⟨hk, rfl, rfl⟩ := formatK_eq_command h
    exact ⟨decide_eq_true (by omega), rfl⟩
  case h_12 => cases h
  all_goals
    obtain ⟨rfl, rfl, rfl⟩ := formatN_eq_command h
    exact ⟨rfl, rfl⟩

/-- The word of a well-formed command decodes to it. -/
theorem decode_encode {i : Instr} (h : i.wellFormed = true) : decode (encode i) = .command i := by
  revert h
  cases i with
  | nop => exact Laws.EncodeRoundTrip.nop
  | srst => exact Laws.EncodeRoundTrip.srst
  | crcInit => exact Laws.EncodeRoundTrip.crcInit
  | frame => exact Laws.EncodeRoundTrip.frame
  | render idx => exact Laws.EncodeRoundTrip.render idx
  | scan => exact Laws.EncodeRoundTrip.scan
  | rxcompact => exact Laws.EncodeRoundTrip.rxcompact
  | grayEnc => exact Laws.EncodeRoundTrip.grayEnc
  | grayDec => exact Laws.EncodeRoundTrip.grayDec
  | bpEnc k => exact Laws.EncodeRoundTrip.bpEnc k
  | bpDec k => exact Laws.EncodeRoundTrip.bpDec k

/-- A word is a command exactly when it is that command's encoding. -/
theorem decode_eq_command_iff {w : Word} {i : Instr} :
    decode w = .command i ↔ i.wellFormed = true ∧ w = encode i := by
  refine ⟨fun h => ?_, ?_⟩
  · obtain ⟨hwf, he⟩ := decodeFields_eq_command (argField_lt w) h
    exact ⟨hwf, by rw [he, packWord_fields]⟩
  · rintro ⟨hwf, rfl⟩
    exact decode_encode hwf

theorem decode_ne_command_of_illegal {w : Word} {why : IllegalWord} (h : decode w = .illegal why) (i : Instr) :
    decode w ≠ .command i := by
  rw [h]
  exact nofun

/-! ### Match and mask, format by format (rule R114) -/

/-- The upper five bits of a byte are what is left of it without its remainder modulo 8. -/
theorem and_upper_five {md : Nat} (h : md < 256) : md &&& 0xF8 = 8 * (md / 8) := by
  have hq : (md &&& 0xF8) / 2 ^ 3 = md / 2 ^ 3 := by
    rw [Nat.and_div_two_pow]
    exact Nat.and_two_pow_sub_one_of_lt_two_pow (n := 5) (by omega)
  have hr : (md &&& 0xF8) % 2 ^ 3 = 0 := by
    rw [Nat.and_mod_two_pow]
    exact Nat.and_zero _
  omega

theorem toNat_extractLsb'_modLow (w : Word) : (w.extractLsb' 8 3).toNat = modField w % 8 := by
  rw [modField, BitVec.extractLsb'_toNat, BitVec.extractLsb'_toNat]
  omega

/-- The mask of format I keeps `OP` and `MOD`. -/
theorem and_maskI_eq_iff (w : Word) {op : Nat} (ho : op < 256) :
    w &&& 0x0000FFFF = packWord op 0 0 ↔ opField w = op ∧ modField w = 0 := by
  rw [show (0x0000FFFF : Word) = packWord 0xFF 0xFF 0 by decide,
    and_packWord_eq_iff ho (by omega) (by omega), show 0xFF = 2 ^ 8 - 1 by rfl,
    Nat.and_two_pow_sub_one_of_lt_two_pow (opField_lt w),
    Nat.and_two_pow_sub_one_of_lt_two_pow (modField_lt w), Nat.and_zero]
  simp only [and_true]

/-- The mask of format K keeps `OP`, bits 7:3 of `MOD` and `ARG`. -/
theorem and_maskK_eq_iff (w : Word) {op : Nat} (ho : op < 256) :
    w &&& 0xFFFFF8FF = packWord op 0 0 ↔ opField w = op ∧ modField w < 8 ∧ argField w = 0 := by
  rw [show (0xFFFFF8FF : Word) = packWord 0xFF 0xF8 0xFFFF by decide,
    and_packWord_eq_iff ho (by omega) (by omega), and_upper_five (modField_lt w),
    show 0xFF = 2 ^ 8 - 1 by rfl, Nat.and_two_pow_sub_one_of_lt_two_pow (opField_lt w),
    show 0xFFFF = 2 ^ 16 - 1 by rfl, Nat.and_two_pow_sub_one_of_lt_two_pow (argField_lt w)]
  omega

/-- Format N: every bit of the word is matched. -/
theorem decode_eq_command_iff_matchN {i : Instr} (hi : i.wellFormed = true) (w : Word) :
    decode w = .command i ↔ w &&& 0xFFFFFFFF = encode i := by
  rw [decode_eq_command_iff, and_iff_right hi, show w &&& 0xFFFFFFFF = w from BitVec.and_allOnes]

/-- Format I: the free field is `ARG`. -/
theorem decode_eq_render_iff (w : Word) (idx : Nat) :
    decode w = .command (.render idx) ↔
      w &&& 0x0000FFFF = packWord 0x21 0 0 ∧ idx = (w.extractLsb' 16 16).toNat := by
  have harg := argField_lt w
  rw [decode_eq_command_iff, Instr.wellFormed, encode, decide_eq_true_iff, and_maskI_eq_iff w (by omega)]
  change _ ↔ _ ∧ idx = argField w
  constructor
  · rintro ⟨hi, he⟩
    obtain ⟨hop, hmod, ha⟩ := (eq_packWord_iff (by omega) (by omega) (by omega) w).1 he
    exact ⟨⟨hop, hmod⟩, ha.symm⟩
  · rintro ⟨⟨hop, hmod⟩, rfl⟩
    exact ⟨by omega, (eq_packWord_iff (by omega) (by omega) harg w).2 ⟨hop, hmod, rfl⟩⟩

/-- Format K, for a command `f k` of this format: the free field is bits 2:0 of `MOD`. -/
theorem decode_eq_command_iff_matchK {f : Nat → Instr} {op : Nat} (ho : op < 256)
    (hwf : ∀ k, (f k).wellFormed = decide (k ≤ 7)) (he : ∀ k, encode (f k) = packWord op k 0)
    (w : Word) (k : Nat) :
    decode w = .command (f k) ↔
      w &&& 0xFFFFF8FF = packWord op 0 0 ∧ k = (w.extractLsb' 8 3).toNat := by
  rw [decode_eq_command_iff, hwf, he, decide_eq_true_iff, and_maskK_eq_iff w ho, toNat_extractLsb'_modLow]
  constructor
  · rintro ⟨hk, hw⟩
    obtain ⟨hop, hmod, harg⟩ := (eq_packWord_iff ho (by omega) (by omega) w).1 hw
    exact ⟨⟨hop, by omega, harg⟩, by omega⟩
  · rintro ⟨⟨hop, hmod, harg⟩, hk⟩
    exact ⟨by omega, (eq_packWord_iff ho (by omega) (by omega) w).2 ⟨hop, by omega, harg⟩⟩

end Sys2Proof
end

section
/-! SUPPORT. Classification of a header, branch by branch (rule R106). -/

namespace Sys2Proof.Machine

theorem all_isDigit_iff (bs : List Byte) :
    bs.all isDigit = true ↔ ∀ b ∈ bs, 0x30 ≤ b.toNat ∧ b.toNat ≤ 0x39 := by
  simp only [List.all_eq_true, isDigit, decide_eq_true_eq]

/-- A field of digits is not the terminal mark. -/
theorem ne_terminalMark_of_all_isDigit {bs : List Byte} (h : bs.all isDigit = true) : bs ≠ terminalMark := by
  rintro rfl
  exact absurd h (by decide)

theorem classify_of_fields_not_digits {h : List Byte} (hf : ¬ (slice h 4 13).all isDigit = true) :
    classify h = none :=
  if_neg hf

theorem classify_of_terminalMark {h : List Byte} (hf : (slice h 4 13).all isDigit = true)
    (hz : slice h 17 7 = terminalMark) : classify h = some .terminal := by
  rw [classify, if_pos hf, if_pos hz]

theorem classify_of_tail_malformed {h : List Byte} (hz : slice h 17 7 ≠ terminalMark)
    (ht : ¬ (slice h 17 7).all isDigit = true) : classify h = none := by
  rw [classify, if_neg hz, if_neg ht, ite_self]

/-- With digits everywhere, the burst number and the value decide (rule R106). -/
theorem classify_of_tail_digits {h : List Byte} (hf : (slice h 4 13).all isDigit = true)
    (ht : (slice h 17 7).all isDigit = true) :
    classify h =
      if decVal (slice h 17 3) = 0 then some (.announce (decVal (slice h 20 4)))
      else if burstMax < decVal (slice h 20 4) then none
      else some (.data (decVal (slice h 17 3)) (decVal (slice h 20 4))) := by
  rw [classify, if_pos hf, if_neg (ne_terminalMark_of_all_isDigit ht), if_pos ht]

end Sys2Proof.Machine
end

section
/-! PROOFS. The family `30_encoding.md`. -/

namespace Sys2Proof

open Machine

/-- Settles O3: a word is a command exactly when it is its encoding, and a mask splits that equation over the
fields of the word. -/
theorem wordIsCommandByMatchAndMask : Obligations.WordIsCommandByMatchAndMask := by
  have hN {i : Instr} (hi : i.wellFormed = true) (w : Word) := decode_eq_command_iff_matchN hi w
  refine ⟨fun w => ⟨hN rfl w, hN rfl w, hN rfl w, hN rfl w, decode_eq_render_iff w, hN rfl w, hN rfl w,
    hN rfl w, hN rfl w, ?_, ?_⟩, by decide, by decide, by decide, ?_⟩
  · exact decode_eq_command_iff_matchK (f := .bpEnc) (by omega) (fun _ => rfl) (fun _ => rfl) w
  · exact decode_eq_command_iff_matchK (f := .bpDec) (by omega) (fun _ => rfl) (fun _ => rfl) w
  · have h1 : decode 0x00000842 = .illegal .modNotZero := by decide
    have h2 : decode 0x00010020 = .illegal .argNotZero := by decide
    have h3 : decode 0x00000099 = .illegal .undefinedOp := by decide
    simpa only [List.forall_mem_cons, List.not_mem_nil, false_imp_iff, implies_true, and_true] using
      ⟨decode_ne_command_of_illegal h1, decode_ne_command_of_illegal h2, decode_ne_command_of_illegal h3⟩

/-- Settles O28: each clause is one branch of the classification, with the ranges of characters read as digits. -/
theorem headerKindsAreToldApart : Obligations.HeaderKindsAreToldApart := by
  intro h _ _ digits zs
  have hdig (i n : Nat) : digits i n ↔ (slice h i n).all isDigit = true := (all_isDigit_iff _).symm
  have hnum (hf : digits 4 13) (ht : digits 17 7) := classify_of_tail_digits ((hdig _ _).1 hf) ((hdig _ _).1 ht)
  refine ⟨fun hf => ?_, fun hf hz => ?_, fun hf ht h0 => ?_, fun hf ht h0 hle => ?_, fun hf ht h0 hlt => ?_,
    fun _ hz ht => ?_⟩
  · exact classify_of_fields_not_digits (mt (hdig _ _).2 hf)
  · exact classify_of_terminalMark ((hdig _ _).1 hf) hz
  · rw [hnum hf ht, if_pos h0]
  · rw [hnum hf ht, if_neg h0, if_neg (Nat.not_lt.2 hle)]
  · rw [hnum hf ht, if_neg h0, if_pos hlt]
  · exact classify_of_tail_malformed hz (mt (hdig _ _).2 ht)

end Sys2Proof
end

section
/-! SUPPORT. The edges of the pipeline's operands: no sample to transform (rules R141, R151) and a modifier that is
no bit position (rule R113). -/

namespace Sys2Proof

theorem formatK_of_eight_le (f : Nat → Instr) {md : Nat} (arg : Nat) (h : 8 ≤ md) :
    formatK f md arg = .illegal .modNotZero :=
  if_pos h

/-- `BP_ENC` and `BP_DEC` have no encoding with a modifier of 8 or more (rules R111, R151). -/
theorem decode_of_eight_le_modField {w : Word} (hop : opField w = 0x42 ∨ opField w = 0x43)
    (hmod : 8 ≤ modField w) : decode w = .illegal .modNotZero := by
  rw [decode]
  rcases hop with hop | hop <;> rw [hop]
  · exact formatK_of_eight_le .bpEnc _ hmod
  · exact formatK_of_eight_le .bpDec _ hmod

namespace Machine

theorem State.sampleRangeBad_eq_true {s : State} (h : s.cfg.nmax < s.nsamp.toNat) :
    s.sampleRangeBad = true :=
  decide_eq_true h

section NoSamples

variable {s : State} (h : s.nsamp = 0)
include h

theorem State.sampleRangeBad_of_nsamp_eq_zero : s.sampleRangeBad = false :=
  State.sampleRangeBad_eq_false (by rw [h]; exact Nat.zero_le _)

theorem State.groups_of_nsamp_eq_zero : s.groups = 0 := by
  rw [State.groups, h]
  rfl

theorem State.range_nsamp_eq_nil : List.range s.nsamp.toNat = [] := by
  rw [h]
  rfl

theorem State.mapSamples_of_nsamp_eq_zero (f : Sample → Sample) : s.mapSamples f = s := by
  rw [State.mapSamples, State.samples, State.range_nsamp_eq_nil h]
  rfl

theorem State.planeBytes_of_nsamp_eq_zero (k : Nat) : s.planeBytes k = [] := by
  rw [← List.length_eq_zero_iff, State.length_planeBytes, State.groups_of_nsamp_eq_zero h, Nat.mul_zero]

theorem State.planeLen_of_nsamp_eq_zero (k : Nat) : s.planeLen k = 0 := by
  rw [State.planeLen, State.groups_of_nsamp_eq_zero h, Nat.mul_zero]

/-- Without samples the Gray commands only complete (rule R141). -/
theorem exec_gray_of_nsamp_eq_zero :
    exec .grayEnc s = .next (s.complete .ok) ∧ exec .grayDec s = .next (s.complete .ok) := by
  have hr := State.sampleRangeBad_of_nsamp_eq_zero h
  rw [exec_grayEnc_ok hr, exec_grayDec_ok hr, State.mapSamples_of_nsamp_eq_zero h,
    State.mapSamples_of_nsamp_eq_zero h]
  exact ⟨rfl, rfl⟩

/-- Without samples the bit-plane commands only set `PLN_LEN` to 0 and complete (rule R151). -/
theorem exec_bp_of_nsamp_eq_zero (k : Nat) :
    exec (.bpEnc k) s = .next ({ s with plnLen := 0 }.complete .ok) ∧
      exec (.bpDec k) s = .next ({ s with plnLen := 0 }.complete .ok) := by
  have hr := State.sampleRangeBad_of_nsamp_eq_zero h
  rw [exec_bpEnc_ok k hr, exec_bpDec_ok k hr, State.planeBytes_of_nsamp_eq_zero h,
    State.planeLen_of_nsamp_eq_zero h, State.range_nsamp_eq_nil h]
  exact ⟨rfl, rfl⟩

end NoSamples

end Machine

end Sys2Proof
end

section
/-! PROOFS. The family `40_gray.md`. -/

namespace Sys2Proof

open Machine

/-- Settles O37: the four commands share one range check; without samples there is nothing to write; and format K
rejects a modifier of 8 or more before any command is reached. -/
theorem pipelineRangeCheck : Obligations.PipelineRangeCheck := by
  simp only [Obligations.PipelineRangeCheck, List.forall_mem_cons, List.not_mem_nil, false_imp_iff,
    implies_true, and_true]
  refine ⟨fun s k hn => ?_, fun s h0 => ⟨?_, ?_⟩, fun w hop hmod => ⟨.modNotZero, ?_⟩⟩
  · exact exec_pipeline_bad k (State.sampleRangeBad_eq_true hn)
  · exact exec_gray_of_nsamp_eq_zero h0
  · exact exec_bp_of_nsamp_eq_zero h0
  · exact decode_of_eight_le_modField (hop.imp (congrArg BitVec.toNat) (congrArg BitVec.toNat)) hmod

end Sys2Proof
end

section
/-! SUPPORT. What the two bit-plane commands leave in PLN and in SMP (rules R152 to R156). -/

namespace Sys2Proof.Machine

theorem State.groups_eq (s : State) : s.groups = (s.nsamp.toNat + 7) / 8 := rfl

/-- The state `BP_ENC #k` ends in when the sample count is in range (rule R152). -/
def State.afterBpEnc (s : State) (k : Nat) : State :=
  { s.bufWrite .pln 0 (s.planeBytes k) with
    plnLen := BitVec.ofNat 32 (s.planeLen k) }.complete .ok

/-- The state `BP_DEC #k` ends in when the sample count is in range (rule R155). -/
def State.afterBpDec (s : State) (k : Nat) : State :=
  { s.writeSamples ((List.range s.nsamp.toNat).map (s.decodedSample k)) with
    plnLen := BitVec.ofNat 32 (s.planeLen k) }.complete .ok

theorem exec_bpEnc_of_le {s : State} (k : Nat) (h : s.nsamp.toNat ≤ s.cfg.nmax) :
    exec (.bpEnc k) s = .next (s.afterBpEnc k) :=
  exec_bpEnc_ok k (State.sampleRangeBad_eq_false h)

theorem exec_bpDec_of_le {s : State} (k : Nat) (h : s.nsamp.toNat ≤ s.cfg.nmax) :
    exec (.bpDec k) s = .next (s.afterBpDec k) :=
  exec_bpDec_ok k (State.sampleRangeBad_eq_false h)

@[simp] theorem State.afterBpEnc_groups (s : State) (k : Nat) : (s.afterBpEnc k).groups = s.groups := rfl

theorem State.afterBpEnc_mem_wf {s : State} (hm : s.mem.wf) (k : Nat) : (s.afterBpEnc k).mem.wf :=
  Memory.writeBytes_wf hm _ _

theorem State.afterBpDec_mem_wf {s : State} (hm : s.mem.wf) (k : Nat) : (s.afterBpDec k).mem.wf :=
  Memory.writeBytes_wf hm _ _

section Planes

variable {s : State} (hm : s.mem.wf)
include hm

/-- Plane `j`, group `g` is byte `j * G + g` of PLN (rule R153). -/
theorem State.bufByte_afterBpEnc {k j g : Nat} (hj : j < 16 - k) (hg : g < s.groups) :
    (s.afterBpEnc k).bufByte .pln (j * s.groups + g) = s.planeByte j g := by
  have hlt : j * s.groups + g < (s.planeBytes k).length := by
    rw [State.length_planeBytes]
    exact (Nat.add_lt_add_left hg _).trans_le (by
      rw [← Nat.succ_mul]
      exact Nat.mul_le_mul_right _ hj)
  calc (s.afterBpEnc k).bufByte .pln (j * s.groups + g)
      = (s.planeBytes k)[j * s.groups + g] := Memory.read_writeBytes_inside hm _ _ _ hlt
    _ = s.planeByte j g := State.getElem_planeBytes s k j g hj hg hlt

/-- Bit `p` of sample `i` is at byte `(15 - p) * G + i / 8`, bit `7 - i % 8` of PLN (rule R153). -/
theorem State.getLsbD_afterBpEnc {k i p : Nat} (hi : i < s.nsamp.toNat) (hk : k ≤ p) (hp : p ≤ 15) :
    ((s.afterBpEnc k).bufByte .pln ((15 - p) * s.groups + i / 8)).getLsbD (7 - i % 8) =
      (s.sample i).getLsbD p := by
  have hg : i / 8 < s.groups := by
    rw [State.groups_eq]
    omega
  rw [State.bufByte_afterBpEnc hm (by omega) hg, State.getLsbD_planeByte _ _ _ (by omega),
    Nat.div_add_mod, Nat.sub_sub_self hp, decide_eq_true hi, Bool.true_and]

/-- The planes of `#k` are the first bytes of the planes of any `#k'` that drops no more (rule R156 (c)). -/
theorem State.bufBytes_afterBpEnc {k' k : Nat} (hk : k' ≤ k) :
    (s.afterBpEnc k').bufBytes .pln 0 ((16 - k) * s.groups) = s.planeBytes k := by
  refine List.ext_getElem (by simp) fun x hx hx' => ?_
  have hlt : x < (16 - k) * s.groups := by simpa using hx
  have hg : 0 < s.groups := Nat.pos_of_mul_pos_left (Nat.zero_lt_of_lt hlt)
  obtain ⟨j, g, hj, hg, rfl⟩ : ∃ j g, j < 16 - k ∧ g < s.groups ∧ x = j * s.groups + g :=
    ⟨x / s.groups, x % s.groups, Nat.div_lt_of_lt_mul (by rwa [Nat.mul_comm]), Nat.mod_lt _ hg,
      (Nat.div_add_mod' _ _).symm⟩
  rw [State.getElem_bufBytes, Nat.zero_add, State.bufByte_afterBpEnc hm (by omega) hg,
    State.getElem_planeBytes s k j g hj hg]

/-- `BP_DEC #k` stores sample `i` as the planes give it (rule R155). -/
theorem State.sample_afterBpDec {k i : Nat} (hi : i < s.nsamp.toNat) :
    (s.afterBpDec k).sample i = s.decodedSample k i := by
  refine (State.sample_writeSamples hm _ i (by simpa using hi)).trans ?_
  rw [List.getElem_map, List.getElem_range]

end Planes

/-- The plane bytes depend only on the bits 15 to `k` of the samples below `NSAMP` (rule R152). -/
theorem State.planeBytes_congr {s t : State} {k : Nat} (hn : t.nsamp = s.nsamp)
    (h : ∀ i, i < s.nsamp.toNat → ∀ p, k ≤ p → p ≤ 15 →
      (t.sample i).getLsbD p = (s.sample i).getLsbD p) : t.planeBytes k = s.planeBytes k := by
  have hgroups : t.groups = s.groups := by rw [State.groups_eq, State.groups_eq, hn]
  have hlane : ∀ i p, k ≤ p → p ≤ 15 → t.laneBit i p = s.laneBit i p := by
    intro i p hk hp
    rw [State.laneBit, State.laneBit, hn]
    by_cases hi : i < s.nsamp.toNat
    · rw [h i hi p hk hp]
    · rw [decide_eq_false hi, Bool.false_and, Bool.false_and]
  have hbyte : ∀ j, j < 16 - k → ∀ g, t.planeByte j g = s.planeByte j g := by
    intro j hj g
    simp only [State.planeByte, hlane _ (15 - j) (by omega) (by omega)]
  rw [State.planeBytes, State.planeBytes, hgroups, List.flatMap_congr]
  intro j hj
  exact List.map_congr_left fun g _ => hbyte j (List.mem_range.1 hj) g

/-! ### The samples without their `k` low bits -/

/-- `drop_k` of rule R156: the `k` low bits cleared. -/
def dropLow (k : Nat) (v : Sample) : Sample := v &&& ~~~ (BitVec.ofNat 16 (2 ^ k - 1))

theorem getLsbD_dropLow (k : Nat) (v : Sample) (p : Nat) :
    (dropLow k v).getLsbD p = (decide (k ≤ p) && v.getLsbD p) := by
  rcases Nat.lt_or_ge p 16 with hp | hp
  · rw [dropLow, BitVec.getLsbD_and, BitVec.getLsbD_not, BitVec.getLsbD_ofNat,
      Nat.testBit_two_pow_sub_one, decide_eq_true hp, Bool.true_and, Bool.true_and, ← decide_not,
      Bool.and_comm]
    simp only [Nat.not_lt]
  · rw [BitVec.getLsbD_of_ge _ _ hp, BitVec.getLsbD_of_ge _ _ hp, Bool.and_false]

theorem dropLow_dropLow (k : Nat) (v : Sample) : dropLow k (dropLow k v) = dropLow k v := by
  rw [dropLow, dropLow, BitVec.and_assoc, BitVec.and_self]

theorem dropLow_zero (v : Sample) : dropLow 0 v = v :=
  BitVec.eq_of_getLsbD_eq fun p _ => by
    rw [getLsbD_dropLow, decide_eq_true (Nat.zero_le p), Bool.true_and]

/-- `BP_ENC #k` then `BP_DEC #k` clears the `k` low bits of each sample (rule R156 (a)). -/
theorem State.sample_afterBpDec_afterBpEnc {s : State} (hm : s.mem.wf) {k i : Nat}
    (hi : i < s.nsamp.toNat) : ((s.afterBpEnc k).afterBpDec k).sample i = dropLow k (s.sample i) := by
  rw [State.sample_afterBpDec (State.afterBpEnc_mem_wf hm k) hi]
  refine BitVec.eq_of_getLsbD_eq fun p hp => ?_
  rw [State.getLsbD_decodedSample, getLsbD_dropLow, decide_eq_true hp, Bool.true_and,
    State.afterBpEnc_groups]
  by_cases hk : k ≤ p
  · rw [State.getLsbD_afterBpEnc hm hi hk (by omega)]
  · rw [decide_eq_false hk, Bool.false_and, Bool.false_and]

/-- Encoding the decoded samples again gives the same plane bytes (rule R156 (b)). -/
theorem State.planeBytes_afterBpDec_afterBpEnc {s : State} (hm : s.mem.wf) (k : Nat) :
    ((s.afterBpEnc k).afterBpDec k).planeBytes k = s.planeBytes k := by
  refine State.planeBytes_congr rfl fun i hi p hk hp => ?_
  rw [State.sample_afterBpDec_afterBpEnc hm hi, getLsbD_dropLow, decide_eq_true hk, Bool.true_and]

end Sys2Proof.Machine
end

section
/-! PROOFS. The family `41_bitplane.md`. -/

namespace Sys2Proof

open Machine

/-- Settles O42: each byte written is a plane byte, whose lanes are the bits of eight samples; the bytes written are
`(16 - k) * G` from the start of PLN. -/
theorem bpEncLaysOutThePlanes : Obligations.BpEncLaysOutThePlanes := by
  intro s k hk hm hn n g
  refine ⟨s.afterBpEnc k, exec_bpEnc_of_le k hn, ?_, ?_, rfl, ?_, rfl⟩
  · intro j hj gr hgr lane hl
    exact (congrArg (·.getLsbD (7 - lane)) (State.bufByte_afterBpEnc (k := k) hm (by omega) hgr)).trans
      (State.getLsbD_planeByte s j gr hl)
  · exact fun i hi p hkp hp => State.getLsbD_afterBpEnc hm hi hkp hp
  · intro a ha
    exact Memory.read_writeBytes_outside s.mem _ (by rwa [State.length_planeBytes])

/-- Settles O44: the planes keep exactly the bits 15 to `k`, so decoding clears the others, encoding again gives the
same planes, and dropping more bits only shortens them. -/
theorem bitPlanesRoundTrip : Obligations.BitPlanesRoundTrip := by
  intro s k _ _ hm hn n g drop
  have hsample : ∀ i, i < n → ((s.afterBpEnc k).afterBpDec k).sample i = dropLow k (s.sample i) :=
    fun i hi => State.sample_afterBpDec_afterBpEnc hm hi
  have hplanes : (s.afterBpEnc k).bufBytes .pln 0 ((16 - k) * g) = s.planeBytes k :=
    State.bufBytes_afterBpEnc hm (Nat.le_refl k)
  have hm' := State.afterBpDec_mem_wf (State.afterBpEnc_mem_wf hm k) k
  refine ⟨dropLow_dropLow k, _, _, _, exec_bpEnc_of_le k hn, exec_bpDec_of_le k hn, exec_bpEnc_of_le k hn,
    hsample, ?_, ?_, s.afterBpEnc 0, exec_bpEnc_of_le 0 hn, ?_⟩
  · rintro rfl i hi
    rw [hsample i hi, dropLow_zero]
  · rw [hplanes, ← State.planeBytes_afterBpDec_afterBpEnc hm k]
    exact State.bufBytes_afterBpEnc hm' (Nat.le_refl k)
  · exact hplanes.trans (State.bufBytes_afterBpEnc hm (Nat.zero_le k)).symm

end Sys2Proof
end

section
/-! SUPPORT. What the decided CRC is as a fold, and the `CRC_DATA` port while nothing is pending (rules R167, R168,
R170). -/

namespace Sys2Proof.Machine

/-- The decided CRC as the fold of `crc_step` between the two constants (rule R167). -/
theorem crc32_eq_foldl (bs : List Byte) : crc32 bs = bs.foldl crcStep 0xFFFFFFFF ^^^ 0xFFFFFFFF := rfl

/-- The decided function's accumulator moves by `crc_step` (rule R170). -/
theorem State.nextCrcAcc_decided {s : State} (h : s.cfg.crc32fn = .decided) (b : Byte) :
    s.nextCrcAcc b = crcStep s.crcAcc b := by
  rw [State.nextCrcAcc, h]

/-- A write to `CRC_DATA` while not BUSY feeds the byte `v[7:0]`, locked or not, whatever function `CRC32FN` is (rule
R170). -/
theorem step_write_crcData {s : State} {v : Word} {rest : List Event} (hc : s.cfg.Legal)
    (hp : s.pending = none) (h : s.script = .write (s.cfg.regBase + 0x18) 4 v :: rest) :
    step s = .next { s with
      script := rest, busResp := some .ok,
      crcAcc := s.nextCrcAcc (v.extractLsb' 0 8), crcFed := s.crcFed ++ [v.extractLsb' 0 8] } := by
  have hv : v.setWidth 8 = v.extractLsb' 0 8 := BitVec.setWidth_eq_extractLsb' (by decide)
  rw [step_write_reg_idle (r := .crcData) hc hp h, State.writeReg, State.feedCrc, hv]
  rfl

/-- A read of `CRC_DATA` while not BUSY answers 0 and feeds nothing (rule R170). -/
theorem step_read_crcData {s : State} {rest : List Event} (hc : s.cfg.Legal) (hp : s.pending = none)
    (h : s.script = .read (s.cfg.regBase + 0x18) 4 :: rest) :
    step s = .next { s with script := rest, busResp := some (.data 0) } :=
  step_read_reg_idle (r := .crcData) hc hp h

end Sys2Proof.Machine
end

section
/-! PROOFS. The family `42_crc.md`. -/

namespace Sys2Proof

open Machine

/-- Settles O17: feeding is a fold, which a concatenation continues; and `crc_step` is injective in the byte and in the
accumulator, so a changed byte is never forgotten. -/
theorem crcStreamsAndDetectsOneChangedByte : Obligations.CrcStreamsAndDetectsOneChangedByte := by
  refine ⟨fun s t => ?_, fun s t x y hxy => crc32_ne_of_byte hxy s t⟩
  rw [crc32_eq_foldl, List.foldl_append]

/-- Settles O18: the port's write effect at the decided function and its value on a read; the example is one
`crc_step` of the first. -/
theorem crcDataPortFeedsOneByte : Obligations.CrcDataPortFeedsOneByte := by
  refine ⟨fun s v rest hc hd hp h => ?_, fun s rest hc hp h => step_read_crcData hc hp h,
    fun s rest hcfg hp hacc h => ?_⟩
  · rw [step_write_crcData hc hp h, State.nextCrcAcc_decided hd]
  · have hc : s.cfg.Legal := hcfg ▸ Config.default_legal
    have hd : s.cfg.crc32fn = .decided := hcfg ▸ rfl
    have h' : s.script = .write (s.cfg.regBase + 0x18) 4 0x61 :: rest := by
      rw [h, hcfg]
      rfl
    have hnext : s.nextCrcAcc ((0x61 : Word).extractLsb' 0 8) = 0x174841BC := by
      rw [State.nextCrcAcc_decided hd, hacc]
      decide
    exact ⟨_, step_write_crcData hc hp h', hnext, congrArg crcFinish hnext⟩

end Sys2Proof
end

section
/-! SUPPORT. The payloads of the bursts, and their concatenation (rules R182, R183). -/

namespace Sys2Proof.Machine

/-- Two adjacent slices of a buffer are one slice. -/
theorem State.bufBytes_add (s : State) (b : Buf) (i m n : Nat) :
    s.bufBytes b i (m + n) = s.bufBytes b i m ++ s.bufBytes b (i + m) n := by
  rw [State.bufBytes, Memory.readBytes_add, Nat.add_assoc]
  rfl

/-- The payload in TXBUF: what `TX_LEN` counts beyond header and CRC characters (rules R100, R185). -/
def State.txPayload (t : State) : List Byte := t.bufBytes .txbuf 32 (t.txLen.toNat - 32)

@[simp] theorem State.length_txPayload (t : State) : t.txPayload.length = t.txLen.toNat - 32 :=
  State.length_bufBytes _ _ _ _

/-- The payload of a data burst is the slice of PKT that rule R182 gives. -/
theorem State.burstPayload_of_data {s : State} {b : Nat} (h1 : 1 ≤ b) (h2 : b ≤ s.burstCount.toNat) :
    s.burstPayload b = s.bufBytes .pkt (s.burstOffset b) (s.burstLen b) := by
  rw [State.burstPayload, State.burstHeader, if_neg (by omega), if_pos h2]
  rfl

section Framed

variable {s : State} (hc : s.FramedCoherent) (hf : s.framed = true)
include hc hf

/-- A `RENDER` that completes leaves its burst's payload in TXBUF. -/
theorem State.txPayload_of_exec_render {t : State} {idx : Nat} (hm : s.mem.wf)
    (hi : idx ≤ s.burstCount.toNat + 1) (h : exec (.render idx) s = .next t) :
    t.txPayload = s.burstPayload idx := by
  obtain ⟨-, -, -, hpay, hlen⟩ := exec_render_txbuf hm hc hf hi h
  rw [State.txPayload, hlen, Nat.add_sub_cancel_left, hpay]

/-- All bursts but the last are full: each next one starts inside the packet. -/
theorem State.mul_burstSize_le_pktLen {b : Nat} (hb : b < s.burstCount.toNat) :
    b * s.burstSize.toNat ≤ s.pktLen.toNat := by
  obtain ⟨hS, -, hN⟩ := State.framed_spec hc hf
  obtain ⟨-, -, hlast⟩ := ceilDiv_spec (by omega) hN
  exact (Nat.mul_le_mul_right _ (by omega)).trans (hlast (by omega)).le

/-- A data burst ends where `b` full bursts end, or with the packet. -/
theorem State.burstOffset_add_burstLen_eq_min {b : Nat} (h1 : 1 ≤ b) (hb : b ≤ s.burstCount.toNat) :
    s.burstOffset b + s.burstLen b = min (b * s.burstSize.toNat) s.pktLen.toNat := by
  obtain ⟨-, -, hend⟩ := State.burstLen_spec hc hf h1 hb
  exact hend

theorem State.burstOffset_add_burstLen {b : Nat} (h1 : 1 ≤ b) (hb : b < s.burstCount.toNat) :
    s.burstOffset b + s.burstLen b = s.burstOffset (b + 1) := by
  rw [State.burstOffset_add_burstLen_eq_min hc hf h1 hb.le,
    Nat.min_eq_left (State.mul_burstSize_le_pktLen hc hf hb)]
  rfl

theorem State.pktLen_le_burstCount_mul : s.pktLen.toNat ≤ s.burstCount.toNat * s.burstSize.toNat := by
  obtain ⟨hS, -, hN⟩ := State.framed_spec hc hf
  exact (ceilDiv_spec (by omega) hN).2.1

theorem State.burstOffset_add_burstLen_last (h1 : 1 ≤ s.burstCount.toNat) :
    s.burstOffset s.burstCount.toNat + s.burstLen s.burstCount.toNat = s.pktLen.toNat := by
  rw [State.burstOffset_add_burstLen_eq_min hc hf h1 (Nat.le_refl _),
    Nat.min_eq_right (State.pktLen_le_burstCount_mul hc hf)]

/-- The payloads of the first `n` bursts are the packet up to where burst `n` ends. -/
theorem State.flatMap_burstPayload {n : Nat} (hn : n ≤ s.burstCount.toNat) :
    (List.range n).flatMap (fun i => s.burstPayload (i + 1)) =
      s.bufBytes .pkt 0 (min (n * s.burstSize.toNat) s.pktLen.toNat) := by
  induction n with
  | zero =>
    rw [Nat.zero_mul, Nat.zero_min]
    rfl
  | succ n ih =>
    have hoff : min (n * s.burstSize.toNat) s.pktLen.toNat = s.burstOffset (n + 1) :=
      Nat.min_eq_left (State.mul_burstSize_le_pktLen hc hf hn)
    rw [List.range_succ, List.flatMap_append, ih (Nat.le_of_succ_le hn), hoff, List.flatMap_singleton,
      State.burstPayload_of_data (Nat.succ_pos n) hn,
      ← State.burstOffset_add_burstLen_eq_min hc hf (Nat.succ_pos n) hn, State.bufBytes_add, Nat.zero_add]

/-- The payloads of all bursts, in order, are the packet (rule R183). -/
theorem State.flatMap_burstPayload_eq_packet :
    (List.range s.burstCount.toNat).flatMap (fun i => s.burstPayload (i + 1)) =
      s.bufBytes .pkt 0 s.pktLen.toNat := by
  rw [State.flatMap_burstPayload hc hf (Nat.le_refl _),
    Nat.min_eq_right (State.pktLen_le_burstCount_mul hc hf)]

/-- The payloads that the `RENDER`s of bursts 1 to `BURST_COUNT` leave in TXBUF are the packet (rule R183). -/
theorem State.flatMap_txPayload {ts : List State} (hm : s.mem.wf)
    (hlen : ts.length = s.burstCount.toNat)
    (hr : ∀ i, (h : i < ts.length) → exec (.render (i + 1)) s = .next ts[i]) :
    ts.flatMap State.txPayload = s.bufBytes .pkt 0 s.pktLen.toNat := by
  have hmap : ts.map State.txPayload =
      (List.range s.burstCount.toNat).map fun i => s.burstPayload (i + 1) := by
    refine List.ext_getElem (by simp [hlen]) fun i hi _ => ?_
    rw [List.length_map] at hi
    rw [List.getElem_map, List.getElem_map, List.getElem_range]
    exact State.txPayload_of_exec_render hc hf hm (by omega) (hr i hi)
  rw [List.flatMap_def, hmap, ← List.flatMap_def, State.flatMap_burstPayload_eq_packet hc hf]

end Framed

end Sys2Proof.Machine
end

section
/-! PROOFS. The family `43_framer.md`. -/

namespace Sys2Proof

open Machine

/-- Settles O24: each rendered payload is its burst's slice of PKT; the slices are adjacent and end where the packet
ends, so their concatenation is the packet, and its length is the sum of the sizes. -/
theorem renderedPayloadsAreThePacket : Obligations.RenderedPayloadsAreThePacket := by
  intro s ts hm hc hf hlen hr
  have hpkt := State.flatMap_txPayload hc hf hm hlen hr
  have hsum : (ts.map fun t => t.txLen.toNat - 32).sum = s.pktLen.toNat := by
    calc (ts.map fun t => t.txLen.toNat - 32).sum
        = (ts.flatMap State.txPayload).length := by simp [List.length_flatMap]
      _ = s.pktLen.toNat := by rw [hpkt, State.length_bufBytes]
  obtain ⟨-, -, hcount⟩ := State.framed_spec hc hf
  exact ⟨hcount, hpkt, hsum, Nat.zero_mul _,
    fun _ h1 hb => State.burstOffset_add_burstLen hc hf h1 hb, State.burstOffset_add_burstLen_last hc hf⟩

end Sys2Proof
end

section
/-! SUPPORT. A `SCAN` that waits, and what repeating it does (rules R205, R206, R208, R213). -/

namespace Sys2Proof.Machine

/-- The state after a `SCAN` that asks for more bytes with its cursor at `p` (rule R212). -/
def State.waitingAt (s : State) (p : Nat) : State :=
  { s with
    rxPos := BitVec.ofNat 32 p, rxKind := .none, result := .needMore, done := true, pending := none }

theorem State.applyScan_noMagic (s : State) : s.applyScan .noMagic = s.waitingAt s.noMagicPos := rfl

theorem State.applyScan_short (s : State) (q : Nat) : s.applyScan (.short q) = s.waitingAt q := rfl

theorem State.waitingAt_waitingAt (s : State) (p q : Nat) : (s.waitingAt p).waitingAt q = s.waitingAt q := rfl

theorem State.scanAt_waitingAt (s : State) (p q : Nat) : (s.waitingAt p).scanAt q = s.scanAt q := rfl

/-- A cursor up to `RX_LEN` fits its register. -/
theorem State.toNat_ofNat_of_le_rxLen {s : State} {p : Nat} (hp : p ≤ s.rxLen.toNat) :
    (BitVec.ofNat 32 p).toNat = p :=
  (BitVec.toNat_ofNat p 32).trans (Nat.mod_eq_of_lt (hp.trans_lt s.rxLen.isLt))

theorem State.waitingAt_rxPos_toNat {s : State} {p : Nat} (hp : p ≤ s.rxLen.toNat) :
    (s.waitingAt p).rxPos.toNat = p :=
  s.toNat_ofNat_of_le_rxLen hp

theorem exec_scan_of_range {s : State} (h : s.RxRangeOk) :
    exec .scan s = .next (s.applyScan s.scanWindow) :=
  execScan_of_range h.1 h.2

theorem State.waitingAt_rxRangeOk {s : State} {p : Nat} (h : s.RxRangeOk) (hp : p ≤ s.rxLen.toNat) :
    (s.waitingAt p).RxRangeOk :=
  ⟨h.1, (State.waitingAt_rxPos_toNat hp).trans_le hp⟩

theorem State.noMagicPos_le_rxLen {s : State} (h : s.RxRangeOk) : s.noMagicPos ≤ s.rxLen.toNat :=
  max_le h.2 (Nat.sub_le _ _)

/-- Without a magic in the window `SCAN` waits with the last three bytes kept (rule R205). -/
theorem exec_scan_of_no_magic {s : State} (h : s.RxRangeOk)
    (hf : ∀ q, s.rxPos.toNat ≤ q → q + 4 ≤ s.rxLen.toNat → ¬ s.MagicAt q) :
    exec .scan s = .next (s.waitingAt s.noMagicPos) := by
  rw [exec_scan_of_range h, State.scanWindow_of_none hf, State.applyScan_noMagic]

/-- At its first magic `SCAN` applies what the attempt there answers (rules R202, R204). -/
theorem exec_scan_of_firstMagic {s : State} {q : Nat} (h : s.RxRangeOk) (hq : s.FirstMagic q) :
    exec .scan s = .next (s.applyScan (s.scanAt q)) := by
  obtain ⟨hp, hend, hm, hfirst⟩ := hq
  rw [exec_scan_of_range h, State.scanWindow_of_first hp hend hm hfirst]

/-- Too few bytes for the header block, or for the payload the header announces (rules R206, R208). -/
theorem State.scanAt_of_few_bytes {s : State} {q : Nat}
    (h : s.rxLen.toNat - q < 32 ∨
      ∃ hd, classify (s.bufBytes .rxbuf q 24) = some hd ∧ s.rxLen.toNat - q < 32 + hd.payload) :
    s.scanAt q = .short q := by
  rcases s.scanAt_cases q with ⟨-, e⟩ | ⟨hlen, hnone, -⟩ | ⟨hd, hlen, hsome, ⟨-, e⟩ | ⟨hfull, -⟩⟩
  · exact e
  · rcases h with hlt | ⟨hd, hc, -⟩
    · omega
    · rw [hnone] at hc
      cases hc
  · exact e
  · rcases h with hlt | ⟨hd', hc, hlt⟩
    · omega
    · rw [hsome] at hc
      cases hc
      omega

/-- A `SCAN` that found no magic finds none when it is repeated, and keeps its cursor (rule R213). -/
theorem exec_scan_waitingAt_noMagicPos {s : State} (h : s.RxRangeOk)
    (hf : ∀ q, s.rxPos.toNat ≤ q → q + 4 ≤ s.rxLen.toNat → ¬ s.MagicAt q) :
    exec .scan (s.waitingAt s.noMagicPos) = .next (s.waitingAt s.noMagicPos) := by
  have hle := State.noMagicPos_le_rxLen h
  have hpos := State.waitingAt_rxPos_toNat hle
  have hfix : (s.waitingAt s.noMagicPos).noMagicPos = s.noMagicPos := by
    rw [State.noMagicPos, hpos]
    exact max_eq_left (le_max_right _ _)
  rw [exec_scan_of_no_magic (State.waitingAt_rxRangeOk h hle), hfix, State.waitingAt_waitingAt]
  intro q hq
  rw [hpos] at hq
  exact hf q ((le_max_left _ _).trans hq)

/-- A `SCAN` that waits at its magic finds the same when it is repeated (rule R213). -/
theorem exec_scan_waitingAt_firstMagic {s : State} {q : Nat} (h : s.RxRangeOk) (hq : s.FirstMagic q)
    (hs : s.scanAt q = .short q) : exec .scan (s.waitingAt q) = .next (s.waitingAt q) := by
  obtain ⟨-, hend, hm, -⟩ := hq
  have hle : q ≤ s.rxLen.toNat := by omega
  have hpos := State.waitingAt_rxPos_toNat hle
  have hfirst : (s.waitingAt q).FirstMagic q :=
    ⟨hpos.le, hend, hm, fun r hr hpr => absurd hpr (by omega)⟩
  rw [exec_scan_of_firstMagic (State.waitingAt_rxRangeOk h hle) hfirst, State.scanAt_waitingAt, hs,
    State.applyScan_short, State.waitingAt_waitingAt]

/-- The answer `t` of a `SCAN` on `s` is not NEED_MORE, and the cursor moved 4 on at least, within the same
received bytes (rules R212, R213). -/
structure State.ScanMovesOn (s t : State) : Prop where
  result_ne : t.result ≠ .needMore
  rangeOk : t.RxRangeOk
  rxLen_eq : t.rxLen = s.rxLen
  four_le : s.rxPos.toNat + 4 ≤ t.rxPos.toNat

theorem State.ScanMovesOn.of_rxPos {s t : State} {p : Nat} (h : s.RxRangeOk)
    (hr : t.result ≠ .needMore) (hcfg : t.cfg = s.cfg) (hlen : t.rxLen = s.rxLen)
    (hpos : t.rxPos = BitVec.ofNat 32 p) (hlow : s.rxPos.toNat + 4 ≤ p) (hhigh : p ≤ s.rxLen.toNat) :
    s.ScanMovesOn t := by
  have hp : t.rxPos.toNat = p := by rw [hpos, State.toNat_ofNat_of_le_rxLen hhigh]
  exact ⟨hr, ⟨by rw [hlen, hcfg]; exact h.1, by rw [hp, hlen]; exact hhigh⟩, hlen, hp ▸ hlow⟩

theorem Header.result_ne_needMore (hd : Header) : hd.result ≠ .needMore := by
  cases hd <;> exact Result.noConfusion

/-- An attempt that is not short of bytes moves the cursor on: past the magic or past the burst
(rules R207, R210, R211). -/
theorem State.scanMovesOn_applyScan {s : State} {q : Nat} (h : s.RxRangeOk) (hq : s.FirstMagic q) :
    s.scanAt q = .short q ∨ s.ScanMovesOn (s.applyScan (s.scanAt q)) := by
  obtain ⟨hp, hend, -, -⟩ := hq
  have hstep : s.rxPos.toNat + 4 ≤ q + resyncStep := by
    simp only [resyncStep]
    omega
  have hresync : q + resyncStep ≤ s.rxLen.toNat := hend
  rcases s.scanAt_cases q with ⟨-, e⟩ | ⟨-, -, e⟩ | ⟨hd, -, -, ⟨-, e⟩ | ⟨hfull, e⟩⟩
  · exact .inl e
  · rw [e]
    exact .inr (.of_rxPos h Result.noConfusion rfl rfl rfl hstep hresync)
  · exact .inl e
  · rw [e]
    rcases s.checkCrc_cases q hd _ _ rfl rfl with ⟨-, -, c⟩ | ⟨-, -, c⟩ | ⟨-, c⟩ <;> rw [c]
    · refine .inr (.of_rxPos h hd.result_ne_needMore rfl rfl rfl ?_ ?_) <;>
        simp only [overheadBytes] <;> omega
    · exact .inr (.of_rxPos h Result.noConfusion rfl rfl rfl hstep hresync)
    · exact .inr (.of_rxPos h Result.noConfusion rfl rfl rfl hstep hresync)

/-- Everything a `SCAN` within range can do: it waits, and repeating it changes nothing, or it moves on
(rule R213). -/
theorem exec_scan_waits_or_moves_on {s : State} (h : s.RxRangeOk) :
    ∃ t, exec .scan s = .next t ∧
      (t.result = .needMore ∧ exec .scan t = .next t ∨ s.ScanMovesOn t) := by
  rcases s.scanWindow_cases with ⟨-, hf⟩ | ⟨q, -, hq⟩
  · exact ⟨_, exec_scan_of_no_magic h hf, .inl ⟨rfl, exec_scan_waitingAt_noMagicPos h hf⟩⟩
  · refine ⟨_, exec_scan_of_firstMagic h hq, ?_⟩
    rcases State.scanMovesOn_applyScan h hq with hs | hmove
    · rw [hs, State.applyScan_short]
      exact .inl ⟨rfl, exec_scan_waitingAt_firstMagic h hq hs⟩
    · exact .inr hmove

theorem scanTimes_succ {s t : State} (n : Nat) (h : exec .scan s = .next t) :
    scanTimes (n + 1) s = scanTimes n t := by
  rw [scanTimes, h]

/-- Each `SCAN` that does not wait uses up 4 of the bytes behind the cursor, so the one that waits comes within
the bound (rule R213). -/
theorem exists_scanTimes_needMore {s : State} (h : s.RxRangeOk) :
    ∃ k t, 1 ≤ k ∧ k ≤ (s.rxLen.toNat - s.rxPos.toNat) / 4 + 1 ∧
      scanTimes k s = some t ∧ t.result = .needMore := by
  generalize hn : s.rxLen.toNat - s.rxPos.toNat = n
  induction n using Nat.strongRecOn generalizing s with
  | ind n ih =>
    obtain ⟨t, ht, ⟨hwait, -⟩ | hmove⟩ := exec_scan_waits_or_moves_on h
    · exact ⟨1, t, Nat.le_refl 1, by omega, scanTimes_succ 0 ht, hwait⟩
    · obtain ⟨-, hrange, hlen, hfour⟩ := hmove
      have hpos : t.rxPos.toNat ≤ s.rxLen.toNat := hlen ▸ hrange.2
      obtain ⟨k, u, -, hk, hscan, hu⟩ := ih (s.rxLen.toNat - t.rxPos.toNat) (by omega) hrange (by rw [hlen])
      exact ⟨k + 1, u, by omega, by omega, (scanTimes_succ k ht).trans hscan, hu⟩

end Sys2Proof.Machine
end

section
/-! PROOFS. The family `44_verifier.md`. -/

namespace Sys2Proof

open Machine

/-- Settles O27: the search finds nothing, and the cursor goes to `max(p, E - 3)`, which fits the register. -/
theorem scanKeepsAPartialMagic : Obligations.ScanKeepsAPartialMagic := by
  intro s h hf
  exact ⟨_, exec_scan_of_no_magic h hf, State.waitingAt_rxPos_toNat (State.noMagicPos_le_rxLen h), rfl⟩

/-- Settles O29: under either threshold the attempt at the first magic is short of bytes and waits there. -/
theorem scanWaitsForEnoughBytes : Obligations.ScanWaitsForEnoughBytes := by
  intro s q h hq hfew
  have hexec : exec .scan s = .next (s.waitingAt q) := by
    rw [exec_scan_of_firstMagic h hq, State.scanAt_of_few_bytes hfew, State.applyScan_short]
  obtain ⟨-, hend, -, -⟩ := hq
  exact ⟨_, hexec, State.waitingAt_rxPos_toNat (by omega), rfl⟩

/-- Settles O33: a `SCAN` within range waits, and then repeats itself, or moves 4 on; the bound follows by
induction on the number of bytes behind the cursor. -/
theorem repeatedScanEndsInNeedMore : Obligations.RepeatedScanEndsInNeedMore := by
  intro s h
  obtain ⟨t, ht, hcases⟩ := exec_scan_waits_or_moves_on h
  refine ⟨fun u hu hres => ?_, fun u hu hres => ?_, exists_scanTimes_needMore h⟩ <;>
    obtain rfl : t = u := Host.Outcome.next.inj (ht.symm.trans hu)
  · rcases hcases with ⟨hwait, -⟩ | hmove
    · rw [hwait] at hres
      exact absurd hres (by decide)
    · exact hmove.four_le
  · rcases hcases with ⟨-, hrepeat⟩ | hmove
    · exact hrepeat
    · exact absurd hres hmove.result_ne

end Sys2Proof
end

section
/-! SUPPORT. A write to `CMD` while nothing is pending, and raising a command fault: which faults a command raises, and
that a result FAULT comes from nothing else (rules R253, R256, R262). -/

namespace Sys2Proof.Machine

/-- A write to `CMD` while not BUSY is issued, and answered OK (rule R256). -/
theorem step_write_cmd {s : State} {w : Word} {rest : List Event} (hc : s.cfg.Legal) (hp : s.pending = none)
    (h : s.script = .write s.cfg.regBase 4 w :: rest) :
    step s = .next (((s.withScript rest).issue w).respond .ok) :=
  step_write_reg_idle (r := .cmd) hc hp h

/-- The faults that a command raises; the other two are those of host accesses (rules R252, R262). -/
def FaultBit.ofCommand : List FaultBit := [.illegalCmd, .badCfg, .notFramed, .badIndex, .badRange]

theorem FaultBit.mask_ne_zero (f : FaultBit) : f.mask ≠ 0 := by
  cases f <;> decide

/-- A command fault is one of the bits 0, 2, 3, 4, 5 (rules R26, R262). -/
theorem FaultBit.mask_of_mem_ofCommand {f : FaultBit} (hf : f ∈ FaultBit.ofCommand) :
    ∃ k ∈ ([0, 2, 3, 4, 5] : List Nat), f.mask = BitVec.twoPow 7 k :=
  ⟨f.index, List.mem_map_of_mem (f := FaultBit.index) hf, rfl⟩

/-- A raised fault locks the block (rules R25, R263). -/
theorem State.raise_faulted (s : State) (f : FaultBit) : (s.raise f).faulted = true :=
  decide_eq_true fun h => f.mask_ne_zero (BitVec.or_eq_zero_iff.1 h).2

/-- While the block is faulted and `IEN.FAULT_IE` is set, `irq` is up (rule R265). -/
theorem State.irq_of_faulted {s : State} (hf : s.faulted = true) (hi : s.faultIe = true) : s.irq = true := by
  rw [State.irq, hf, hi, Bool.and_self, Bool.or_true]

theorem Header.result_ne_fault (hd : Header) : hd.result ≠ .fault := by
  cases hd <;> exact Result.noConfusion

/-- No outcome of an attempt of `SCAN` reports FAULT (rule R202). -/
theorem State.applyScan_result_ne_fault (s : State) (o : ScanOutcome) : (s.applyScan o).result ≠ .fault := by
  cases o with
  | verified q h hd covered => exact hd.result_ne_fault
  | noMagic => exact Result.noConfusion
  | short q => exact Result.noConfusion
  | malformed q => exact Result.noConfusion
  | crcBad q covered rcvd => exact Result.noConfusion

/-- A command that fails its operand checks raises a command fault and does nothing else; one that passes them does not
end with FAULT (rules R260, R262). -/
theorem exec_raises_or_succeeds (i : Instr) (s : State) :
    (∃ f ∈ FaultBit.ofCommand, exec i s = .next (s.raise f)) ∨
      ∃ t, exec i s = .next t ∧ t.result ≠ .fault := by
  cases i with
  | nop => exact .inr ⟨_, rfl, Result.noConfusion⟩
  | srst => exact .inr ⟨_, rfl, Result.noConfusion⟩
  | crcInit => exact .inr ⟨_, rfl, Result.noConfusion⟩
  | frame =>
    cases h : s.frameCfgBad with
    | true => exact .inl ⟨.badCfg, by decide, exec_frame_bad h⟩
    | false => exact .inr ⟨_, exec_frame_ok h, Result.noConfusion⟩
  | render idx =>
    cases h : s.framed with
    | false => exact .inl ⟨.notFramed, by decide, exec_render_not_framed idx h⟩
    | true =>
      rcases Nat.lt_or_ge (s.burstCount.toNat + 1) idx with hi | hi
      · exact .inl ⟨.badIndex, by decide, exec_render_bad_index h hi⟩
      · exact .inr ⟨_, exec_render_ok h hi, Result.noConfusion⟩
  | scan =>
    cases h : s.rxRangeBad with
    | true => exact .inl ⟨.badRange, by decide, exec_scan_bad h⟩
    | false => exact .inr ⟨_, exec_scan_ok h, s.applyScan_result_ne_fault _⟩
  | rxcompact =>
    cases h : s.rxRangeBad with
    | true => exact .inl ⟨.badRange, by decide, exec_rxcompact_bad h⟩
    | false => exact .inr ⟨_, exec_rxcompact_ok h, Result.noConfusion⟩
  | grayEnc =>
    cases h : s.sampleRangeBad with
    | true => exact .inl ⟨.badRange, by decide, (exec_pipeline_bad 0 h).1⟩
    | false => exact .inr ⟨_, exec_grayEnc_ok h, Result.noConfusion⟩
  | grayDec =>
    cases h : s.sampleRangeBad with
    | true => exact .inl ⟨.badRange, by decide, (exec_pipeline_bad 0 h).2.1⟩
    | false => exact .inr ⟨_, exec_grayDec_ok h, Result.noConfusion⟩
  | bpEnc k =>
    cases h : s.sampleRangeBad with
    | true => exact .inl ⟨.badRange, by decide, (exec_pipeline_bad k h).2.2.1⟩
    | false => exact .inr ⟨_, exec_bpEnc_ok k h, Result.noConfusion⟩
  | bpDec k =>
    cases h : s.sampleRangeBad with
    | true => exact .inl ⟨.badRange, by decide, (exec_pipeline_bad k h).2.2.2⟩
    | false => exact .inr ⟨_, exec_bpDec_ok k h, Result.noConfusion⟩

/-- A turn of the engine on a pending word that ends with FAULT raised a command fault and did nothing else (rules
R253, R262). -/
theorem engineStep_eq_raise {s t : State} {w : Word} (hp : s.pending = some w) (h : engineStep s = .next t)
    (hr : t.result = .fault) : ∃ f ∈ FaultBit.ofCommand, t = s.raise f := by
  cases hd : decode w with
  | illegal why =>
    rw [engineStep_illegal hp hd] at h
    exact ⟨.illegalCmd, by decide, (Host.Outcome.next.inj h).symm⟩
  | command i =>
    rw [engineStep_command hp hd] at h
    rcases exec_raises_or_succeeds i s with ⟨f, hf, hraise⟩ | ⟨u, hu, hne⟩
    · exact ⟨f, hf, Host.Outcome.next.inj (h.symm.trans hraise)⟩
    · obtain rfl : t = u := Host.Outcome.next.inj (h.symm.trans hu)
      exact absurd hr hne

end Sys2Proof.Machine
end

section
/-! PROOFS. The family `60_exceptions.md`. -/

namespace Sys2Proof

open Machine

/-- Settles O6: the write reaches `CMD`, whose write effect is to issue the word; the lock ignores every word but
`SRST`. -/
theorem cmdWriteIsAcceptedOrIgnored : Obligations.CmdWriteIsAcceptedOrIgnored := by
  intro s w rest hc hp h
  rw [step_write_cmd hc hp h]
  refine ⟨fun ⟨hf, hw⟩ => ?_, fun hacc => ?_⟩
  · rw [State.issue_locked (s := s.withScript rest) hf hw]
    rfl
  · rw [State.issue_accepted (s := s.withScript rest) hacc]
    rfl

/-- Settles O7: with no fault the word is accepted, whatever it is, and the engine's turn then raises
`ILLEGAL_CMD`. -/
theorem illegalWordRaisesIllegalCmd : Obligations.IllegalWordRaisesIllegalCmd := by
  intro s w why rest hc hp hf hd h
  obtain ⟨-, haccept⟩ := cmdWriteIsAcceptedOrIgnored s w _ hc hp h
  refine ⟨_, haccept fun ⟨hlocked, _⟩ => hlocked hf, rfl, rfl, rfl, ?_⟩
  have hfault : s.fault ||| FaultBit.mask .illegalCmd = 0b0000001 := by
    rw [hf]
    rfl
  rw [step_engine rfl, engineStep_illegal rfl hd, ← hfault]
  rfl

/-- Settles O46: the turn raised one command fault, which writes only `FAULT` and the completion, and shows in
`STATUS` and `irq`. -/
theorem raisingAFaultIsPrecise : Obligations.RaisingAFaultIsPrecise := by
  intro s t w hturn hp hstep hr
  rw [step_engineTurn hturn] at hstep
  obtain ⟨f, hf, rfl⟩ := engineStep_eq_raise (s := s.withScript s.script.tail) hp hstep hr
  obtain ⟨k, hk, hmask⟩ := FaultBit.mask_of_mem_ofCommand hf
  exact ⟨⟨k, hk, congrArg (s.fault ||| ·) hmask⟩, rfl,
    (State.getLsbD_status_three _).trans (State.raise_faulted _ f), State.status_result _,
    State.irq_of_faulted (State.raise_faulted _ f)⟩

/-- Settles O52: the bits of the two registers that `irq` reads. -/
theorem irqIsAFunctionOfTheState : Obligations.IrqIsAFunctionOfTheState := by
  intro s
  have hien : ∀ j, j < 32 → (s.regValue .ien).getLsbD j = s.ien.getLsbD j := fun j hj => by
    rw [State.regValue, BitVec.getLsbD_setWidth, decide_eq_true hj, Bool.true_and]
  have hdone : (s.regValue .status).getLsbD 1 = s.done := State.getLsbD_statusWord s 1
  have hfaulted : (s.regValue .status).getLsbD 3 = s.faulted := State.getLsbD_status_three s
  rw [hdone, hfaulted, hien 0 (by decide), hien 1 (by decide), State.irq, State.doneIe, State.faultIe]

end Sys2Proof
end

section
/-! SUPPORT. The register values that the two resets leave, the buffer contents that a hardware reset can choose, and
which steps change a byte of the buffers (rules R55, R232, R290, R291). -/

namespace Sys2Proof.Machine

/-- Every register but `CRC_ACC` reads 0 after reset (rule R55). -/
theorem State.reset_regValue {r : Reg} (hr : r ≠ .crcAcc) : State.reset.regValue r = 0 := by
  cases r
  case crcAcc => exact absurd rfl hr
  all_goals rfl

/-- Hardware reset from any state leaves every register at its reset value (rule R291). -/
theorem State.hardwareReset_regValue (s : State) (cells : List Host.Cell) (r : Reg) :
    (s.hardwareReset cells).regValue r = State.reset.regValue r := by
  cases r <;> rfl

/-- `SRST` leaves every register but `STATUS` at its reset value (rule R232). -/
theorem State.softReset_complete_regValue (s : State) {r : Reg} (hr : r ≠ .status) :
    (s.softReset.complete .ok).regValue r = State.reset.regValue r := by
  cases r
  case status => exact absurd rfl hr
  all_goals rfl

/-- `SRST` leaves `STATUS` with `DONE` set and `LASTOP` 0x01, all else 0 (rules R25, R232). -/
theorem State.softReset_complete_status (s : State) :
    (s.softReset.complete .ok).regValue .status = 0x00010002 :=
  calc (s.softReset.complete .ok).regValue .status
    _ = { State.reset with lastop := 0x01, done := true }.statusWord := rfl
    _ = 0x00010002 := by decide

/-- With every enable bit at its reset value, `irq` is down (rule R265). -/
theorem State.irq_of_ien_eq_zero {s : State} (h : s.ien = 0) : s.irq = false := by
  simp [State.irq, State.doneIe, State.faultIe, h]

/-- A byte written above every listed address is listed last. -/
theorem Memory.write_above {m : Memory} {a : Nat} {b : Byte} (ha : ∀ c ∈ m, c.1 < a)
    (hb : b ≠ Memory.unlisted) : m.write a b = m ++ [(a, b)] := by
  induction m with
  | nil => rw [Memory.write, Memory.place, if_neg hb, List.nil_append]
  | cons d rest ih =>
    have hd : d.1 < a := ha d List.mem_cons_self
    rw [Memory.write, if_neg (Nat.lt_asymm hd), if_neg (Nat.ne_of_gt hd),
      ih fun c hc => ha c (List.mem_cons_of_mem d hc), List.cons_append]

/-- Writing the cells of a canonical memory in their order, behind those that come before, lists them as they are. -/
theorem Memory.writeCells_eq_append {m cs : Memory} (h : (m ++ cs).wf) : m.writeCells cs = m ++ cs := by
  induction cs generalizing m with
  | nil => exact (List.append_nil m).symm
  | cons d cs ih =>
    have habove : ∀ c ∈ m, c.1 < d.1 := fun c hc =>
      (List.pairwise_append.1 h.1).2.2 c hc d List.mem_cons_self
    have hlisted : d.2 ≠ Memory.unlisted := h.2 d (List.mem_append_right m List.mem_cons_self)
    rw [List.append_cons] at h
    rw [Memory.writeCells, Memory.write_above habove hlisted, ih h, ← List.append_cons]

/-- Every canonical memory inside the buffers is a choice of the unspecified contents (rule R291, U1). -/
theorem arbitraryContents_of_wf {c : Config} {m : Memory} (hm : m.wf) (hb : ∀ d ∈ m, (bufAt c d.1).isSome) :
    arbitraryContents c m = m := by
  rw [arbitraryContents, List.filter_eq_self.2 hb, Memory.writeCells_eq_append (m := []) hm, List.nil_append]

/-- A host write changes only the bytes it reaches, in a buffer and while not BUSY (rules R76, R89). -/
theorem State.write_reaches_of_hostWrite_read_ne {s : State} {addr n a : Nat} {v : Word}
    (h : (s.hostWrite addr n v).mem.read a ≠ s.mem.read a) :
    s.pending = none ∧ ∃ b off, target s.cfg addr n = some (.buf b off) ∧ addr ≤ a ∧ a < addr + n := by
  cases hp : s.pending with
  | some w =>
    obtain ⟨f, hf⟩ := State.hostWrite_busy_eq addr n v (by rw [hp]; rfl)
    exact absurd (by rw [hf]) h
  | none =>
    cases ht : target s.cfg addr n with
    | none => exact absurd (by rw [State.hostWrite_illegal v ht]; rfl) h
    | some g =>
      rw [State.hostWrite_idle v ht hp] at h
      cases g with
      | reg r =>
        obtain ⟨-, -, hmem, -⟩ := s.writeReg_keeps v r
        exact absurd (congrArg (Memory.read · a) hmem) h
      | buf b off =>
        obtain ⟨haddr, -⟩ := target_eq_buf ht
        have hinside : ¬ (a < addr ∨ addr + (beBytes n v).length ≤ a) := fun hout =>
          h (Memory.read_writeBytes_outside s.mem (beBytes n v) (haddr ▸ hout))
        rw [length_beBytes] at hinside
        exact ⟨rfl, b, off, rfl, by omega, by omega⟩

/-- The six commands that write a buffer (rule R81). -/
def WritesBuffer (i : Instr) : Prop :=
  (∃ idx, i = .render idx) ∨ i = .rxcompact ∨ i = .grayEnc ∨ i = .grayDec ∨ (∃ k, i = .bpEnc k) ∨ ∃ k, i = .bpDec k

/-- A turn of the engine keeps the memory, or it performs a command that writes a buffer and completes it with OK
(rules R81, R253, R262). -/
theorem engineStep_mem_cases {s t : State} (h : engineStep s = .next t) :
    t.mem = s.mem ∨
      t.result = .ok ∧ ∃ w i, s.pending = some w ∧ decode w = .command i ∧ WritesBuffer i := by
  cases hp : s.pending with
  | none =>
    rw [engineStep_idle hp] at h
    cases h
    exact .inl rfl
  | some w =>
    cases hd : decode w with
    | illegal why =>
      rw [engineStep_illegal hp hd] at h
      cases h
      exact .inl rfl
    | command i =>
      rw [engineStep_command hp hd] at h
      exact (exec_mem_cases i h).imp_right fun ⟨hok, hi⟩ => ⟨hok, w, i, rfl, hd, hi⟩

/-- A byte changes only by a hardware reset, by a host write that reaches it, or on the engine's turn (rule R291). -/
theorem step_read_ne {s t : State} {a : Nat} (h : step s = .next t) (hne : t.mem.read a ≠ s.mem.read a) :
    (∃ cells rest, s.script = .hardReset cells :: rest) ∨
      (∃ addr n v rest, s.script = .write addr n v :: rest ∧
        ((s.withScript rest).hostWrite addr n v).mem.read a ≠ s.mem.read a) ∨
      (s.EngineTurn ∧ engineStep (s.withScript s.script.tail) = .next t) := by
  have hturn : s.EngineTurn → s.EngineTurn ∧ engineStep (s.withScript s.script.tail) = .next t :=
    fun he => ⟨he, (step_engineTurn he).symm.trans h⟩
  cases hs : s.script with
  | nil => exact .inr (.inr (hs ▸ hturn (.inl hs)))
  | cons e rest =>
    cases e with
    | hardReset cells => exact .inl ⟨cells, rest, rfl⟩
    | engine => exact .inr (.inr (hs ▸ hturn (.inr (by rw [hs]; rfl))))
    | write addr n v =>
      rw [step_write hs] at h
      cases h
      exact .inr (.inl ⟨addr, n, v, rest, rfl, hne⟩)
    | read addr n =>
      obtain ⟨r, f, hread⟩ := (s.withScript rest).hostRead_eq addr n
      rw [step_read hs, hread] at h
      cases h
      exact absurd rfl hne

end Sys2Proof.Machine
end

section
/-! PROOFS. The family `70_reset_and_hazards.md`. -/

namespace Sys2Proof

open Machine

/-- Settles O12: the reset values register by register, the contents a hardware reset can choose, and the three kinds
of step that can change a byte. -/
theorem resetStateIsComplete : Obligations.ResetStateIsComplete := by
  refine ⟨fun s cells rest h => ?_, fun s rest m hm hb => ?_, fun s => ?_, fun s t a h hne => ?_⟩
  · have hreg := (s.withScript rest).hardwareReset_regValue cells
    exact ⟨_, step_hardReset h, fun r hr => (hreg r).trans (State.reset_regValue hr), rfl, rfl, rfl,
      State.irq_of_ien_eq_zero rfl⟩
  · exact ⟨m, _, step_hardReset rfl, arbitraryContents_of_wf hm hb⟩
  · exact ⟨_, rfl, s.softReset_complete_status, rfl,
      fun r hs hc => (s.softReset_complete_regValue hs).trans (State.reset_regValue hc),
      rfl, rfl, State.irq_of_ien_eq_zero rfl, fun _ => rfl⟩
  · rcases step_read_ne h hne with hreset | ⟨addr, n, v, rest, hs, hwrite⟩ | ⟨hturn, hengine⟩
    · exact .inl hreset
    · obtain ⟨hp, b, off, hreach⟩ := State.write_reaches_of_hostWrite_read_ne (s := s.withScript rest) hwrite
      exact .inr (.inl ⟨hp, addr, n, v, rest, b, off, hs, hreach⟩)
    · rcases engineStep_mem_cases hengine with hmem | ⟨hok, hcommand⟩
      · exact absurd (congrArg (Memory.read · a) hmem) hne
      · exact .inr (.inr ⟨hturn, hok, hcommand⟩)

end Sys2Proof
end

section
/-! SUPPORT. Each command as its operand check and the state it ends in, and each step as what its event does: the two
inversion lemmas from which the facts about all commands and all steps follow (rules R120, R258, R260, R262). -/

namespace Sys2Proof.Machine

/-- The fault that the operand check of a command raises, if it fails (rules R141, R151, R181, R185, R203). -/
def State.checkFault (s : State) : Instr → Option FaultBit
  | .nop | .srst | .crcInit => none
  | .frame => if s.frameCfgBad then some .badCfg else none
  | .render idx =>
    if !s.framed then some .notFramed
    else if s.burstCount.toNat + 1 < idx then some .badIndex else none
  | .scan | .rxcompact => if s.rxRangeBad then some .badRange else none
  | .grayEnc | .grayDec | .bpEnc _ | .bpDec _ => if s.sampleRangeBad then some .badRange else none

/-- The state `RENDER #idx` ends in when its check passes (rule R185). -/
def State.afterRender (s : State) (idx : Nat) : State :=
  { (s.bufWrite .txbuf 0 (s.wireBytes idx)).setCrc (s.burstCovered idx) with
    txLen := BitVec.ofNat 32 (overheadBytes + (s.burstHeader idx).payload) }.complete .ok

/-- What `RENDER` writes: TXBUF, `TX_LEN` and the accumulator of the bytes its CRC covers, nothing else (rules R63,
R185). -/
theorem State.afterRender_spec (s : State) (idx : Nat) :
    (s.afterRender idx).mem = s.mem.writeBytes (s.cfg.base .txbuf) (s.wireBytes idx) ∧
      (s.afterRender idx).crcFed = s.burstCovered idx ∧
      (s.afterRender idx).crcAcc = crcFinish (s.cfg.crc32 (s.burstCovered idx)) ∧
      s.afterRender idx = { s with
        mem := (s.afterRender idx).mem, crcAcc := (s.afterRender idx).crcAcc,
        crcFed := (s.afterRender idx).crcFed, txLen := (s.afterRender idx).txLen, result := .ok, done := true,
        pending := none } := by
  rw [State.afterRender]
  generalize s.wireBytes idx = bs
  generalize s.burstCovered idx = covered
  generalize overheadBytes + (s.burstHeader idx).payload = n
  exact ⟨rfl, rfl, rfl, rfl⟩

theorem State.afterRender_fault (s : State) (idx : Nat) : (s.afterRender idx).fault = s.fault :=
  have ⟨_, _, _, hframe⟩ := s.afterRender_spec idx
  (congrArg State.fault hframe).trans rfl

theorem State.afterRender_framed (s : State) (idx : Nat) : (s.afterRender idx).framed = s.framed :=
  have ⟨_, _, _, hframe⟩ := s.afterRender_spec idx
  (congrArg State.framed hframe).trans rfl

/-- The state `RXCOMPACT` ends in when its check passes (rule R215). -/
def State.afterRxcompact (s : State) : State :=
  { s.bufWrite .rxbuf 0 (s.bufBytes .rxbuf s.rxPos.toNat (s.rxLen.toNat - s.rxPos.toNat)) with
    rxLen := BitVec.ofNat 32 (s.rxLen.toNat - s.rxPos.toNat), rxPos := 0, rxKind := .none }.complete .ok

/-- The state a command ends in when its operand check passes (rules R120, R260). -/
def State.after (s : State) : Instr → State
  | .nop => s.complete .ok
  | .srst => s.softReset.complete .ok
  | .crcInit => { s with crcAcc := crcStart, crcFed := [] }.complete .ok
  | .frame =>
    { s with
      burstCount := BitVec.ofNat 32 (ceilDiv s.pktLen.toNat s.burstSize.toNat), framed := true }.complete .ok
  | .render idx => s.afterRender idx
  | .scan => s.applyScan s.scanWindow
  | .rxcompact => s.afterRxcompact
  | .grayEnc => (s.mapSamples grayEnc).complete .ok
  | .grayDec => (s.mapSamples grayDec).complete .ok
  | .bpEnc k => s.afterBpEnc k
  | .bpDec k => s.afterBpDec k

/-- Every command raises the fault of its check or ends in its state. -/
theorem exec_eq (i : Instr) (s : State) :
    exec i s = .next ((s.checkFault i).elim (s.after i) s.raise) := by
  cases i with
  | nop => rfl
  | srst => rfl
  | crcInit => rfl
  | frame =>
    simp only [exec, execFrame, State.checkFault]
    cases s.frameCfgBad <;> rfl
  | render idx =>
    simp only [exec, execRender, State.checkFault]
    cases s.framed
    · rfl
    · by_cases hi : s.burstCount.toNat + 1 < idx
      · simp only [if_pos hi]; rfl
      · simp only [if_neg hi]; rfl
  | scan =>
    simp only [exec, execScan, State.checkFault]
    cases s.rxRangeBad <;> rfl
  | rxcompact =>
    simp only [exec, execRxcompact, State.checkFault]
    cases s.rxRangeBad <;> rfl
  | grayEnc =>
    simp only [exec, execGrayEnc, State.checkFault]
    cases s.sampleRangeBad <;> rfl
  | grayDec =>
    simp only [exec, execGrayDec, State.checkFault]
    cases s.sampleRangeBad <;> rfl
  | bpEnc k =>
    simp only [exec, execBpEnc, State.checkFault]
    cases s.sampleRangeBad <;> rfl
  | bpDec k =>
    simp only [exec, execBpDec, State.checkFault]
    cases s.sampleRangeBad <;> rfl

theorem exec_of_check {i : Instr} {s : State} (h : s.checkFault i = none) : exec i s = .next (s.after i) := by
  rw [exec_eq, h]
  rfl

theorem exec_of_checkFault {i : Instr} {s : State} {f : FaultBit} (h : s.checkFault i = some f) :
    exec i s = .next (s.raise f) := by
  rw [exec_eq, h]
  rfl

/-- Where a command ends, it raised a fault or its check passed. -/
theorem exec_cases {i : Instr} {s t : State} (h : exec i s = .next t) :
    (∃ f, s.checkFault i = some f ∧ t = s.raise f) ∨ (s.checkFault i = none ∧ t = s.after i) := by
  cases hf : s.checkFault i with
  | none => exact .inr ⟨rfl, Host.Outcome.next.inj (h.symm.trans (exec_of_check hf))⟩
  | some f => exact .inl ⟨f, rfl, Host.Outcome.next.inj (h.symm.trans (exec_of_checkFault hf))⟩

theorem State.checkFault_frame {s : State} : s.checkFault .frame = none ↔ s.frameCfgBad = false := by
  rw [State.checkFault]
  cases s.frameCfgBad <;> simp

theorem State.checkFault_render {s : State} {idx : Nat} :
    s.checkFault (.render idx) = none ↔ s.framed = true ∧ idx ≤ s.burstCount.toNat + 1 := by
  rw [State.checkFault]
  cases s.framed <;> simp

theorem State.checkFault_rx {s : State} :
    (s.checkFault .scan = none ↔ s.RxRangeOk) ∧ (s.checkFault .rxcompact = none ↔ s.RxRangeOk) := by
  simp only [State.checkFault, State.rxRangeBad]
  simp

theorem State.checkFault_samples {s : State} {i : Instr}
    (hi : i = .grayEnc ∨ i = .grayDec ∨ (∃ k, i = .bpEnc k) ∨ ∃ k, i = .bpDec k) :
    s.checkFault i = none ↔ s.nsamp.toNat ≤ s.cfg.nmax := by
  rcases hi with rfl | rfl | ⟨k, rfl⟩ | ⟨k, rfl⟩ <;> simp [State.checkFault, State.sampleRangeBad]

/-- What a step is: the engine's turn, a host access, or a hardware reset (rule R258). -/
theorem step_cases {s t : State} (h : step s = .next t) :
    (s.EngineTurn ∧ engineStep (s.withScript s.script.tail) = .next t) ∨
    (∃ addr n rest, s.script = .read addr n :: rest ∧ t = (s.withScript rest).hostRead addr n) ∨
    (∃ addr n v rest, s.script = .write addr n v :: rest ∧ t = (s.withScript rest).hostWrite addr n v) ∨
    (∃ cells rest, s.script = .hardReset cells :: rest ∧ t = (s.withScript rest).hardwareReset cells) := by
  have hturn (he : s.EngineTurn) : s.EngineTurn ∧ engineStep (s.withScript s.script.tail) = .next t :=
    ⟨he, (step_engineTurn he).symm.trans h⟩
  cases hs : s.script with
  | nil => exact .inl (hs ▸ hturn (.inl hs))
  | cons e rest =>
    cases e with
    | engine => exact .inl (hs ▸ hturn (.inr (by rw [hs]; rfl)))
    | read addr n =>
      rw [step_read hs] at h
      exact .inr (.inl ⟨addr, n, rest, rfl, (Host.Outcome.next.inj h).symm⟩)
    | write addr n v =>
      rw [step_write hs] at h
      exact .inr (.inr (.inl ⟨addr, n, v, rest, rfl, (Host.Outcome.next.inj h).symm⟩))
    | hardReset cells =>
      rw [step_hardReset hs] at h
      exact .inr (.inr (.inr ⟨cells, rest, rfl, (Host.Outcome.next.inj h).symm⟩))

/-- What the engine's turn is: nothing, a fault of the pending word or of its command's check, or the command's state
(rules R253, R258, R262). -/
theorem engineStep_cases {s t : State} (h : engineStep s = .next t) :
    (s.pending = none ∧ t = s) ∨ (∃ f, t = s.raise f) ∨
      ∃ w i, s.pending = some w ∧ decode w = .command i ∧ s.checkFault i = none ∧ t = s.after i := by
  cases hp : s.pending with
  | none =>
    rw [engineStep_idle hp] at h
    exact .inl ⟨rfl, (Host.Outcome.next.inj h).symm⟩
  | some w =>
    cases hd : decode w with
    | illegal why =>
      rw [engineStep_illegal hp hd] at h
      exact .inr (.inl ⟨_, (Host.Outcome.next.inj h).symm⟩)
    | command i =>
      rw [engineStep_command hp hd] at h
      rcases exec_cases h with ⟨f, -, rfl⟩ | ⟨hc, rfl⟩
      · exact .inr (.inl ⟨f, rfl⟩)
      · exact .inr (.inr ⟨w, i, rfl, hd, hc, rfl⟩)

/-- What a host write is: refused, or the write effect of a register or of a buffer (rules R76, R79, R89). -/
theorem State.hostWrite_cases (s : State) (addr n : Nat) (v : Word) :
    (∃ f, s.hostWrite addr n v = s.refuseAccess f) ∨
    (s.pending = none ∧ ∃ r, target s.cfg addr n = some (.reg r) ∧
      s.hostWrite addr n v = (s.writeReg v r).respond .ok) ∨
    (s.pending = none ∧ ∃ b off, target s.cfg addr n = some (.buf b off) ∧
      s.hostWrite addr n v = (s.bufWrite b off (beBytes n v)).respond .ok) := by
  cases ht : target s.cfg addr n with
  | none => exact .inl ⟨_, State.hostWrite_illegal v ht⟩
  | some g =>
    cases hp : s.pending with
    | some w => exact .inl ⟨_, State.hostWrite_busy v ht (by rw [hp]; rfl)⟩
    | none =>
      have e := State.hostWrite_idle v ht hp
      cases g with
      | reg r => exact .inr (.inl ⟨rfl, r, rfl, e⟩)
      | buf b off => exact .inr (.inr ⟨rfl, b, off, rfl, e⟩)

end Sys2Proof.Machine
end

section
/-! SUPPORT. The invariant under each operation on the state and under each command (rules R29, R36, R37, R41 to R45,
R50, R62, R81, R256). -/

namespace Sys2Proof.Machine

/-- The number of bursts is at most the packet length, so it fits its register (rules R36, R181). -/
theorem toNat_ofNat_ceilDiv (l d : Word) (hd : 0 < d.toNat) :
    (BitVec.ofNat 32 (ceilDiv l.toNat d.toNat)).toNat = ceilDiv l.toNat d.toNat := by
  have hle : ceilDiv l.toNat d.toNat ≤ l.toNat := by
    rw [ceilDiv, ← Nat.lt_succ_iff, Nat.div_lt_iff_lt_mul hd, Nat.succ_mul]
    have := Nat.le_mul_of_pos_right l.toNat hd
    omega
  rw [BitVec.toNat_ofNat, Nat.mod_eq_of_lt (hle.trans_lt l.isLt)]

theorem pos_of_mem_legalBurstSizes {n : Nat} (h : n ∈ legalBurstSizes) : 0 < n :=
  (by decide : ∀ m ∈ legalBurstSizes, 0 < m) n h

theorem State.frameCfgBad_eq_false_iff {s : State} :
    s.frameCfgBad = false ↔ s.burstSize.toNat ∈ legalBurstSizes ∧ s.pktLen.toNat ≤ s.cfg.maxPacket := by
  simp [State.frameCfgBad]

/-- A write inside a buffer lists no byte outside the buffers (rule R81). -/
theorem State.MemInBuffers.bufWrite {s : State} (hc : s.cfg.Legal) (h : s.MemInBuffers) {b : Buf} {i : Nat}
    {bs : List Byte} (hin : i + bs.length ≤ s.cfg.size b) : (s.bufWrite b i bs).MemInBuffers := by
  intro c hm
  rcases Memory.mem_writeBytes hm with hold | ⟨hlo, hhi⟩
  · exact h c hold
  · have : bufAt s.cfg c.1 = some b := bufAt_of_mem hc ⟨by omega, by omega⟩
    exact Option.isSome_iff_exists.2 ⟨b, this⟩

theorem State.length_unexamined_le {s : State} (hr : s.RxRangeOk) :
    (s.bufBytes .rxbuf s.rxPos.toNat (s.rxLen.toNat - s.rxPos.toNat)).length ≤ s.cfg.size .rxbuf := by
  rw [State.length_bufBytes]
  exact (Nat.sub_le _ _).trans hr.1

/-- `NMAX` samples fill SMP (rule R59). -/
theorem length_sampleBytes_le {c : Config} {vs : List Sample} (hvs : vs.length ≤ c.nmax) :
    (vs.flatMap sampleBytes).length ≤ c.size .smp := by
  rw [length_flatMap_sampleBytes, Config.size]
  omega

/-- Nothing is pending, so acceptance promises nothing. -/
theorem State.pendingCoherent_of_none {s : State} (h : s.pending = none) : s.PendingCoherent :=
  fun w hw => absurd (h.symm.trans hw) (by simp)

section Operations

variable {s : State} (h : Inv s)
include h

theorem Inv.complete (r : Result) : Inv (s.complete r) :=
  ⟨h.cfgLegal, h.memWf, h.memInBuffers, State.pendingCoherent_of_none rfl, h.framedCoherent, h.reportInRange,
    h.lengthsInRange, h.crcCoherent⟩

/-- No relation of the invariant speaks of `FAULT`, of the bus or of the events to come. -/
theorem Inv.environment (f : BitVec 7) (r : Option BusResponse) (es : List Event) :
    Inv { s with fault := f, busResp := r, script := es } :=
  ⟨h.cfgLegal, h.memWf, h.memInBuffers, h.pendingCoherent, h.framedCoherent, h.reportInRange,
    h.lengthsInRange, h.crcCoherent⟩

theorem Inv.withScript (es : List Event) : Inv (s.withScript es) := h.environment s.fault s.busResp es

theorem Inv.respond (r : BusResponse) : Inv (s.respond r) := h.environment s.fault (some r) s.script

theorem Inv.setFault (f : FaultBit) : Inv (s.setFault f) := h.environment _ s.busResp s.script

theorem Inv.raise (f : FaultBit) : Inv (s.raise f) := (h.setFault f).complete _

theorem Inv.refuseAccess (f : FaultBit) : Inv (s.refuseAccess f) := (h.setFault f).respond _

theorem Inv.accept (w : Word) : Inv (s.accept w) :=
  ⟨h.cfgLegal, h.memWf, h.memInBuffers, fun w' hw => ⟨rfl, by cases hw; rfl⟩, h.framedCoherent,
    h.reportInRange, h.lengthsInRange, h.crcCoherent⟩

theorem Inv.bufWrite {b : Buf} {i : Nat} {bs : List Byte} (hin : i + bs.length ≤ s.cfg.size b) :
    Inv (s.bufWrite b i bs) :=
  ⟨h.cfgLegal, Memory.writeBytes_wf h.memWf _ _, State.MemInBuffers.bufWrite h.cfgLegal h.memInBuffers hin,
    h.pendingCoherent, h.framedCoherent, h.reportInRange, h.lengthsInRange, h.crcCoherent⟩

theorem Inv.setCrc {bs : List Byte} (hbs : bs ≠ []) : Inv (s.setCrc bs) :=
  ⟨h.cfgLegal, h.memWf, h.memInBuffers, h.pendingCoherent, h.framedCoherent, h.reportInRange,
    h.lengthsInRange, s.setCrc_coherent hbs⟩

theorem Inv.feedCrc (w : Word) : Inv (s.feedCrc w) :=
  ⟨h.cfgLegal, h.memWf, h.memInBuffers, h.pendingCoherent, h.framedCoherent, h.reportInRange,
    h.lengthsInRange, State.feedCrc_coherent h.crcCoherent w⟩

theorem Inv.issue (w : Word) : Inv (s.issue w) := by
  rw [State.issue]
  split
  · exact h
  · exact h.accept w

/-- The write effect of a register: acceptance, one byte fed, or a field that the other relations leave free
(rules R53, R80). -/
theorem Inv.writeReg (v : Word) (r : Reg) : Inv (s.writeReg v r) := by
  obtain ⟨hcfg, hwf, hin, hpend, hframed, hrep, hlen, hcrc⟩ := id h
  cases r with
  | cmd => exact h.issue v
  | crcData => exact h.feedCrc v
  | status =>
    rw [State.writeReg]
    split
    · exact ⟨hcfg, hwf, hin, fun w hw => ⟨rfl, (hpend w hw).2⟩, hframed, hrep, hlen, hcrc⟩
    · exact h
  | burstSize => exact ⟨hcfg, hwf, hin, hpend, nofun, hrep, hlen, hcrc⟩
  | pktLen => exact ⟨hcfg, hwf, hin, hpend, nofun, hrep, hlen, hcrc⟩
  | _ => exact ⟨hcfg, hwf, hin, hpend, hframed, hrep, hlen, hcrc⟩

theorem Inv.hostRead (addr n : Nat) : Inv (s.hostRead addr n) := by
  obtain ⟨r, f, e⟩ := s.hostRead_eq addr n
  rw [e]
  exact h.environment _ _ s.script

theorem Inv.hostWrite (addr n : Nat) (v : Word) : Inv (s.hostWrite addr n v) := by
  rcases s.hostWrite_cases addr n v with ⟨f, e⟩ | ⟨-, r, -, e⟩ | ⟨-, b, off, ht, e⟩ <;> rw [e]
  · exact h.refuseAccess f
  · exact (h.writeReg v r).respond _
  · obtain ⟨rfl, -, -, hend⟩ := target_eq_buf ht
    exact (h.bufWrite (by rw [length_beBytes]; omega)).respond _

end Operations

/-! ### The two resets -/

/-- The reset values meet the invariant with any legal parameters and any canonical contents of the buffers
(rules R55, R291). -/
theorem Inv.powerOn {c : Config} {m : Memory} (hc : c.Legal) (hm : m.wf)
    (hb : ∀ d ∈ m, (bufAt c d.1).isSome) : Inv (State.powerOn c m) :=
  ⟨hc, hm, hb, State.pendingCoherent_of_none rfl, nofun, (by decide : State.reset.ReportInRange),
    ⟨Nat.zero_le _, Nat.zero_le _⟩, fun _ => rfl, fun hne => absurd rfl hne⟩

theorem Inv.reset : Inv State.reset := Inv.powerOn Config.default_legal Memory.wf_nil nofun

/-- The unspecified contents after a hardware reset are canonical and inside the buffers (U1). -/
theorem Inv.hardwareReset {s : State} (h : Inv s) (cells : List Host.Cell) : Inv (s.hardwareReset cells) := by
  refine (Inv.powerOn h.cfgLegal (Memory.writeCells_wf Memory.wf_nil _) fun d hd => ?_).withScript _
  rcases Memory.mem_writeCells hd with hnil | hcell
  · cases hnil
  · exact (List.mem_filter.1 hcell).2

theorem Inv.softReset {s : State} (h : Inv s) : Inv s.softReset :=
  have ⟨hcfg, hwf, hin, _, hframed, hrep, hlen, hcrc⟩ := Inv.powerOn h.cfgLegal h.memWf h.memInBuffers
  ⟨hcfg, hwf, hin, State.pendingCoherent_of_none rfl, hframed, hrep, hlen, hcrc⟩

/-! ### The commands -/

section Commands

variable {s : State} (h : Inv s)
include h

/-- `TX_LEN` and completion, after a write that kept the invariant (rule R185). -/
theorem Inv.complete_txLen {n : Nat} (hn : n ≤ s.cfg.size .txbuf) :
    Inv ({ s with txLen := BitVec.ofNat 32 n }.complete .ok) :=
  have ⟨_, hpln⟩ := h.lengthsInRange
  ⟨h.cfgLegal, h.memWf, h.memInBuffers, State.pendingCoherent_of_none rfl, h.framedCoherent, h.reportInRange,
    ⟨(Nat.mod_le _ _).trans hn, hpln⟩, h.crcCoherent⟩

theorem State.length_wireBytes_le (hf : s.framed = true) (idx : Nat) :
    (s.wireBytes idx).length ≤ s.cfg.size .txbuf := by
  rw [State.length_wireBytes]
  exact Nat.add_le_add_left (State.payload_le h.framedCoherent hf idx) _

theorem Inv.afterRender {idx : Nat} (hf : s.framed = true) : Inv (s.afterRender idx) := by
  have hin := State.length_wireBytes_le h hf idx
  have hne := s.burstCovered_ne_nil idx
  have hle : overheadBytes + (s.burstHeader idx).payload ≤ s.cfg.size .txbuf := by
    rwa [State.length_wireBytes] at hin
  rw [State.afterRender]
  generalize s.wireBytes idx = bs at hin ⊢
  generalize s.burstCovered idx = covered at hne ⊢
  exact ((h.bufWrite ((Nat.zero_add _).trans_le hin)).setCrc hne).complete_txLen hle

theorem Inv.afterRxcompact (hr : s.RxRangeOk) : Inv s.afterRxcompact := by
  obtain ⟨hcfg, hwf, hbuf, -, hframed, ⟨h1, h2, h3, h4, h5, -⟩, hlen, hcrc⟩ :=
    h.bufWrite ((Nat.zero_add _).trans_le (State.length_unexamined_le hr))
  exact ⟨hcfg, hwf, hbuf, State.pendingCoherent_of_none rfl, hframed, ⟨h1, h2, h3, h4, h5, nofun, nofun, nofun⟩,
    hlen, hcrc⟩

theorem Inv.writeSamples {vs : List Sample} (hvs : vs.length ≤ s.cfg.nmax) : Inv (s.writeSamples vs) :=
  h.bufWrite ((Nat.zero_add _).trans_le (length_sampleBytes_le hvs))

theorem Inv.mapSamples (hn : s.nsamp.toNat ≤ s.cfg.nmax) (f : Sample → Sample) : Inv (s.mapSamples f) :=
  h.writeSamples (by simpa using hn)

theorem State.planeLen_le (hn : s.nsamp.toNat ≤ s.cfg.nmax) (k : Nat) : s.planeLen k ≤ s.cfg.size .pln := by
  have hg := State.groups_le h.cfgLegal hn
  have : (16 - k) * s.groups ≤ 16 * s.groups := Nat.mul_le_mul_right _ (Nat.sub_le _ _)
  rw [State.planeLen, Config.size]
  omega

/-- `PLN_LEN` and completion, after a write that kept the invariant (rule R160). -/
theorem Inv.complete_plnLen {n : Nat} (hn : n ≤ s.cfg.size .pln) :
    Inv ({ s with plnLen := BitVec.ofNat 32 n }.complete .ok) :=
  have ⟨htx, _⟩ := h.lengthsInRange
  ⟨h.cfgLegal, h.memWf, h.memInBuffers, State.pendingCoherent_of_none rfl, h.framedCoherent, h.reportInRange,
    ⟨htx, (Nat.mod_le _ _).trans hn⟩, h.crcCoherent⟩

theorem Inv.afterBpEnc (hn : s.nsamp.toNat ≤ s.cfg.nmax) (k : Nat) : Inv (s.afterBpEnc k) := by
  have hle := State.planeLen_le h hn k
  have hin : (s.planeBytes k).length ≤ s.cfg.size .pln := by rwa [State.length_planeBytes]
  exact (h.bufWrite ((Nat.zero_add _).trans_le hin)).complete_plnLen hle

theorem Inv.afterBpDec (hn : s.nsamp.toNat ≤ s.cfg.nmax) (k : Nat) : Inv (s.afterBpDec k) :=
  (h.writeSamples (by simpa using hn)).complete_plnLen (State.planeLen_le h hn k)

/-- An outcome that reports no burst writes `RX_KIND`, the cursor and, with a computed CRC, its registers
(rules R205 to R210). -/
theorem Inv.complete_noKind (p computed rcvd : Word) (r : Result) :
    Inv ({ s with rxKind := .none, rxPos := p, rxCrcCalc := computed, rxCrcRcvd := rcvd }.complete r) :=
  have ⟨h1, h2, h3, h4, h5, _⟩ := h.reportInRange
  ⟨h.cfgLegal, h.memWf, h.memInBuffers, State.pendingCoherent_of_none rfl, h.framedCoherent,
    ⟨h1, h2, h3, h4, h5, nofun, nofun, nofun⟩, h.lengthsInRange, h.crcCoherent⟩

end Commands

/-- The kinds a well-formed header has, with the numbers that go with each (rules R40, R44, R45, R106). -/
theorem header_kind_in_range {h : List Byte} {hd : Header} (hc : classify h = some hd) :
    (hd.kind = .announce → hd.bn = 0) ∧ (hd.kind = .data → 1 ≤ hd.bn ∧ hd.val ≤ burstMax) ∧
      (hd.kind = .terminal → hd.bn = 0 ∧ hd.val = 0) := by
  obtain ⟨-, ⟨rfl, -⟩ | ⟨-, -, rfl⟩ | ⟨-, hbn, hsz, rfl⟩⟩ := classify_eq_some hc
  · exact ⟨nofun, nofun, fun _ => ⟨rfl, rfl⟩⟩
  · exact ⟨fun _ => rfl, nofun, nofun⟩
  · exact ⟨nofun, fun _ => ⟨Nat.one_le_iff_ne_zero.2 hbn, hsz⟩, nofun⟩

/-- The numbers of a well-formed header fit the registers that report them (rules R41 to R45). -/
theorem toNat_report_fields {h : List Byte} {hd : Header} (hc : classify h = some hd) :
    (BitVec.ofNat 14 (decVal (slice h 4 4))).toNat = decVal (slice h 4 4) ∧
      (BitVec.ofNat 17 (decVal (slice h 8 5))).toNat = decVal (slice h 8 5) ∧
      (BitVec.ofNat 14 (decVal (slice h 13 4))).toNat = decVal (slice h 13 4) ∧
      (BitVec.ofNat 10 hd.bn).toNat = hd.bn ∧ (BitVec.ofNat 14 hd.val).toNat = hd.val := by
  obtain ⟨h1, h2, h3, h4, h5⟩ := header_fields_in_range hc
  simp only [BitVec.toNat_ofNat]
  refine ⟨Nat.mod_eq_of_lt ?_, Nat.mod_eq_of_lt ?_, Nat.mod_eq_of_lt ?_, Nat.mod_eq_of_lt ?_,
    Nat.mod_eq_of_lt ?_⟩ <;> omega

/-- What a verified burst reports is in range (rules R41 to R45, R211). -/
theorem State.reportInRange_verified (s : State) (q : Nat) {h covered : List Byte} {hd : Header}
    (hc : classify h = some hd) : (s.applyScan (.verified q h hd covered)).ReportInRange := by
  obtain ⟨h1, h2, h3, h4, h5⟩ := header_fields_in_range hc
  obtain ⟨k1, k2, k3⟩ := header_kind_in_range hc
  obtain ⟨e1, e2, e3, e4, e5⟩ := toNat_report_fields hc
  exact ⟨e1.trans_le h1, e2.trans_le h2, e3.trans_le h3, e4.trans_le h4, e5.trans_le h5,
    fun hk => e4.trans (k1 hk), fun hk => ⟨(k2 hk).1.trans_eq e4.symm, e5.trans_le (k2 hk).2⟩,
    fun hk => ⟨e4.trans (k3 hk).1, e5.trans (k3 hk).2⟩⟩

/-- Each outcome of an attempt keeps the invariant (rules R205 to R211). -/
theorem Inv.afterScan {s : State} (h : Inv s) : Inv (s.applyScan s.scanWindow) := by
  rcases s.scanWindow_outcomes with
    e | ⟨q, -, -, -, e | ⟨e, -⟩ | ⟨covered, rcvd, e, -⟩ | ⟨hd, covered, hc, e, -⟩⟩
  · rw [e]; exact h.complete_noKind _ s.rxCrcCalc s.rxCrcRcvd _
  · rw [e]; exact h.complete_noKind _ s.rxCrcCalc s.rxCrcRcvd _
  · rw [e]; exact h.complete_noKind _ s.rxCrcCalc s.rxCrcRcvd _
  · rw [e]
    exact (h.setCrc (State.scanWindow_covered_ne_nil (.inl ⟨_, _, e⟩))).complete_noKind _ _ _ _
  · have hne := State.scanWindow_covered_ne_nil (.inr ⟨_, _, _, e⟩)
    rw [e]
    exact ⟨h.cfgLegal, h.memWf, h.memInBuffers, State.pendingCoherent_of_none rfl, h.framedCoherent,
      s.reportInRange_verified q hc, h.lengthsInRange, s.setCrc_coherent hne⟩

/-- A `FRAME` that passes its checks makes `FRAMED` true of what it wrote (rules R62, R181). -/
theorem Inv.afterFrame {s : State} (h : Inv s) (hc : s.frameCfgBad = false) : Inv (s.after .frame) := by
  obtain ⟨hsize, hlen⟩ := State.frameCfgBad_eq_false_iff.1 hc
  exact ⟨h.cfgLegal, h.memWf, h.memInBuffers, State.pendingCoherent_of_none rfl,
    fun _ => ⟨hsize, hlen, toNat_ofNat_ceilDiv _ _ (pos_of_mem_legalBurstSizes hsize)⟩, h.reportInRange,
    h.lengthsInRange, h.crcCoherent⟩

/-- `CRC_INIT` leaves nothing fed (rule R169). -/
theorem Inv.afterCrcInit {s : State} (h : Inv s) : Inv (s.after .crcInit) :=
  ⟨h.cfgLegal, h.memWf, h.memInBuffers, State.pendingCoherent_of_none rfl, h.framedCoherent, h.reportInRange,
    h.lengthsInRange, fun _ => rfl, fun hne => absurd rfl hne⟩

/-- A command whose check passes keeps the invariant. -/
theorem Inv.after {s : State} (h : Inv s) {i : Instr} (hc : s.checkFault i = none) : Inv (s.after i) := by
  cases i with
  | nop => exact h.complete _
  | srst => exact h.softReset.complete _
  | crcInit => exact h.afterCrcInit
  | frame => exact h.afterFrame (State.checkFault_frame.1 hc)
  | render idx => exact h.afterRender (State.checkFault_render.1 hc).1
  | scan => exact h.afterScan
  | rxcompact => exact h.afterRxcompact (State.checkFault_rx.2.1 hc)
  | grayEnc => exact (h.mapSamples ((State.checkFault_samples (by simp)).1 hc) _).complete _
  | grayDec => exact (h.mapSamples ((State.checkFault_samples (by simp)).1 hc) _).complete _
  | bpEnc k => exact h.afterBpEnc ((State.checkFault_samples (by simp)).1 hc) k
  | bpDec k => exact h.afterBpDec ((State.checkFault_samples (by simp)).1 hc) k

theorem Inv.engineStep {s t : State} (h : Inv s) (ht : engineStep s = .next t) : Inv t := by
  rcases engineStep_cases ht with ⟨-, rfl⟩ | ⟨f, rfl⟩ | ⟨w, i, -, -, hc, rfl⟩
  · exact h
  · exact h.raise f
  · exact h.after hc

end Sys2Proof.Machine
end

section
/-! SUPPORT. Every state has a next state, and a pending command waits for the engine's turn (rules R258, R259). -/

namespace Sys2Proof.Machine

/-- The next state exists, with the same parameters. -/
theorem exists_step (s : State) : ∃ t, step s = .next t ∧ t.cfg = s.cfg := by
  cases hs : s.script with
  | nil =>
    obtain ⟨t, ht, hcfg, -⟩ := engineStep_keeps s
    exact ⟨t, (step_idle hs).trans ht, hcfg⟩
  | cons e rest =>
    cases e with
    | engine =>
      obtain ⟨t, ht, hcfg, -⟩ := engineStep_keeps (s.withScript rest)
      exact ⟨t, (step_engine hs).trans ht, hcfg⟩
    | read addr n =>
      obtain ⟨r, f, e⟩ := (s.withScript rest).hostRead_eq addr n
      exact ⟨_, step_read hs, by rw [e]; rfl⟩
    | write addr n v => exact ⟨_, step_write hs, ((s.withScript rest).hostWrite_keeps addr n v).1⟩
    | hardReset cells => exact ⟨_, step_hardReset hs, rfl⟩

/-- A run goes on from where its first step leads. -/
theorem run_succ {M : Host.Core} {s t : M.State} (k : Nat) (h : M.step s = .next t) :
    M.run (k + 1) s = M.run k t := by
  rw [Host.Core.run, h]

/-- While a command is pending, a host access leaves it pending and takes itself off the script (rules R61, R89). -/
theorem step_host_access_of_pending {s : State} {w : Word} (hp : s.pending = some w) {e : Event}
    {rest : List Event} (hs : s.script = e :: rest)
    (he : (∃ addr n, e = .read addr n) ∨ ∃ addr n v, e = .write addr n v) :
    ∃ t, step s = .next t ∧ t.pending = some w ∧ t.script = rest := by
  rcases he with ⟨addr, n, rfl⟩ | ⟨addr, n, v, rfl⟩
  · obtain ⟨r, f, e⟩ := (s.withScript rest).hostRead_eq addr n
    exact ⟨_, step_read hs, by rw [e]; exact hp, by rw [e]; rfl⟩
  · obtain ⟨f, e⟩ := State.hostWrite_busy_eq (s := s.withScript rest) addr n v (by
      rw [State.withScript_pending, hp]; rfl)
    exact ⟨_, step_write hs, by rw [e]; exact hp, by rw [e]; rfl⟩

/-- The engine's turn leaves nothing pending (rule R260). -/
theorem step_engineTurn_pending {s : State} (h : s.EngineTurn) : ∃ t, step s = .next t ∧ t.pending = none := by
  obtain ⟨t, ht, -, -, hp⟩ := engineStep_keeps (s.withScript s.script.tail)
  exact ⟨t, (step_engineTurn h).trans ht, hp⟩

/-- Within `n` steps of `s` the word `w` is still pending and the engine's turn or a hardware reset comes, after which
nothing is pending (rule R259). -/
def State.TurnComesWithin (n : Nat) (s : State) (w : Word) : Prop :=
  ∃ k u t, k ≤ n ∧ core.run k s = .next u ∧ u.pending = some w ∧
    (u.EngineTurn ∨ ∃ cells rest, u.script = .hardReset cells :: rest) ∧ step u = .next t ∧ t.pending = none

theorem State.TurnComesWithin.of_engineTurn {s : State} {w : Word} (n : Nat) (hp : s.pending = some w)
    (h : s.EngineTurn) : s.TurnComesWithin n w :=
  have ⟨t, ht, hn⟩ := step_engineTurn_pending h
  ⟨0, s, t, Nat.zero_le n, rfl, hp, .inl h, ht, hn⟩

theorem State.TurnComesWithin.of_hardReset {s : State} {w : Word} (n : Nat) (hp : s.pending = some w)
    {cells : List Host.Cell} {rest : List Event} (h : s.script = .hardReset cells :: rest) :
    s.TurnComesWithin n w :=
  ⟨0, s, _, Nat.zero_le n, rfl, hp, .inr ⟨cells, rest, h⟩, step_hardReset h, rfl⟩

theorem State.TurnComesWithin.of_step {s a : State} {w : Word} {n : Nat} (ha : step s = .next a)
    (h : a.TurnComesWithin n w) : s.TurnComesWithin (n + 1) w :=
  have ⟨k, u, t, hk, hrun, hrest⟩ := h
  ⟨k + 1, u, t, Nat.succ_le_succ hk, (run_succ (M := core) k ha).trans hrun, hrest⟩

/-- A pending command is performed or abandoned within the events ordered (rule R259). -/
theorem State.turnComesWithin {s : State} {w : Word} (hp : s.pending = some w) :
    s.TurnComesWithin s.script.length w := by
  generalize hs : s.script = es
  induction es generalizing s with
  | nil => exact .of_engineTurn _ hp (.inl hs)
  | cons e rest ih =>
    have haccess (he : (∃ addr n, e = .read addr n) ∨ ∃ addr n v, e = .write addr n v) :
        s.TurnComesWithin (e :: rest).length w :=
      have ⟨_, ha, hpa, hsa⟩ := step_host_access_of_pending hp hs he
      .of_step ha (ih hpa hsa)
    cases e with
    | read addr n => exact haccess (.inl ⟨addr, n, rfl⟩)
    | write addr n v => exact haccess (.inr ⟨addr, n, v, rfl⟩)
    | engine => exact .of_engineTurn _ hp (.inr (by rw [hs]; rfl))
    | hardReset cells => exact .of_hardReset _ hp hs

end Sys2Proof.Machine
end

section
/-! PROOFS. The family `other`: the command word, the machine's step, and the invariant. -/

namespace Sys2Proof

open Machine

/-- Settles O1: constructor by constructor, the fields packed are the fields decoded. -/
theorem decodeOfEncodeIsTheCommand : Obligations.DecodeOfEncodeIsTheCommand :=
  fun _ h => decode_encode h

/-- Settles O2: the opcode map answers only the command whose word has these fields. -/
theorem encodeOfDecodeIsTheWord : Obligations.EncodeOfDecodeIsTheWord := by
  intro w i h
  obtain ⟨hwf, hw⟩ := decode_eq_command_iff.1 h
  exact ⟨hwf, hw.symm⟩

/-- Settles O4: the words are closed terms, which the decoder evaluates. -/
theorem sampleWordsDecode : Obligations.SampleWordsDecode := by
  unfold Obligations.SampleWordsDecode
  decide

/-- Settles O5: the engine's turn by what is pending; a placed word is pending and decodes to its command. -/
theorem engineTurnRunsThePendingCommand : Obligations.EngineTurnRunsThePendingCommand := by
  refine ⟨fun s w i rest hs hp hd => ?_, fun s w i hs hp hd => ?_, fun s w why hturn hp hd => ?_,
    fun s rest hs hp => ?_, fun s hs hp => ?_, fun s i hi => ?_⟩
  · rw [step_engine hs]
    exact engineStep_command (s := s.withScript rest) hp hd
  · rw [step_idle hs]
    exact engineStep_command hp hd
  · rw [step_engineTurn hturn]
    exact engineStep_illegal (s := s.withScript s.script.tail) hp hd
  · rw [step_engine hs]
    exact engineStep_idle (s := s.withScript rest) hp
  · rw [step_idle hs]
    exact engineStep_idle hp
  · have hw : tableWord 32 (encode i).toNat = encode i := by
      rw [tableWord, Nat.mod_eq_of_lt (encode i).isLt, BitVec.ofNat_toNat, BitVec.setWidth_eq]
    rw [State.withFetchWord, hw, step_engine (rest := s.script) rfl]
    exact engineStep_command (s := s.accept (encode i)) rfl (decode_encode hi)

/-- Settles O8: host accesses leave the pending word alone, and the script is finite. -/
theorem pendingCommandIsEventuallyPerformed : Obligations.PendingCommandIsEventuallyPerformed :=
  fun _ _ hp => State.turnComesWithin hp

/-- Settles O9: every event and every turn of the engine answers a next state and keeps the parameters. -/
theorem everyStateHasANextStateOfTheSameBlock : Obligations.EveryStateHasANextStateOfTheSameBlock :=
  exists_step

/-- Settles O10: the invariant is kept by the engine's turn, by host accesses and by hardware reset. -/
theorem everyStepKeepsTheInvariant : Obligations.EveryStepKeepsTheInvariant := by
  intro s t h hstep
  rcases step_cases hstep with
    ⟨-, ht⟩ | ⟨addr, n, rest, -, rfl⟩ | ⟨addr, n, v, rest, -, rfl⟩ | ⟨cells, rest, -, rfl⟩
  · exact (h.withScript _).engineStep ht
  · exact (h.withScript rest).hostRead addr n
  · exact (h.withScript rest).hostWrite addr n v
  · exact (h.withScript rest).hardwareReset cells

/-- Settles O11: the reset values with the default parameters and no byte listed. -/
theorem resetMeetsTheInvariant : Obligations.ResetMeetsTheInvariant := Inv.reset

end Sys2Proof
end

section
/-! SUPPORT. Which commands touch the CRC registers, and what a command leaves there (rules R63, R202, R209). -/

namespace Sys2Proof.Machine

/-- The commands that write `CRC_ACC` (rule R63). -/
def WritesCrc (i : Instr) : Prop := i = .srst ∨ i = .crcInit ∨ (∃ idx, i = .render idx) ∨ i = .scan

theorem State.after_crc_or_writesCrc (s : State) (i : Instr) :
    (s.after i).crcAcc = s.crcAcc ∧ (s.after i).crcFed = s.crcFed ∨ WritesCrc i := by
  cases i with
  | srst => exact .inr (.inl rfl)
  | crcInit => exact .inr (.inr (.inl rfl))
  | render idx => exact .inr (.inr (.inr (.inl ⟨idx, rfl⟩)))
  | scan => exact .inr (.inr (.inr (.inr rfl)))
  | _ => exact .inl ⟨rfl, rfl⟩

/-- An outcome of `SCAN` leaves the four CRC fields alone, or `CRC_VAL` then reads `RX_CRC_CALC` (rules R207, R209). -/
theorem State.applyScan_crc (s : State) (o : ScanOutcome) :
    ((s.applyScan o).crcAcc = s.crcAcc ∧ (s.applyScan o).crcFed = s.crcFed ∧
      (s.applyScan o).rxCrcCalc = s.rxCrcCalc ∧ (s.applyScan o).rxCrcRcvd = s.rxCrcRcvd ∧
      ((s.applyScan o).result = .needMore ∨ (s.applyScan o).result = .malformed)) ∨
    ((s.applyScan o).regValue .crcVal = (s.applyScan o).regValue .rxCrcCalc ∧
      (s.applyScan o).result ≠ .needMore ∧ (s.applyScan o).result ≠ .malformed) := by
  cases o with
  | noMagic => exact .inl ⟨rfl, rfl, rfl, rfl, .inl rfl⟩
  | short q => exact .inl ⟨rfl, rfl, rfl, rfl, .inl rfl⟩
  | malformed q => exact .inl ⟨rfl, rfl, rfl, rfl, .inr rfl⟩
  | crcBad q covered rcvd => exact .inr ⟨crcFinish_crcFinish _, Result.noConfusion, Result.noConfusion⟩
  | verified q h hd covered =>
    refine .inr ⟨crcFinish_crcFinish _, hd.result_ne_needMore, ?_⟩
    cases hd <;> exact Result.noConfusion

/-- The accumulator a command leaves after the bytes it covered, for the decided function (rules R63, R167). -/
theorem crcFinish_crc32_of_decided {c : Config} (h : c.crc32fn = .decided) (bs : List Byte) :
    crcFinish (c.crc32 bs) = bs.foldl crcStep 0xFFFFFFFF := by
  rw [Config.crc32_decided h, crcFinish_crc32]
  rfl

end Sys2Proof.Machine
end

section
/-! PROOFS. The family `other`: system commands and the CRC engine. -/

namespace Sys2Proof

open Machine

/-- Settles O13: `NOP` is completion and nothing else. -/
theorem nopOnlyCompletes : Obligations.NopOnlyCompletes := fun _ => rfl

/-- Settles O14: the reset values with `LASTOP` 0x01, completed. -/
theorem srstResetsEveryRegister : Obligations.SrstResetsEveryRegister := fun _ => rfl

/-- Settles O15: the accumulator is all ones, which `CRC_VAL` finishes to 0. -/
theorem crcInitSetsTheAccumulator : Obligations.CrcInitSetsTheAccumulator :=
  fun _ => ⟨_, rfl, rfl, rfl, (by decide : crcStart ^^^ 0xFFFFFFFF = 0)⟩

/-- Settles O16: the default parameters name the decided function; its worked values are evaluated. -/
theorem crcWorkedValues : Obligations.CrcWorkedValues := by
  have hcheck : crc32 [0x31, 0x32, 0x33, 0x34, 0x35, 0x36, 0x37, 0x38, 0x39] = 0xCBF43926 := by decide +kernel
  exact ⟨fun bs => Config.crc32_decided rfl bs, by decide, by decide, by decide, by decide, hcheck⟩

/-- Settles O19: only four commands write the accumulator; an outcome of `SCAN` that computes no CRC leaves its
registers, one that does leaves them equal; and the port's byte keeps `CrcCoherent`. -/
theorem onlyFourCommandsTouchTheCrc : Obligations.OnlyFourCommandsTouchTheCrc := by
  refine ⟨fun i s t h hne => ?_, fun s t h => ?_, fun s v rest hc hcrc hp h => ?_⟩
  · rcases exec_cases h with ⟨f, -, rfl⟩ | ⟨-, rfl⟩
    · exact absurd hne (by simp)
    · rcases s.after_crc_or_writesCrc i with ⟨hacc, hfed⟩ | hi
      · exact absurd hne (by simp [hacc, hfed])
      · exact hi
  · rcases exec_cases h with ⟨f, -, rfl⟩ | ⟨-, rfl⟩
    · exact ⟨by simp, by simp⟩
    · rcases s.applyScan_crc s.scanWindow with ⟨hacc, hfed, hcalc, hrcvd, hres⟩ | ⟨hval, hn, hm⟩
      · refine ⟨fun _ => ⟨hacc, hfed, hcalc, hrcvd⟩, fun hr => ?_⟩
        simp only [State.after] at hr
        rcases hres with e | e <;> rw [e] at hr <;> simp at hr
      · exact ⟨fun hr => (hr.elim hn hm).elim, fun _ => hval⟩
  · refine ⟨_, step_write_crcData hc hp h, rfl, ?_, rfl⟩
    exact (congrArg crcFinish (State.nextCrcAcc_eq hcrc _)).trans (crcFinish_crcFinish _)

end Sys2Proof
end

section
/-! SUPPORT. The checks of `FRAME`, and the header that `RENDER` writes (rules R181, R184). -/

namespace Sys2Proof.Machine

theorem State.frameCfgBad_eq_true {s : State}
    (h : s.burstSize.toNat ∉ legalBurstSizes ∨ s.cfg.maxPacket < s.pktLen.toNat) : s.frameCfgBad = true := by
  rw [← Bool.not_eq_false, State.frameCfgBad_eq_false_iff]
  rintro ⟨hsize, hlen⟩
  exact h.elim (absurd hsize) (Nat.not_lt.2 hlen)

/-- Bytes 17 to 23 of a rendered header, with the size of the payload that follows (rules R102 to R104, R184). -/
theorem State.tail_burstHeader (s : State) (idx : Nat) :
    (s.burstHeader idx).tail =
      if idx = 0 then [0x30, 0x30, 0x30] ++ decN 4 s.burstCount.toNat
      else if idx ≤ s.burstCount.toNat then decN 3 idx ++ decN 4 (s.burstHeader idx).payload
      else [0x5A, 0x5A, 0x5A, 0x5A, 0x5A, 0x5A, 0x5A] := by
  rw [State.burstHeader]
  split
  · rfl
  · split <;> rfl

theorem State.renderedHeader_eq (s : State) (idx : Nat) :
    s.renderedHeader idx = [0x42, 0x52, 0x53, 0x54] ++ decN 4 s.txSerial.toNat ++ decN 5 s.txProfile.toNat ++
      decN 4 s.txPacket.toNat ++ (s.burstHeader idx).tail := rfl

theorem State.burstHeader_zero (s : State) : s.burstHeader 0 = .announce s.burstCount.toNat := if_pos rfl

theorem State.burstHeader_of_data {s : State} {idx : Nat} (h1 : 1 ≤ idx) (h2 : idx ≤ s.burstCount.toNat) :
    s.burstHeader idx = .data idx (s.burstLen idx) := by
  rw [State.burstHeader, if_neg (by omega), if_pos h2]

theorem State.burstHeader_last (s : State) : s.burstHeader (s.burstCount.toNat + 1) = .terminal := by
  rw [State.burstHeader, if_neg (by omega), if_neg (by omega)]

/-- The announce and the terminal burst carry no payload (rule R185). -/
theorem State.payload_burstHeader_of_ends {s : State} {idx : Nat}
    (h : idx = 0 ∨ idx = s.burstCount.toNat + 1) : (s.burstHeader idx).payload = 0 := by
  rcases h with rfl | rfl
  · rw [s.burstHeader_zero, Header.payload]
  · rw [s.burstHeader_last, Header.payload]

end Sys2Proof.Machine
end

section
/-! PROOFS. The family `other`: framing. -/

namespace Sys2Proof

open Machine

/-- Settles O20: the count fits its register, since it is at most the packet length. -/
theorem frameComputesTheBurstCount : Obligations.FrameComputesTheBurstCount := by
  intro s hsize hlen
  exact ⟨_, exec_frame_ok (State.frameCfgBad_eq_false_iff.2 ⟨hsize, hlen⟩),
    toNat_ofNat_ceilDiv _ _ (pos_of_mem_legalBurstSizes hsize), rfl⟩

/-- Settles O21: either condition fails the check. -/
theorem frameRefusesABadConfiguration : Obligations.FrameRefusesABadConfiguration :=
  fun _ h => exec_frame_bad (State.frameCfgBad_eq_true h)

/-- Settles O22: the two checks in their order. -/
theorem renderFaultsInOrder : Obligations.RenderFaultsInOrder :=
  fun _ idx => ⟨exec_render_not_framed idx, exec_render_bad_index⟩

/-- Settles O23: the bytes written are header, CRC characters and payload, from the start of TXBUF. -/
theorem renderWritesTheBurst : Obligations.RenderWritesTheBurst := by
  intro s idx hm hc hf hi
  have hexec : exec (.render idx) s = .next (s.afterRender idx) :=
    exec_of_check (State.checkFault_render.2 ⟨hf, hi⟩)
  obtain ⟨-, hfed, hacc, hframe⟩ := s.afterRender_spec idx
  obtain ⟨hmem, hhdr, hcrc, hpay, hlen⟩ := exec_render_txbuf hm hc hf hi hexec
  refine ⟨s.afterRender idx, (s.burstHeader idx).payload, s.renderedHeader idx, ?_, ?_,
    State.payload_burstHeader_of_ends, ?_, s.length_renderedHeader idx, hexec, hfed, ?_, ?_, hlen, hframe, hhdr,
    hcrc.trans (by rw [hfed]), hpay, ?_⟩
  · rintro ⟨h1, hlt⟩
    rw [State.burstHeader_of_data h1 hlt.le, Header.payload, State.burstLen, if_pos hlt]
  · rintro ⟨h1, heq⟩
    rw [State.burstHeader_of_data h1 heq.le, Header.payload, State.burstLen, if_neg heq.not_lt]
  · rw [State.renderedHeader_eq, State.tail_burstHeader]
  · rw [hfed]
    exact (congrArg crcFinish hacc).trans (crcFinish_crcFinish _)
  · intro hd
    rw [hacc, hfed, crcFinish_crc32_of_decided hd]
  · intro a ha
    rw [hmem]
    exact Memory.read_writeBytes_outside s.mem _ (by rwa [State.length_wireBytes])

end Sys2Proof
end

section
/-! SUPPORT. The Gray-code pair and the whole pipeline, on one sample and on the samples of SMP (rules R142 to R144,
R156, R158). -/

namespace Sys2Proof.Machine

/-! ### One sample -/

/-- A value `2^(j+1) * q + 2^j - 1` ends in a zero above `j` ones, and adding one flips exactly these bits. -/
theorem exists_lowest_zero (n : Nat) : ∃ j q, n = 2 ^ (j + 1) * q + (2 ^ j - 1) := by
  induction n using Nat.strongRecOn with
  | ind n ih =>
    rcases Nat.even_or_odd' n with ⟨m, hm | hm⟩
    · exact ⟨0, m, by omega⟩
    · obtain ⟨j, q, hjq⟩ := ih m (by omega)
      have hpos := Nat.two_pow_pos j
      refine ⟨j + 1, q, ?_⟩
      rw [Nat.pow_succ 2 (j + 1), Nat.mul_right_comm, Nat.pow_succ 2 j] at *
      omega

/-- Adding one to a value below the largest flips the bits up to its lowest zero. -/
theorem exists_flipped_below {v : Sample} (hv : v ≠ 0xFFFF) :
    ∃ j, j < 16 ∧ ∀ i, (v.getLsbD i ^^ (v + 1).getLsbD i) = decide (i ≤ j) := by
  obtain ⟨j, q, hjq⟩ := exists_lowest_zero v.toNat
  have hne : v.toNat ≠ 65535 := fun h => hv (BitVec.eq_of_toNat_eq h)
  have hlt := v.isLt
  have hj : j < 16 := by
    by_contra hge
    have : 2 ^ 16 ≤ 2 ^ j := Nat.pow_le_pow_right (by decide) (Nat.le_of_not_lt hge)
    omega
  have hpos := Nat.two_pow_pos j
  have hsucc : (v + 1).toNat = 2 ^ (j + 1) * q + 2 ^ j := by
    rw [BitVec.toNat_add, Nat.mod_eq_of_lt (by change v.toNat + 1 < 65536; omega)]
    change v.toNat + 1 = _
    omega
  have hlow : 2 ^ j < 2 ^ (j + 1) := Nat.pow_lt_pow_right (by decide) (Nat.lt_succ_self j)
  refine ⟨j, hj, fun i => ?_⟩
  rw [BitVec.getLsbD, BitVec.getLsbD, hsucc, hjq, Nat.testBit_two_pow_mul_add _ (by omega),
    Nat.testBit_two_pow_mul_add _ hlow]
  rcases Nat.lt_or_ge i (j + 1) with hi | hi
  · rw [if_pos hi, if_pos hi, Nat.testBit_two_pow_sub_one, Nat.testBit_two_pow, decide_eq_true (by omega : i ≤ j)]
    rcases Nat.lt_or_ge i j with h | h
    · rw [decide_eq_true h, decide_eq_false (by omega : ¬ j = i)]; rfl
    · rw [decide_eq_false (by omega : ¬ i < j), decide_eq_true (by omega : j = i)]; rfl
  · rw [if_neg (by omega), if_neg (by omega), Bool.xor_self, decide_eq_false (by omega : ¬ i ≤ j)]

/-- `GRAY_ENC` after `GRAY_DEC` (rule R144 (a)). -/
theorem grayEnc_grayDec (g : Sample) : grayEnc (grayDec g) = g := by
  refine BitVec.eq_of_getLsbD_eq fun j _ => ?_
  rw [getLsbD_grayEnc, getLsbD_grayDec, Bool.xor_comm, ← Bool.xor_assoc, Bool.xor_self, Bool.false_xor]

/-- A decoded value is known from the top down: where the code's bits from `k` up are those of the code of `v`, so are
the decoded bits (rule R143). -/
theorem getLsbD_grayDec_eq_of_code {g v : Sample} {k : Nat}
    (h : ∀ p, k ≤ p → g.getLsbD p = (grayEnc v).getLsbD p) {p : Nat} (hp : k ≤ p) :
    (grayDec g).getLsbD p = v.getLsbD p := by
  obtain ⟨n, hn⟩ : ∃ n, 16 ≤ p + n := ⟨16, by omega⟩
  induction n generalizing p with
  | zero => rw [BitVec.getLsbD_of_ge _ p hn, BitVec.getLsbD_of_ge _ p hn]
  | succ n ih =>
    rw [getLsbD_grayDec, ih (p := p + 1) (by omega) (by omega), h p hp, getLsbD_grayEnc, Bool.xor_comm,
      Bool.xor_assoc, Bool.xor_self, Bool.xor_false]

/-- `GRAY_DEC` after `GRAY_ENC` (rule R144 (a)). -/
theorem grayDec_grayEnc (v : Sample) : grayDec (grayEnc v) = v :=
  BitVec.eq_of_getLsbD_eq fun _ _ => getLsbD_grayDec_eq_of_code (fun _ _ => rfl) (Nat.zero_le _)

/-- What the four commands of the pipeline make of one sample (rule R158). -/
def pipeSample (k : Nat) (v : Sample) : Sample := grayDec (dropLow k (grayEnc v))

/-- The pipeline keeps bits 15 to `k`. -/
theorem getLsbD_pipeSample_of_le {k p : Nat} (v : Sample) (hp : k ≤ p) :
    (pipeSample k v).getLsbD p = v.getLsbD p :=
  getLsbD_grayDec_eq_of_code
    (fun p hp => by rw [getLsbD_dropLow, decide_eq_true hp, Bool.true_and]) hp

/-- The pipeline spreads bit `k` over the lower bits. -/
theorem getLsbD_pipeSample_of_lt {k p : Nat} (v : Sample) (hp : p < k) :
    (pipeSample k v).getLsbD p = v.getLsbD k := by
  obtain ⟨n, rfl⟩ : ∃ n, k = p + 1 + n := ⟨k - p - 1, by omega⟩
  have hdown : ∀ q < p + 1 + n, (pipeSample (p + 1 + n) v).getLsbD q =
      (pipeSample (p + 1 + n) v).getLsbD (q + 1) := fun q hq => by
    rw [pipeSample, getLsbD_grayDec, getLsbD_dropLow, decide_eq_false (Nat.not_le.2 hq), Bool.false_and,
      Bool.xor_false]
  have hup : ∀ m ≤ n, (pipeSample (p + 1 + n) v).getLsbD p =
      (pipeSample (p + 1 + n) v).getLsbD (p + 1 + m) := by
    intro m
    induction m with
    | zero => exact fun _ => hdown p (by omega)
    | succ m ih => exact fun hm => (ih (by omega)).trans (hdown _ (by omega))
  rw [hup n (Nat.le_refl n), getLsbD_pipeSample_of_le v (Nat.le_refl _)]

theorem pipeSample_pipeSample (k : Nat) (v : Sample) : pipeSample k (pipeSample k v) = pipeSample k v := by
  rw [pipeSample, pipeSample, grayEnc_grayDec, dropLow_dropLow]

/-- Values with the same bits from `k` up differ by less than `2^k`. -/
theorem toNat_lt_add_two_pow {v w : Sample} {k : Nat} (h : ∀ p, k ≤ p → v.getLsbD p = w.getLsbD p) :
    v.toNat < w.toNat + 2 ^ k := by
  have hdiv : v.toNat / 2 ^ k = w.toNat / 2 ^ k := by
    refine Nat.eq_of_testBit_eq fun i => ?_
    rw [Nat.testBit_div_two_pow, Nat.testBit_div_two_pow]
    exact h _ (Nat.le_add_left k i)
  have hv := Nat.div_add_mod v.toNat (2 ^ k)
  have hw := Nat.div_mul_le_self w.toNat (2 ^ k)
  have hmod := Nat.mod_lt v.toNat (Nat.two_pow_pos k)
  rw [hdiv, Nat.mul_comm] at hv
  omega

/-! ### The samples of SMP -/

theorem exec_gray_of_le {s : State} (h : s.nsamp.toNat ≤ s.cfg.nmax) :
    exec .grayEnc s = .next ((s.mapSamples grayEnc).complete .ok) ∧
      exec .grayDec s = .next ((s.mapSamples grayDec).complete .ok) :=
  ⟨exec_grayEnc_ok (State.sampleRangeBad_eq_false h), exec_grayDec_ok (State.sampleRangeBad_eq_false h)⟩

theorem State.mapSamples_mem_wf {s : State} (hm : s.mem.wf) (f : Sample → Sample) : (s.mapSamples f).mem.wf :=
  Memory.writeBytes_wf hm _ _

section Samples

variable {s : State} (hm : s.mem.wf)
include hm

theorem State.sample_mapSamples (f : Sample → Sample) {i : Nat} (hi : i < s.nsamp.toNat) :
    (s.mapSamples f).sample i = f (s.sample i) :=
  (State.mapSamples_spec hm f).1 i hi

/-- Transforms that undo each other on every sample restore every byte of memory (rule R144 (a)). -/
theorem State.mapSamples_mapSamples_mem {f g : Sample → Sample} (hgf : ∀ v, g (f v) = v) (r : Result) :
    (((s.mapSamples f).complete r).mapSamples g).mem = s.mem := by
  have hm' : ((s.mapSamples f).complete r).mem.wf := State.mapSamples_mem_wf hm f
  refine Memory.ext_of_wf (State.mapSamples_mem_wf hm' g) hm fun a => ?_
  by_cases ha : a < s.cfg.smpBase ∨ s.cfg.smpBase + 2 * s.nsamp.toNat ≤ a
  · exact ((State.mapSamples_spec hm' g).2 a ha).trans ((State.mapSamples_spec hm f).2 a ha)
  · obtain ⟨i, hi, ha⟩ : ∃ i, i < s.nsamp.toNat ∧
        (a = s.cfg.smpBase + 2 * i ∨ a = s.cfg.smpBase + (2 * i + 1)) :=
      ⟨(a - s.cfg.smpBase) / 2, by omega, by omega⟩
    have hsample : (((s.mapSamples f).complete r).mapSamples g).sample i = s.sample i :=
      calc (((s.mapSamples f).complete r).mapSamples g).sample i
          = g ((s.mapSamples f).sample i) := State.sample_mapSamples hm' g hi
        _ = s.sample i := by rw [State.sample_mapSamples hm f hi, hgf]
    obtain ⟨heven, hodd⟩ := State.bufByte_eq_of_sample_eq hsample
    rcases ha with rfl | rfl
    · exact heven
    · exact hodd

/-- The four commands of the pipeline, with what they make of each sample (rule R158). -/
theorem exists_pipelineRun (hn : s.nsamp.toNat ≤ s.cfg.nmax) (k : Nat) :
    ∃ t, PipelineRun k s t ∧ t.mem.wf ∧ t.nsamp = s.nsamp ∧ t.cfg = s.cfg ∧
      ∀ i, i < s.nsamp.toNat → t.sample i = pipeSample k (s.sample i) := by
  let a := (s.mapSamples grayEnc).complete .ok
  have ha : a.mem.wf := State.mapSamples_mem_wf hm grayEnc
  have hc : ((a.afterBpEnc k).afterBpDec k).mem.wf := State.afterBpDec_mem_wf (State.afterBpEnc_mem_wf ha k) k
  refine ⟨_, ⟨a, a.afterBpEnc k, (a.afterBpEnc k).afterBpDec k, (exec_gray_of_le hn).1, exec_bpEnc_of_le k hn,
    exec_bpDec_of_le k hn, (exec_gray_of_le (s := (a.afterBpEnc k).afterBpDec k) hn).2⟩,
    State.mapSamples_mem_wf hc grayDec, rfl, rfl, fun i hi => ?_⟩
  calc (((a.afterBpEnc k).afterBpDec k).mapSamples grayDec).sample i
      = grayDec (((a.afterBpEnc k).afterBpDec k).sample i) := State.sample_mapSamples hc grayDec hi
    _ = grayDec (dropLow k (a.sample i)) := by rw [State.sample_afterBpDec_afterBpEnc ha hi]
    _ = pipeSample k (s.sample i) := congrArg (grayDec ∘ dropLow k) (State.sample_mapSamples hm grayEnc hi)

end Samples

end Sys2Proof.Machine
end

section
/-! PROOFS. The family `other`: the sample pipeline. -/

namespace Sys2Proof

open Machine

/-- Settles O38: each sample becomes its Gray code, whose bits are XORs of neighbours. -/
theorem grayEncTransformsEachSample : Obligations.GrayEncTransformsEachSample := by
  intro s hm hn
  obtain ⟨hsample, hframe⟩ := State.mapSamples_spec hm grayEnc
  refine ⟨_, (exec_gray_of_le hn).1, fun i hi => ?_, hframe, rfl⟩
  have hbit (j : Nat) := (congrArg (·.getLsbD j) (hsample i hi)).trans (getLsbD_grayEnc (s.sample i) j)
  refine ⟨hsample i hi, (hbit 15).trans ?_, fun j _ => hbit j⟩
  rw [BitVec.getLsbD_of_ge _ (15 + 1) (Nat.le_refl 16), Bool.xor_false]

/-- Settles O39: each decoded bit is known from the next higher one, from bit 15 down. -/
theorem grayDecTransformsEachSample : Obligations.GrayDecTransformsEachSample := by
  intro s hm hn
  obtain ⟨hsample, hframe⟩ := State.mapSamples_spec hm grayDec
  refine ⟨_, (exec_gray_of_le hn).2, fun i hi => ?_, hframe, rfl⟩
  change ((s.mapSamples grayDec).sample i).getLsbD 15 = _ ∧
    ∀ j, j < 15 → ((s.mapSamples grayDec).sample i).getLsbD j =
      (((s.mapSamples grayDec).sample i).getLsbD (j + 1) ^^ (s.sample i).getLsbD j)
  rw [hsample i hi]
  exact ⟨getLsbD_grayDec_of_ge _ (Nat.le_refl 15), fun j _ => getLsbD_grayDec _ j⟩

/-- Settles O40: the two transforms undo each other on a sample, and the samples determine the bytes. -/
theorem grayCommandsUndoEachOther : Obligations.GrayCommandsUndoEachOther := by
  intro s hm hn
  obtain ⟨henc, hdec⟩ := exec_gray_of_le hn
  exact ⟨⟨_, _, henc, (exec_gray_of_le (s := (s.mapSamples grayEnc).complete .ok) hn).2,
      State.mapSamples_mapSamples_mem hm grayDec_grayEnc .ok⟩,
    ⟨_, _, hdec, (exec_gray_of_le (s := (s.mapSamples grayDec).complete .ok) hn).1,
      State.mapSamples_mapSamples_mem hm grayEnc_grayDec .ok⟩⟩

/-- Settles O41: adding one flips the bits up to the lowest zero, and the code's bit changes only where a flipped bit
meets one that is not. -/
theorem adjacentGrayCodesDifferInOneBit : Obligations.AdjacentGrayCodesDifferInOneBit := by
  intro v hv
  obtain ⟨j, hj, hflip⟩ := exists_flipped_below hv
  refine ⟨j, hj, fun i _ => ?_⟩
  have hcode : ((grayEnc v).getLsbD i ^^ (grayEnc (v + 1)).getLsbD i) =
      (decide (i ≤ j) ^^ decide (i + 1 ≤ j)) := by
    rw [getLsbD_grayEnc, getLsbD_grayEnc, ← hflip, ← hflip]
    simp only [Bool.xor_assoc, Bool.xor_left_comm]
  rw [← Bool.xor_iff_ne, hcode, Bool.xor_iff_ne, ne_eq, decide_eq_decide]
  omega

/-- Settles O43: each sample written is the one the planes give. -/
theorem bpDecRebuildsTheSamples : Obligations.BpDecRebuildsTheSamples := by
  intro s k _ hm hn n g
  have hbit : ∀ i, i < n → ∀ p, ((s.afterBpDec k).sample i).getLsbD p = (decide (p < 16) && (decide (k ≤ p) &&
      (s.bufByte .pln ((15 - p) * s.groups + i / 8)).getLsbD (7 - i % 8))) := fun i hi p => by
    rw [State.sample_afterBpDec hm hi, State.getLsbD_decodedSample]
  refine ⟨_, exec_bpDec_of_le k hn, fun i hi => ⟨fun p hk hp => ?_, fun p hp => ?_⟩, rfl, fun a ha => ?_, rfl⟩
  · rw [hbit i hi, decide_eq_true (by omega), decide_eq_true hk, Bool.true_and, Bool.true_and]
    rfl
  · rw [hbit i hi, decide_eq_false (Nat.not_le.2 hp), Bool.false_and, Bool.and_false]
  · exact State.read_writeSamples_outside s _ (by simpa using ha)

/-- Settles O45: the pipeline on one sample keeps the bits from `k` up and spreads bit `k` below, which a second pass
repeats. -/
theorem pipelineKeepsTheHighBits : Obligations.PipelineKeepsTheHighBits := by
  intro s k _ _ hm hn
  obtain ⟨t, hst, htm, htn, htc, ht⟩ := exists_pipelineRun hm hn k
  obtain ⟨u, htu, -, -, -, hu⟩ := exists_pipelineRun htm (by rw [htn, htc]; exact hn) k
  refine ⟨t, u, hst, htu, fun i hi => ?_⟩
  have hhigh : ∀ p, k ≤ p → (t.sample i).getLsbD p = (s.sample i).getLsbD p := fun p hp => by
    rw [ht i hi, getLsbD_pipeSample_of_le _ hp]
  refine ⟨fun p hp _ => hhigh p hp, fun p hp => ?_, toNat_lt_add_two_pow hhigh,
    toNat_lt_add_two_pow fun p hp => (hhigh p hp).symm, ?_⟩
  · rw [ht i hi, getLsbD_pipeSample_of_lt _ hp]
  · rw [hu i (by rwa [htn]), ht i hi, pipeSample_pipeSample]

end Sys2Proof
end

section
/-! SUPPORT. What commands and steps leave alone: the buffers they do not write, `FAULT`, `FRAMED`, and what of the
state no command reads (rules R26, R62, R81, R89). -/

namespace Sys2Proof.Machine

/-! ### The buffer of a command -/

/-- The buffer that a command may write (rule R81). -/
def commandBuffer : Instr → Option Buf
  | .render _ => some .txbuf
  | .rxcompact => some .rxbuf
  | .grayEnc | .grayDec | .bpDec _ => some .smp
  | .bpEnc _ => some .pln
  | .nop | .srst | .crcInit | .frame | .scan => none

theorem State.applyScan_mem (s : State) (o : ScanOutcome) : (s.applyScan o).mem = s.mem := by
  cases o <;> rfl

/-- A command writes bytes from the start of its buffer that fit in it, or none (rule R81). -/
theorem State.after_mem {s : State} (h : Inv s) {i : Instr} (hc : s.checkFault i = none) :
    (s.after i).mem = s.mem ∨ ∃ b bs, commandBuffer i = some b ∧ bs.length ≤ s.cfg.size b ∧
      (s.after i).mem = s.mem.writeBytes (s.cfg.base b) bs := by
  have hsamples (hi) := (State.checkFault_samples (i := i) hi).1 hc
  cases i with
  | nop | srst | crcInit | frame => exact .inl rfl
  | scan => exact .inl (s.applyScan_mem _)
  | render idx =>
    exact .inr ⟨_, s.wireBytes idx, rfl, State.length_wireBytes_le h (State.checkFault_render.1 hc).1 idx,
      (s.afterRender_spec idx).1⟩
  | rxcompact => exact .inr ⟨_, _, rfl, State.length_unexamined_le (State.checkFault_rx.2.1 hc), rfl⟩
  | grayEnc | grayDec =>
    exact .inr ⟨_, _, rfl, length_sampleBytes_le (by simpa using hsamples (by simp)), rfl⟩
  | bpDec k => exact .inr ⟨_, _, rfl, length_sampleBytes_le (by simpa using hsamples (by simp)), rfl⟩
  | bpEnc k =>
    refine .inr ⟨_, s.planeBytes k, rfl, ?_, rfl⟩
    rw [State.length_planeBytes]
    exact State.planeLen_le h (hsamples (by simp)) k

/-- A byte outside its buffer is left alone by a command (rule R81). -/
theorem exec_read_of_bufAt_ne {i : Instr} {s t : State} (h : Inv s) (ht : exec i s = .next t) {a : Nat}
    (ha : ∀ b, commandBuffer i = some b → bufAt s.cfg a ≠ some b) : t.mem.read a = s.mem.read a := by
  rcases exec_cases ht with ⟨f, -, rfl⟩ | ⟨hc, rfl⟩
  · rfl
  rcases State.after_mem h hc with hmem | ⟨b, bs, hb, hlen, hmem⟩ <;> rw [hmem]
  have hout : ¬ (s.cfg.base b ≤ a ∧ a < s.cfg.base b + s.cfg.size b) := fun hin =>
    ha b hb (bufAt_of_mem h.cfgLegal hin)
  exact Memory.read_writeBytes_outside s.mem bs (by omega)

/-! ### What no command reads -/

/-- The state with more fault bits, another answer on the bus and other events to come. -/
def State.disturbed (s : State) (m : BitVec 7) (r : Option BusResponse) (es : List Event) : State :=
  { s with fault := s.fault ||| m, busResp := r, script := es }

section Disturbed

variable (s : State) (m : BitVec 7) (r : Option BusResponse) (es : List Event)

theorem State.checkFault_disturbed (i : Instr) : (s.disturbed m r es).checkFault i = s.checkFault i := by
  cases i <;> rfl

theorem State.raise_disturbed (f : FaultBit) : (s.disturbed m r es).raise f = (s.raise f).disturbed m r es := by
  have e : s.fault ||| m ||| f.mask = s.fault ||| f.mask ||| m := by
    rw [BitVec.or_assoc, BitVec.or_comm m, BitVec.or_assoc]
  simp only [State.raise, State.setFault, State.complete, State.disturbed, e]

theorem State.applyScan_disturbed (o : ScanOutcome) :
    (s.disturbed m r es).applyScan o = (s.applyScan o).disturbed m r es := by
  cases o <;> rfl

theorem State.afterRender_disturbed (idx : Nat) :
    (s.disturbed m r es).afterRender idx = (s.afterRender idx).disturbed m r es := by
  have hbytes : (s.disturbed m r es).wireBytes idx = s.wireBytes idx := rfl
  have hcovered : (s.disturbed m r es).burstCovered idx = s.burstCovered idx := rfl
  have hheader : (s.disturbed m r es).burstHeader idx = s.burstHeader idx := rfl
  rw [State.afterRender, State.afterRender, hbytes, hcovered, hheader]
  generalize s.wireBytes idx = bs
  generalize s.burstCovered idx = covered
  generalize overheadBytes + (s.burstHeader idx).payload = n
  rfl

/-- No command but `SRST` reads or writes the fault bits, the bus or the events to come (rule R89). -/
theorem State.after_disturbed {i : Instr} (hi : i ≠ .srst) :
    (s.disturbed m r es).after i = (s.after i).disturbed m r es := by
  cases i with
  | srst => exact absurd rfl hi
  | render idx => exact s.afterRender_disturbed m r es idx
  | scan => exact s.applyScan_disturbed m r es s.scanWindow
  | _ => rfl

end Disturbed

/-! ### `FAULT` and `FRAMED` -/

/-- A command whose check passes leaves `FAULT` alone, but for `SRST` (rules R26, R264). -/
theorem State.after_fault (s : State) {i : Instr} (hi : i ≠ .srst) : (s.after i).fault = s.fault := by
  cases i with
  | srst => exact absurd rfl hi
  | render idx => exact s.afterRender_fault idx
  | scan =>
    rw [State.after]
    cases s.scanWindow <;> rfl
  | _ => rfl

/-- A command leaves `FRAMED` alone, or it is `SRST`, which clears it, or `FRAME`, which sets it (rule R62). -/
theorem State.after_framed (s : State) (i : Instr) :
    (s.after i).framed = s.framed ∨ i = .srst ∧ (s.after i).framed = false ∨
      i = .frame ∧ (s.after i).framed = true ∧ (s.after i).result = .ok := by
  cases i with
  | srst => exact .inr (.inl ⟨rfl, rfl⟩)
  | frame => exact .inr (.inr ⟨rfl, rfl, rfl⟩)
  | render idx => exact .inl (s.afterRender_framed idx)
  | scan =>
    rw [State.after]
    cases s.scanWindow <;> exact .inl rfl
  | _ => exact .inl rfl

/-- A register write leaves `FRAMED` alone, or it is one to `BURST_SIZE` or `PKT_LEN`, which clears it (rule R62). -/
theorem State.writeReg_framed (s : State) (v : Word) (r : Reg) :
    (s.writeReg v r).framed = s.framed ∨ (s.writeReg v r).framed = false ∧ (r = .burstSize ∨ r = .pktLen) := by
  cases r with
  | burstSize => exact .inr ⟨rfl, .inl rfl⟩
  | pktLen => exact .inr ⟨rfl, .inr rfl⟩
  | cmd =>
    rw [State.writeReg, State.issue]
    split <;> exact .inl rfl
  | status =>
    rw [State.writeReg]
    split <;> exact .inl rfl
  | _ => exact .inl rfl

/-- A host write leaves `FRAMED` alone, or it is a whole-word one at the offset of `BURST_SIZE` or `PKT_LEN`, which
clears it (rules R54, R62). -/
theorem State.hostWrite_framed (s : State) (addr n : Nat) (v : Word) :
    (s.hostWrite addr n v).framed = s.framed ∨ (s.hostWrite addr n v).framed = false ∧ n = 4 ∧
      (addr = s.cfg.regBase + 0x2C ∨ addr = s.cfg.regBase + 0x30) := by
  rcases s.hostWrite_cases addr n v with ⟨f, e⟩ | ⟨-, r, ht, e⟩ | ⟨-, b, off, -, e⟩ <;> rw [e]
  · exact .inl rfl
  · obtain ⟨hn, -, haddr⟩ := target_eq_reg ht
    rcases s.writeReg_framed v r with hkeep | ⟨hclear, hr⟩
    · exact .inl hkeep
    · refine .inr ⟨hclear, hn, ?_⟩
      rcases hr with rfl | rfl
      · exact .inl haddr
      · exact .inr haddr
  · exact .inl rfl

/-- What a step makes of `FRAMED` (rule R62). -/
theorem step_framed_cases {s t : State} (h : step s = .next t) :
    t.framed = s.framed ∨
    (t.framed = true ∧ s.EngineTurn ∧ s.pending = some 0x00000020 ∧ t.result = .ok) ∨
    (t.framed = false ∧ ((∃ cells rest, s.script = .hardReset cells :: rest) ∨
      (s.EngineTurn ∧ s.pending = some 0x00000001) ∨
      ∃ v rest, s.script = .write (s.cfg.regBase + 0x2C) 4 v :: rest ∨
        s.script = .write (s.cfg.regBase + 0x30) 4 v :: rest)) := by
  rcases step_cases h with
    ⟨hturn, ht⟩ | ⟨addr, n, rest, -, rfl⟩ | ⟨addr, n, v, rest, hs, rfl⟩ | ⟨cells, rest, hs, rfl⟩
  · rcases engineStep_cases ht with ⟨-, rfl⟩ | ⟨f, rfl⟩ | ⟨w, i, hp, hd, -, rfl⟩
    · exact .inl rfl
    · exact .inl rfl
    · obtain ⟨-, rfl⟩ := decode_eq_command_iff.1 hd
      rcases (s.withScript s.script.tail).after_framed i with hkeep | ⟨rfl, hclear⟩ | ⟨rfl, hset, hok⟩
      · exact .inl hkeep
      · exact .inr (.inr ⟨hclear, .inr (.inl ⟨hturn, hp⟩)⟩)
      · exact .inr (.inl ⟨hset, hturn, hp, hok⟩)
  · obtain ⟨r, f, e⟩ := (s.withScript rest).hostRead_eq addr n
    rw [e]
    exact .inl rfl
  · rcases (s.withScript rest).hostWrite_framed addr n v with hkeep | ⟨hclear, rfl, haddr⟩
    · exact .inl hkeep
    · refine .inr (.inr ⟨hclear, .inr (.inr ⟨v, rest, ?_⟩)⟩)
      rcases haddr with rfl | rfl
      · exact .inl hs
      · exact .inr hs
  · exact .inr (.inr ⟨rfl, .inl ⟨cells, rest, hs⟩⟩)

theorem getLsbD_or_of_left {w : Nat} {x : BitVec w} (y : BitVec w) {k : Nat} (h : x.getLsbD k = true) :
    (x ||| y).getLsbD k = true := by
  rw [BitVec.getLsbD_or, h, Bool.true_or]

/-- A host write sets fault bits and clears none (rules R79, R89). -/
theorem State.hostWrite_fault (s : State) (addr n : Nat) (v : Word) :
    ∃ m, (s.hostWrite addr n v).fault = s.fault ||| m := by
  rcases s.hostWrite_cases addr n v with ⟨f, e⟩ | ⟨-, r, -, e⟩ | ⟨-, b, off, -, e⟩ <;> rw [e]
  · exact ⟨_, rfl⟩
  · obtain ⟨-, -, -, -, hfault⟩ := s.writeReg_keeps v r
    exact ⟨0, hfault.trans BitVec.or_zero.symm⟩
  · exact ⟨0, BitVec.or_zero.symm⟩

/-- A step sets fault bits and clears none, but for the two ways out of the lock (rules R26, R264). -/
theorem step_fault {s t : State} (h : step s = .next t) (hreset : ∀ cells rest, s.script ≠ .hardReset cells :: rest)
    (hsrst : ¬ (s.EngineTurn ∧ s.pending = some 0x00000001)) : ∃ m, t.fault = s.fault ||| m := by
  rcases step_cases h with
    ⟨hturn, ht⟩ | ⟨addr, n, rest, -, rfl⟩ | ⟨addr, n, v, rest, -, rfl⟩ | ⟨cells, rest, hs, -⟩
  · rcases engineStep_cases ht with ⟨-, rfl⟩ | ⟨f, rfl⟩ | ⟨w, i, hp, hd, -, rfl⟩
    · exact ⟨0, BitVec.or_zero.symm⟩
    · exact ⟨f.mask, rfl⟩
    · obtain ⟨-, rfl⟩ := decode_eq_command_iff.1 hd
      have hi : i ≠ .srst := fun hi => hsrst ⟨hturn, hp.trans (by rw [hi]; rfl)⟩
      exact ⟨0, ((s.withScript s.script.tail).after_fault hi).trans BitVec.or_zero.symm⟩
  · obtain ⟨r, f, e⟩ := (s.withScript rest).hostRead_eq addr n
    rw [e]
    exact ⟨f, rfl⟩
  · exact (s.withScript rest).hostWrite_fault addr n v
  · exact absurd hs (hreset cells rest)

end Sys2Proof.Machine
end

section
/-! PROOFS. The family `other`: what commands and steps leave alone. -/

namespace Sys2Proof

open Machine

/-- Settles O47: the check of a command and the state it ends in do not depend on what is disturbed. -/
theorem commandsIgnoreTheFaultBits : Obligations.CommandsIgnoreTheFaultBits := by
  intro i s t m r es hi h
  change exec i (s.disturbed m r es) = .next (t.disturbed m r es)
  rcases exec_cases h with ⟨f, hf, rfl⟩ | ⟨hc, rfl⟩
  · rw [exec_of_checkFault ((s.checkFault_disturbed m r es i).trans hf), State.raise_disturbed]
  · rw [exec_of_check ((s.checkFault_disturbed m r es i).trans hc), s.after_disturbed m r es hi]

/-- Settles O48: a command writes from the start of its buffer, and what it writes fits there. -/
theorem commandsWriteOnlyTheirBuffer : Obligations.CommandsWriteOnlyTheirBuffer := by
  intro i s t h _ ht a
  have hread := exec_read_of_bufAt_ne h ht (a := a)
  refine ⟨fun hi => hread fun b hb => ?_, ?_, ?_, fun hi ha => hread fun b hb => ?_, ?_⟩
  · rcases hi with rfl | rfl | rfl | rfl | rfl <;> cases hb
  · rintro ⟨idx, rfl⟩ ha
    exact hread fun b hb => by cases hb; exact ha
  · rintro rfl ha
    exact hread fun b hb => by cases hb; exact ha
  · rcases hi with rfl | rfl | ⟨k, rfl⟩ <;> cases hb <;> exact ha
  · rintro ⟨k, rfl⟩ ha
    exact hread fun b hb => by cases hb; exact ha

/-- Settles O49: every step but the two resets only sets fault bits. -/
theorem faultBitsAreSticky : Obligations.FaultBitsAreSticky := by
  intro s t h hreset hsrst k hk
  obtain ⟨m, hm⟩ := step_fault h hreset hsrst
  rw [hm]
  exact getLsbD_or_of_left m hk

/-- Settles O50: a step keeps `FRAMED`, sets it as a `FRAME`, or clears it in one of the stated ways. -/
theorem framedChangesOnlyAsStated : Obligations.FramedChangesOnlyAsStated := by
  intro s t h
  rcases step_framed_cases h with hkeep | ⟨hset, hturn, hp, hok⟩ | ⟨hclear, hcause⟩
  · exact ⟨fun h0 h1 => by simp [hkeep, h0] at h1, fun h1 h0 => by simp [hkeep, h1] at h0⟩
  · exact ⟨fun _ _ => ⟨hturn, hp, hok⟩, fun _ h0 => by simp [hset] at h0⟩
  · exact ⟨fun _ h1 => by simp [hclear] at h1, fun _ _ => hcause⟩

end Sys2Proof
end

section
/-! SUPPORT. The register map as a table, bus values of one, two and four bytes, and writes to a buffer (rules R14, R25,
R54, R72, R76). -/

namespace Sys2Proof.Machine

theorem zero_append_eq_setWidth (m : Nat) {n : Nat} (x : BitVec n) : 0#m ++ x = x.setWidth (m + n) := by
  refine BitVec.eq_of_getLsbD_eq fun i hi => ?_
  rw [BitVec.getLsbD_append, BitVec.getLsbD_setWidth, decide_eq_true hi, Bool.true_and, BitVec.getLsbD_zero]
  split
  · rfl
  · next h => rw [BitVec.getLsbD_of_ge x i (Nat.le_of_not_lt h)]

theorem setWidth_ne_zero_iff {m n : Nat} (h : n ≤ m) (x : BitVec n) : x.setWidth m ≠ 0 ↔ x ≠ 0 := by
  rw [ne_eq, ne_eq, ← BitVec.toNat_inj, ← BitVec.toNat_inj, BitVec.toNat_setWidth_of_le h]
  simp

/-- The register map: each register's offset with what a read there answers (rules R24 to R54). -/
def State.registerMap (s : State) : List (Nat × Word) := Reg.all.map fun r => (r.offset, s.regValue r)

/-- A whole-word read at an offset of the map answers the value that stands there (rules R54, R75). -/
theorem step_read_of_mem_registerMap {s : State} {off : Nat} {v : Word} {rest : List Event} (hc : s.cfg.Legal)
    (hp : s.pending = none) (h : s.script = .read (s.cfg.regBase + off) 4 :: rest)
    (hmem : (off, v) ∈ s.registerMap) :
    step s = .next { s with script := rest, busResp := some (.data v) } := by
  obtain ⟨r, -, e⟩ := List.mem_map.1 hmem
  cases e
  exact step_read_reg_idle hc hp h

/-- The bytes of a buffer as a list of their own. -/
theorem State.bufBytes_succ (s : State) (b : Buf) (i n : Nat) :
    s.bufBytes b i (n + 1) = s.bufByte b i :: s.bufBytes b (i + 1) n := by
  rw [Nat.add_comm, State.bufBytes_add]
  rfl

theorem State.bufBytes_zero (s : State) (b : Buf) (i : Nat) : s.bufBytes b i 0 = [] := rfl

/-- The value of at most four bytes of a buffer, the first the most significant (rule R72). -/
theorem State.toNat_beValue_bufBytes (s : State) (b : Buf) (off : Nat) {n : Nat} (hn : n ≤ 4) :
    (beValue (s.bufBytes b off n)).toNat = (s.bufBytes b off n).foldl (fun a b => a * 256 + b.toNat) 0 :=
  toNat_beValue _ ((State.length_bufBytes _ _ _ _).trans_le hn)

/-- Bytes written into a buffer read back. -/
theorem State.bufByte_bufWrite_inside {s : State} (hm : s.mem.wf) (b : Buf) (i : Nat) (bs : List Byte) {j : Nat}
    (hj : j < bs.length) : (s.bufWrite b i bs).bufByte b (i + j) = bs[j] := by
  rw [State.bufByte, ← Nat.add_assoc]
  exact Memory.read_writeBytes_inside hm _ bs j hj

/-- A refused access locks the block (rules R25, R263). -/
theorem State.refuseAccess_faulted (s : State) (f : FaultBit) : (s.refuseAccess f).faulted = true :=
  decide_eq_true fun h => f.mask_ne_zero (BitVec.or_eq_zero_iff.1 h).2

theorem Target.readableWhileBusy_eq_false {g : Target} (hs : g ≠ .reg .status) (hf : g ≠ .reg .fault) :
    g.readableWhileBusy = false := by
  cases g with
  | buf b off => rfl
  | reg r => exact decide_eq_false (not_or.2 ⟨fun e => hs (e ▸ rfl), fun e => hf (e ▸ rfl)⟩)

end Sys2Proof.Machine
end

section
/-! PROOFS. The family `other`: host accesses and the register map. -/

namespace Sys2Proof

open Machine

/-- Settles O51: the fields of the word bit by bit, and `FAULT` zero-extended in its own register. -/
theorem statusWordFields : Obligations.StatusWordFields := by
  intro s w
  have hbit (j : Nat) : w.getLsbD j = _ := s.getLsbD_statusWord j
  refine ⟨hbit 0, hbit 1, hbit 2, ?_, fun j h4 h8 => ?_, s.status_result, s.status_lastop, fun j h24 _ => ?_⟩
  · rw [hbit 3]
    exact decide_eq_true_iff.trans (setWidth_ne_zero_iff (by decide) s.fault).symm
  · rw [hbit j, if_neg (by omega), if_neg (by omega), if_neg (by omega), if_neg (by omega), if_pos h8]
  · rw [hbit j, if_neg (by omega), if_neg (by omega), if_neg (by omega), if_neg (by omega), if_neg (by omega),
      if_neg (by omega), if_neg (by omega)]

/-- Settles O54: an access that reaches nothing is refused, and the fault bit shows in `STATUS`. -/
theorem illegalAccessSetsBadAccess : Obligations.IllegalAccessSetsBadAccess := by
  intro s addr n v rest ht h
  have hstep : step s = .next ((s.withScript rest).refuseAccess .badAccess) := by
    rcases h with h | h
    · rw [step_read h, State.hostRead_illegal (s := s.withScript rest) ht]
    · rw [step_write h, State.hostWrite_illegal (s := s.withScript rest) v ht]
  exact ⟨_, hstep, rfl, (State.getLsbD_status_three _).trans (State.refuseAccess_faulted _ _)⟩

/-- Settles O55: a busy block refuses every write, and every read but those of `STATUS` and `FAULT`. -/
theorem busyAccessIsRefused : Obligations.BusyAccessIsRefused := by
  intro s addr n v tg rest hp ht
  refine ⟨fun h => ?_, fun h => ?_⟩
  · rw [step_write h, State.hostWrite_busy (s := s.withScript rest) v ht hp]
    rfl
  · rw [step_read h, State.hostRead_busy (s := s.withScript rest) ht hp]
    refine ⟨?_, fun hs hf => ?_⟩
    · rintro (rfl | rfl)
      · exact ⟨_, rfl, rfl⟩
      · exact ⟨_, rfl, rfl⟩
    · rw [Target.readableWhileBusy_eq_false hs hf]
      rfl

/-- Settles O56: an idle read answers the target's value, which for a buffer is the value of its bytes. -/
theorem readsReturnValuesAndChangeNothing : Obligations.ReadsReturnValuesAndChangeNothing := by
  intro s addr n rest hp h
  have hread {g : Target} (ht : target s.cfg addr n = some g) :
      step s = .next { s with script := rest, busResp := some (.data ((s.withScript rest).readTarget n g)) } := by
    rw [step_read h, State.hostRead_idle (s := s.withScript rest) ht hp]
    rfl
  refine ⟨fun r ht => hread ht, fun b off ht => ⟨_, hread ht, ?_⟩⟩
  have hvalue {k : Nat} (hk : k ≤ 4) := s.toNat_beValue_bufBytes b off hk
  refine ⟨?_, ?_, ?_⟩ <;> rintro rfl
  all_goals
    refine (hvalue (by decide)).trans ?_
    simp only [State.bufBytes_succ, State.bufBytes_zero, List.foldl_cons, List.foldl_nil, Nat.add_assoc,
      Nat.reduceAdd]
    omega

/-- Settles O57: the list is the register map, with reserved bits written as zeros in front of each field. -/
theorem eachRegisterReadsItsField : Obligations.EachRegisterReadsItsField := by
  intro s off v rest hc hp h hmem
  refine step_read_of_mem_registerMap hc hp h ?_
  convert hmem using 1
  simp only [zero_append_eq_setWidth]
  cases hk : s.rxKind <;> simp only [State.registerMap, Reg.all, List.map_append, List.map_cons, List.map_nil,
    State.regValue, hk] <;> rfl

/-- Settles O58: the bytes stored are the base-256 digits of the value. -/
theorem bufferWritesAreBigEndian : Obligations.BufferWritesAreBigEndian := by
  intro s addr n v b off rest hm hp h ht
  have hstep := step_write h
  rw [State.hostWrite_idle (s := s.withScript rest) v ht hp, State.writeTarget] at hstep
  refine ⟨_, hstep, fun j hj => ?_, fun a ha => ?_, rfl⟩
  · have hj' : j < (beBytes n v).length := by rwa [length_beBytes]
    exact (congrArg BitVec.toNat (State.bufByte_bufWrite_inside (s := s.withScript rest) hm b off _ hj')).trans
      (getElem_beBytes n v j hj')
  · exact Memory.read_writeBytes_outside s.mem _ (by rwa [length_beBytes])

/-- Settles O59: the write effect of each writable register. -/
theorem registerWritesStoreTheWritableBits : Obligations.RegisterWritesStoreTheWritableBits := by
  intro s v r rest hc hp h a
  have hstep : step s = .next (((s.withScript rest).writeReg v r).respond .ok) := step_write_reg_idle hc hp h
  have hlow {n : Nat} (hn : n ≤ 32) : v.extractLsb' 0 n = v.setWidth n := (BitVec.setWidth_eq_extractLsb' hn).symm
  rw [hlow (by decide), hlow (by decide), hstep]
  refine ⟨?_, ?_, ?_, ?_, ?_, ?_, ?_, ?_, ?_, ?_, ?_⟩ <;> rintro rfl
  · intro hv
    rw [State.writeReg, if_pos hv]
    rfl
  · intro hv
    rw [State.writeReg, if_neg (by rw [hv]; decide)]
    rfl
  all_goals rfl

end Sys2Proof
end

section
/-! SUPPORT. What `SCAN` makes of a burst whose bytes have all arrived, and how far its cursor goes (rules R203, R207,
R209 to R211). -/

namespace Sys2Proof.Machine

theorem all_isHex_iff (bs : List Byte) :
    bs.all isHex = true ↔ ∀ b ∈ bs, (0x30 ≤ b.toNat ∧ b.toNat ≤ 0x39) ∨ (0x41 ≤ b.toNat ∧ b.toNat ≤ 0x46) ∨
      (0x61 ≤ b.toNat ∧ b.toNat ≤ 0x66) := by
  simp only [List.all_eq_true, isHex, isDigit, Bool.or_eq_true, decide_eq_true_eq, or_assoc]

theorem State.rxRangeBad_eq_true {s : State} (h : ¬ s.RxRangeOk) : s.rxRangeBad = true := by
  refine decide_eq_true ?_
  rcases not_and_or.1 h with h | h
  · exact .inl (Nat.lt_of_not_le h)
  · exact .inr (Nat.lt_of_not_le h)

/-- `SCAN` within range keeps `RX_LEN` and leaves its cursor within it; at the end of the bytes it waits (rules R203,
R205). -/
theorem exec_scan_cursor {s : State} (h : s.RxRangeOk) :
    ∃ t, exec .scan s = .next t ∧ t.rxLen = s.rxLen ∧ t.rxPos.toNat ≤ t.rxLen.toNat ∧
      (s.rxPos = s.rxLen → t.result = .needMore) := by
  rcases s.scanWindow_cases with ⟨-, hf⟩ | ⟨q, -, hq⟩
  · have hle := State.noMagicPos_le_rxLen h
    exact ⟨_, exec_scan_of_no_magic h hf, rfl, (State.waitingAt_rxPos_toNat hle).trans_le hle, fun _ => rfl⟩
  · obtain ⟨hp, hend, -, -⟩ := id hq
    refine ⟨_, exec_scan_of_firstMagic h hq, ?_⟩
    rcases State.scanMovesOn_applyScan h hq with hs | hmove
    · have hle : q ≤ s.rxLen.toNat := by omega
      rw [hs, State.applyScan_short]
      exact ⟨rfl, (State.waitingAt_rxPos_toNat hle).trans_le hle, fun _ => rfl⟩
    · exact ⟨hmove.rxLen_eq, hmove.rangeOk.2, fun he => by rw [he] at hp; omega⟩

/-! ### The attempt at a magic, when all its bytes are there -/

/-- The bytes that the CRC of a burst at `q` with a payload of `n` bytes covers (rules R172, R209). -/
def State.coveredAt (s : State) (q n : Nat) : List Byte :=
  s.bufBytes .rxbuf q 24 ++ s.bufBytes .rxbuf (q + 32) n

theorem State.scanAt_of_malformed {s : State} {q : Nat} (hlen : 32 ≤ s.rxLen.toNat - q)
    (hc : classify (s.bufBytes .rxbuf q 24) = none) : s.scanAt q = .malformed q := by
  rcases s.scanAt_cases q with ⟨hlt, -⟩ | ⟨-, -, e⟩ | ⟨hd, -, hsome, -⟩
  · omega
  · exact e
  · rw [hc] at hsome
    cases hsome

theorem State.scanAt_of_classify {s : State} {q : Nat} {hd : Header}
    (hc : classify (s.bufBytes .rxbuf q 24) = some hd) (hlen : 32 + hd.payload ≤ s.rxLen.toNat - q) :
    s.scanAt q = s.checkCrc q hd := by
  rcases s.scanAt_cases q with ⟨hlt, -⟩ | ⟨-, hnone, -⟩ | ⟨hd', -, hsome, hcases⟩
  · omega
  · rw [hc] at hnone
    cases hnone
  · obtain rfl : hd = hd' := Option.some.inj (hc.symm.trans hsome)
    rcases hcases with ⟨hlt, -⟩ | ⟨-, e⟩
    · omega
    · exact e

/-- The CRC comparison finds equal values (rule R211). -/
theorem State.checkCrc_of_eq {s : State} {q : Nat} {hd : Header}
    (hhex : (s.bufBytes .rxbuf (q + 24) 8).all isHex = true)
    (heq : hexVal (s.bufBytes .rxbuf (q + 24) 8) = s.cfg.crc32 (s.coveredAt q hd.payload)) :
    s.checkCrc q hd = .verified q (s.bufBytes .rxbuf q 24) hd (s.coveredAt q hd.payload) := by
  rcases s.checkCrc_cases q hd _ _ rfl rfl with ⟨-, -, e⟩ | ⟨-, hne, -⟩ | ⟨hno, -⟩
  · exact e
  · exact absurd heq hne
  · rw [hhex] at hno
    cases hno

/-- The CRC comparison fails: the value received is 0 when the field is not all hex digits (rule R210). -/
theorem State.checkCrc_of_ne {s : State} {q : Nat} {hd : Header}
    (hne : ¬ (s.bufBytes .rxbuf (q + 24) 8).all isHex = true ∨
      hexVal (s.bufBytes .rxbuf (q + 24) 8) ≠ s.cfg.crc32 (s.coveredAt q hd.payload)) :
    ∃ rcvd, s.checkCrc q hd = .crcBad q (s.coveredAt q hd.payload) rcvd ∧
      ((s.bufBytes .rxbuf (q + 24) 8).all isHex = true → rcvd = hexVal (s.bufBytes .rxbuf (q + 24) 8)) ∧
      (¬ (s.bufBytes .rxbuf (q + 24) 8).all isHex = true → rcvd = 0) := by
  rcases s.checkCrc_cases q hd _ _ rfl rfl with ⟨hhex, heq, -⟩ | ⟨hhex, -, e⟩ | ⟨hno, e⟩
  · exact (hne.elim (fun h => h hhex) fun h => h heq).elim
  · exact ⟨_, e, fun _ => rfl, fun h => absurd hhex h⟩
  · exact ⟨0, e, fun h => absurd (hno.symm.trans h) Bool.false_ne_true, fun _ => rfl⟩

/-- The cursor after a burst that is not verified (rules R207, R210). -/
theorem State.toNat_resync {s : State} {q : Nat} (hend : q + 4 ≤ s.rxLen.toNat) :
    (BitVec.ofNat 32 (q + resyncStep)).toNat = q + 4 :=
  s.toNat_ofNat_of_le_rxLen hend

/-- What a verified burst reports, as numbers (rule R211). -/
theorem State.applyScan_verified_report {s : State} {q : Nat} {h covered : List Byte} {hd : Header}
    (hc : classify h = some hd) (hend : q + 32 + hd.payload ≤ s.rxLen.toNat) :
    let t := s.applyScan (.verified q h hd covered)
    t.rxSerial.toNat = decVal (slice h 4 4) ∧ t.rxProfile.toNat = decVal (slice h 8 5) ∧
      t.rxPacket.toNat = decVal (slice h 13 4) ∧ t.rxPay.toNat = q + 32 ∧
      t.rxPos.toNat = q + 32 + hd.payload ∧ t.rxBurst.toNat = hd.bn ∧ t.rxValue.toNat = hd.val := by
  obtain ⟨e1, e2, e3, e4, e5⟩ := toNat_report_fields hc
  have hpay : q + 32 ≤ s.rxLen.toNat := (Nat.le_add_right _ _).trans hend
  exact ⟨e1, e2, e3, s.toNat_ofNat_of_le_rxLen hpay, s.toNat_ofNat_of_le_rxLen hend, e4, e5⟩

theorem exec_rxcompact_of_range {s : State} (h : s.RxRangeOk) : exec .rxcompact s = .next s.afterRxcompact :=
  exec_of_check (State.checkFault_rx.2.2 h)

end Sys2Proof.Machine
end

section
/-! PROOFS. The family `other`: receiving. -/

namespace Sys2Proof

open Machine

/-- Settles O26: one check before either command; within range `SCAN` reports no fault and keeps its cursor in the
received bytes. -/
theorem receiveRangeCheck : Obligations.ReceiveRangeCheck := by
  refine fun s => ⟨fun hbad => ?_, fun h => ⟨?_, ?_⟩⟩
  · have hr := State.rxRangeBad_eq_true hbad
    simp only [List.forall_mem_cons, List.not_mem_nil, false_imp_iff, implies_true, and_true]
    exact ⟨exec_scan_bad hr, exec_rxcompact_bad hr⟩
  · obtain ⟨t, ht, hlen, hpos, hwait⟩ := exec_scan_cursor h
    obtain rfl : t = s.after .scan :=
      Host.Outcome.next.inj (ht.symm.trans (exec_of_check (State.checkFault_rx.1.2 h)))
    exact ⟨_, ht, s.after_fault (by decide), s.applyScan_result_ne_fault _, hlen, hpos, hwait⟩
  · exact ⟨_, exec_rxcompact_of_range h, rfl, rfl⟩

/-- Settles O30: the attempt at the first magic finds none of the three kinds. -/
theorem scanSkipsAMalformedHeader : Obligations.ScanSkipsAMalformedHeader := by
  intro s q h hq hlen hc
  have hexec := exec_scan_of_firstMagic h hq
  rw [State.scanAt_of_malformed hlen hc] at hexec
  exact ⟨_, hexec, State.toNat_resync hq.2.1, rfl⟩

/-- Settles O31: the comparison fails, and the value received is that of the field or 0. -/
theorem scanRejectsACrcMismatch : Obligations.ScanRejectsACrcMismatch := by
  intro s q hd h hq hc hlen covered computed field allHex hne
  have hhex : allHex ↔ field.all isHex = true := (all_isHex_iff field).symm
  obtain ⟨rcvd, hcheck, hrcvd, hzero⟩ := State.checkCrc_of_ne (hne.imp_left (mt hhex.2))
  have hexec := exec_scan_of_firstMagic h hq
  rw [State.scanAt_of_classify hc hlen, hcheck] at hexec
  exact ⟨_, hexec, State.toNat_resync hq.2.1, fun ha => hrcvd (hhex.1 ha), fun ha => hzero (mt hhex.2 ha),
    fun hd => crcFinish_crc32_of_decided hd _, rfl⟩

/-- Settles O32: the comparison succeeds, and the fields reported fit their registers. -/
theorem scanReportsAVerifiedBurst : Obligations.ScanReportsAVerifiedBurst := by
  intro s q hd h hq hc hlen hdr covered computed field hallHex heq
  have hexec := exec_scan_of_firstMagic h hq
  rw [State.scanAt_of_classify hc hlen, State.checkCrc_of_eq ((all_isHex_iff field).2 hallHex) heq] at hexec
  obtain ⟨hserial, hprofile, hpacket, hpay, hpos, hburst, hvalue⟩ :=
    State.applyScan_verified_report (s := s) (q := q) (covered := covered) hc (by omega)
  refine ⟨_, hexec, hserial, hprofile, hpacket, hpay, hpos, ?_, ?_, ?_,
    fun hd => crcFinish_crc32_of_decided hd _, rfl⟩
  · rintro count rfl
    exact ⟨rfl, rfl, hburst, hvalue⟩
  · rintro bn size rfl
    exact ⟨rfl, rfl, hburst, hvalue⟩
  · rintro rfl
    exact ⟨rfl, rfl, hburst, hvalue⟩

/-- Settles O36: the bytes read from the cursor on are written from the start of RXBUF. -/
theorem rxcompactMovesTheTail : Obligations.RxcompactMovesTheTail := by
  intro s hm h
  refine ⟨_, exec_rxcompact_of_range h, s.toNat_ofNat_of_le_rxLen (Nat.sub_le _ _), fun i hi => ?_, fun a ha => ?_,
    rfl⟩
  · have hi' : i < (s.bufBytes .rxbuf s.rxPos.toNat (s.rxLen.toNat - s.rxPos.toNat)).length := by
      rwa [State.length_bufBytes]
    have hread := State.bufByte_bufWrite_inside hm .rxbuf 0 _ hi'
    rw [Nat.zero_add, State.getElem_bufBytes] at hread
    exact hread
  · exact Memory.read_writeBytes_outside s.mem _ (by rwa [State.length_bufBytes])

end Sys2Proof
end

section
/-! SUPPORT. A burst that `RENDER` wrote, received at the cursor of another block, as `SCAN` reads it (rules R100 to
R106, R184, R185, R211). -/

namespace Sys2Proof.Machine

/-- A header as the wire format carries it: the announced count modulo 10000, the number of a data burst modulo 1000
(rules R13, R102, R103). -/
def Header.onWire : Header → Header
  | .announce count => .announce (count % 10000)
  | .data bn size => .data (bn % 1000) size
  | .terminal => .terminal

@[simp] theorem Header.payload_onWire (hd : Header) : hd.onWire.payload = hd.payload := by
  cases hd <;> rfl

theorem Config.crc32_congr {c d : Config} (h : c.crc32fn = d.crc32fn) : c.crc32 = d.crc32 := by
  funext bs
  rw [Config.crc32, Config.crc32, h]

/-- What a rendered header is read as, but for a data burst whose number is a multiple of 1000 (rule R106). -/
theorem State.classify_renderedHeader {s : State} (hc : s.FramedCoherent) (hf : s.framed = true) {idx : Nat}
    (hi : idx ≤ s.burstCount.toNat + 1) (hk : ¬ (1 ≤ idx ∧ idx ≤ s.burstCount.toNat ∧ idx % 1000 = 0)) :
    classify (s.renderedHeader idx) = some (s.burstHeader idx).onWire := by
  rw [State.renderedHeader]
  by_cases h0 : idx = 0
  · rw [h0, s.burstHeader_zero]
    exact classify_headerOf_announce ..
  · by_cases hn : idx ≤ s.burstCount.toNat
    · have hsize := (State.burstLen_spec hc hf (by omega) hn).2.1.trans (State.framed_spec hc hf).2.1
      rw [State.burstHeader_of_data (by omega) hn]
      exact classify_headerOf_data _ _ _ _ _ (fun h => hk ⟨by omega, hn, h⟩) hsize
    · obtain rfl : idx = s.burstCount.toNat + 1 := by omega
      rw [s.burstHeader_last]
      exact classify_headerOf_terminal ..

/-- A data burst whose number is a multiple of 1000 is read as an announce burst (rule R106, conflict of `"000"`). -/
theorem State.classify_renderedHeader_thousand {s : State} {idx : Nat} (h1 : 1 ≤ idx)
    (h2 : idx ≤ s.burstCount.toNat) (h3 : idx % 1000 = 0) :
    ∃ count, classify (s.renderedHeader idx) = some (.announce count) := by
  rw [State.renderedHeader, State.burstHeader_of_data h1 h2, headerOf_data_thousand _ _ _ _ h3]
  exact ⟨_, classify_headerOf_announce ..⟩

/-- The identity fields of a rendered header (rules R101, R184). -/
theorem State.fields_renderedHeader (s : State) (idx : Nat) :
    decVal (slice (s.renderedHeader idx) 4 4) = s.txSerial.toNat % 10000 ∧
      decVal (slice (s.renderedHeader idx) 8 5) = s.txProfile.toNat ∧
      decVal (slice (s.renderedHeader idx) 13 4) = s.txPacket.toNat % 10000 := by
  have hlt := s.txProfile.isLt
  simp only [State.renderedHeader, slice_headerOf_serial, slice_headerOf_profile, slice_headerOf_packet, decVal_decN]
  omega

/-- Burst `idx` of the framer `s` stands at the cursor of `u` (rules R100, R105). -/
structure State.HoldsBurst (u s : State) (idx : Nat) : Prop where
  header : u.bufBytes .rxbuf u.rxPos.toNat 24 = s.renderedHeader idx
  crcField : u.bufBytes .rxbuf (u.rxPos.toNat + 24) 8 = hex8 s.cfg.hexUpper (s.cfg.crc32 (s.burstCovered idx))
  payload : u.bufBytes .rxbuf (u.rxPos.toNat + 32) (s.burstHeader idx).payload = s.burstPayload idx

/-- What TXBUF holds after a `RENDER`, received byte for byte. -/
theorem State.holdsBurst_of_received {s t u : State} {idx : Nat} (hm : s.mem.wf) (hc : s.FramedCoherent)
    (hf : s.framed = true) (hi : idx ≤ s.burstCount.toNat + 1) (ht : exec (.render idx) s = .next t)
    (hrx : u.bufBytes .rxbuf u.rxPos.toNat t.txLen.toNat = t.bufBytes .txbuf 0 t.txLen.toNat) :
    u.HoldsBurst s idx := by
  obtain ⟨-, hhdr, hcrc, hpay, hlen⟩ := exec_render_txbuf hm hc hf hi ht
  rw [hlen, show 32 + (s.burstHeader idx).payload = 24 + 8 + (s.burstHeader idx).payload by rfl,
    State.bufBytes_add, State.bufBytes_add, State.bufBytes_add t, State.bufBytes_add t] at hrx
  obtain ⟨hfirst, hpay'⟩ := List.append_inj hrx (by simp)
  obtain ⟨hhdr', hcrc'⟩ := List.append_inj hfirst (by simp)
  exact ⟨hhdr'.trans hhdr, hcrc'.trans hcrc, hpay'.trans hpay⟩

section HoldsBurst

variable {u s : State} {idx : Nat} (hu : u.HoldsBurst s idx)
include hu

theorem State.HoldsBurst.firstMagic (hlen : u.rxPos.toNat + 32 ≤ u.rxLen.toNat) : u.FirstMagic u.rxPos.toNat := by
  refine ⟨Nat.le_refl _, by omega, ?_, fun r hr hp => absurd hp (Nat.not_le.2 hr)⟩
  have hmagic : (u.bufBytes .rxbuf u.rxPos.toNat (4 + 20)).take 4 = magic := by
    rw [hu.header]
    exact headerOf_magic ..
  rwa [State.bufBytes_add, List.take_left' (by simp)] at hmagic

theorem State.HoldsBurst.coveredAt :
    u.coveredAt u.rxPos.toNat (s.burstHeader idx).payload = s.burstCovered idx := by
  rw [State.coveredAt, hu.header, hu.payload, State.burstCovered]

/-- Such a burst is verified when its header is read as it was written (rule R211). -/
theorem State.HoldsBurst.exec_scan (hcrc : u.cfg.crc32fn = s.cfg.crc32fn) (hr : u.rxLen.toNat ≤ u.cfg.rxbufBytes)
    (hlen : u.rxPos.toNat + (32 + (s.burstHeader idx).payload) ≤ u.rxLen.toNat)
    (hclass : classify (s.renderedHeader idx) = some (s.burstHeader idx).onWire) :
    exec .scan u = .next (u.applyScan
      (.verified u.rxPos.toNat (s.renderedHeader idx) (s.burstHeader idx).onWire (s.burstCovered idx))) := by
  have hclass' : classify (u.bufBytes .rxbuf u.rxPos.toNat 24) = some (s.burstHeader idx).onWire := by
    rwa [hu.header]
  have hcov : u.coveredAt u.rxPos.toNat (s.burstHeader idx).onWire.payload = s.burstCovered idx := by
    rw [Header.payload_onWire, hu.coveredAt]
  have hcheck := State.checkCrc_of_eq (s := u) (q := u.rxPos.toNat) (hd := (s.burstHeader idx).onWire)
    (by rw [hu.crcField]; exact all_isHex_hex8 ..)
    (by rw [hu.crcField, hexVal_hex8, hcov, Config.crc32_congr hcrc])
  rw [exec_scan_of_firstMagic ⟨hr, by omega⟩ (hu.firstMagic (by omega)),
    State.scanAt_of_classify hclass' (by rw [Header.payload_onWire]; omega), hcheck, hcov, hu.header]

/-- Read as an announce burst, it is verified only if the CRC of header and payload is that of the header alone
(rules R209, R210). -/
theorem State.HoldsBurst.exec_scan_announce (hcrc : u.cfg.crc32fn = s.cfg.crc32fn)
    (hr : u.rxLen.toNat ≤ u.cfg.rxbufBytes) (hlen : u.rxPos.toNat + 32 ≤ u.rxLen.toNat) {count : Nat}
    (hclass : classify (s.renderedHeader idx) = some (.announce count)) :
    ∃ v, exec .scan u = .next v ∧ v.rxCrcCalc = s.cfg.crc32 (s.renderedHeader idx) ∧
      v.rxCrcRcvd = s.cfg.crc32 (s.burstCovered idx) ∧
      (v.rxCrcCalc ≠ v.rxCrcRcvd → v.result = .crcBad ∧ v.rxKind = .none ∧ v.rxPos.toNat = u.rxPos.toNat + 4) ∧
      (v.rxCrcCalc = v.rxCrcRcvd → v.result = .announce) := by
  have hmagic := hu.firstMagic hlen
  have hclass' : classify (u.bufBytes .rxbuf u.rxPos.toNat 24) = some (.announce count) := by rwa [hu.header]
  have hcov : u.cfg.crc32 (u.coveredAt u.rxPos.toNat (Header.announce count).payload) =
      s.cfg.crc32 (s.renderedHeader idx) := by
    rw [State.coveredAt, hu.header, Config.crc32_congr hcrc]
    exact congrArg _ (List.append_nil _)
  have hhex : (u.bufBytes .rxbuf (u.rxPos.toNat + 24) 8).all isHex = true := by
    rw [hu.crcField]
    exact all_isHex_hex8 ..
  have hval : hexVal (u.bufBytes .rxbuf (u.rxPos.toNat + 24) 8) = s.cfg.crc32 (s.burstCovered idx) := by
    rw [hu.crcField, hexVal_hex8]
  have hexec := exec_scan_of_firstMagic ⟨hr, by omega⟩ hmagic
  rw [State.scanAt_of_classify hclass' (by simp only [Header.payload]; omega)] at hexec
  by_cases heq : s.cfg.crc32 (s.burstCovered idx) = s.cfg.crc32 (s.renderedHeader idx)
  · rw [State.checkCrc_of_eq hhex (by rw [hval, hcov, heq])] at hexec
    exact ⟨_, hexec, hcov, hcov.trans heq.symm, fun hne => absurd rfl hne, fun _ => rfl⟩
  · obtain ⟨rcvd, hcheck, hrcvd, -⟩ := State.checkCrc_of_ne (.inr (by rw [hval, hcov]; exact heq))
    rw [hcheck, hrcvd hhex, hval] at hexec
    exact ⟨_, hexec, hcov, rfl, fun _ => ⟨rfl, rfl, State.toNat_resync hmagic.2.1⟩,
      fun h => absurd (h.symm.trans hcov) heq⟩

end HoldsBurst

end Sys2Proof.Machine
end

section
/-! PROOFS. The family `other`: framer and verifier together. -/

namespace Sys2Proof

open Machine

/-- Settles O25: the received bytes are header, CRC field and payload of the burst; the header reads back as the wire
format reduces it, and the CRC agrees unless `"000"` makes a data burst an announce burst. -/
theorem scanVerifiesWhatRenderWrote : Obligations.ScanVerifiesWhatRenderWrote := by
  intro s t u idx hm hc hf hi ht hcrc hr hend hrx
  obtain ⟨-, hhdr, -, hpay, hlen⟩ := exec_render_txbuf hm hc hf hi ht
  have hu := State.holdsBurst_of_received hm hc hf hi ht hrx
  have hsz : t.txLen.toNat - 32 = (s.burstHeader idx).payload := by omega
  rw [hlen] at hend
  refine ⟨fun ⟨h1, h2, h3⟩ => ?_, fun hk => ?_⟩
  · obtain ⟨count, hclass⟩ := State.classify_renderedHeader_thousand h1 h2 h3
    rw [hsz, hhdr, hpay]
    exact hu.exec_scan_announce hcrc hr (by omega) hclass
  · have hclass := State.classify_renderedHeader hc hf hi hk
    have hexec := hu.exec_scan hcrc hr hend hclass
    obtain ⟨hserial, hprofile, hpacket, hpos32, hpos, hburst, hvalue⟩ :=
      State.applyScan_verified_report (s := u) (q := u.rxPos.toNat) (covered := s.burstCovered idx) hclass
        (by rw [Header.payload_onWire]; omega)
    obtain ⟨eserial, eprofile, epacket⟩ := s.fields_renderedHeader idx
    rw [Header.payload_onWire] at hpos
    refine ⟨_, hexec, hserial.trans eserial, hprofile.trans eprofile, hpacket.trans epacket, ?_, fun h1 h2 => ?_, ?_,
      hpos32, by rw [hpos, hlen, Nat.add_assoc], rfl⟩
    · rintro rfl
      rw [s.burstHeader_zero] at hburst hvalue ⊢
      exact ⟨rfl, rfl, BitVec.eq_of_toNat_eq hburst, hvalue⟩
    · have hsize : (u.applyScan (.verified u.rxPos.toNat (s.renderedHeader idx) (s.burstHeader idx).onWire
          (s.burstCovered idx))).rxValue.toNat = (s.burstHeader idx).payload := by
        rw [hvalue, State.burstHeader_of_data h1 h2]
        rfl
      refine ⟨?_, ?_, ?_, hsize.trans hsz.symm, ?_⟩
      · rw [State.burstHeader_of_data h1 h2]; rfl
      · rw [State.burstHeader_of_data h1 h2]; rfl
      · rw [hburst, State.burstHeader_of_data h1 h2]; rfl
      · rw [hpos32, hsize]
        exact hu.payload
    · rintro rfl
      rw [s.burstHeader_last] at hburst hvalue ⊢
      exact ⟨rfl, rfl, BitVec.eq_of_toNat_eq hburst, BitVec.eq_of_toNat_eq hvalue⟩

end Sys2Proof
end

section
/-! SUPPORT. One changed digit of a hexadecimal field (rules R13, R217). -/

namespace Sys2Proof.Machine

theorem hexDigitVal_lt {b : Byte} (h : isHex b = true) : hexDigitVal b < 16 := by
  revert b
  decide

/-- A letter and the same letter in the other case are the same digit (rule R13). -/
theorem isHex_other_case {b : Byte} (h : isHex b = true) (hb : 0x41 ≤ b.toNat) :
    isHex (b ^^^ 0x20) = true ∧ hexDigitVal (b ^^^ 0x20) = hexDigitVal b := by
  revert b
  decide

/-- A hex digit is one of the two that the serializer could print for its value. -/
theorem eq_hexDigit_of_isHex {b : Byte} (h : isHex b = true) : ∃ upper, b = hexDigit upper (hexDigitVal b) := by
  revert b
  decide

/-- The two digits of one value, where they differ, are a letter in its two cases. -/
theorem hexDigit_other_case {d : Nat} (hd : d < 16) {u v : Bool} (hne : hexDigit u d ≠ hexDigit v d) :
    0x41 ≤ (hexDigit v d).toNat ∧ hexDigit u d = hexDigit v d ^^^ 0x20 := by
  have h : ∀ d : Fin 16, ∀ u v : Bool, hexDigit u d.val ≠ hexDigit v d.val →
      0x41 ≤ (hexDigit v d.val).toNat ∧ hexDigit u d.val = hexDigit v d.val ^^^ 0x20 := by decide
  exact h ⟨d, hd⟩ u v hne

/-- Different hex digits of one value are a letter in its two cases (rule R13). -/
theorem other_case_of_hexDigitVal_eq {b b' : Byte} (h : isHex b = true) (h' : isHex b' = true) (hne : b' ≠ b)
    (heq : hexDigitVal b' = hexDigitVal b) : 0x41 ≤ b.toNat ∧ b' = b ^^^ 0x20 := by
  obtain ⟨v, hv⟩ := eq_hexDigit_of_isHex h
  obtain ⟨u, hu⟩ := eq_hexDigit_of_isHex h'
  have hlt := hexDigitVal_lt h
  rw [heq] at hu
  generalize hexDigitVal b = d at hu hv hlt
  subst hu hv
  exact hexDigit_other_case hlt hne

/-- The number that a string of hex digits adds to, from a first value on (rule R13). -/
def hexFold (acc : Nat) (bs : List Byte) : Nat := bs.foldl (fun acc b => acc * 16 + hexDigitVal b) acc

theorem hexVal_eq_hexFold (bs : List Byte) : hexVal bs = BitVec.ofNat 32 (hexFold 0 bs) := rfl

theorem hexFold_split (acc : Nat) (pre post : List Byte) (b : Byte) :
    hexFold acc (pre ++ b :: post) = hexFold (hexFold acc pre * 16 + hexDigitVal b) post :=
  List.foldl_append

theorem hexFold_inj {bs : List Byte} {acc acc' : Nat} (h : hexFold acc bs = hexFold acc' bs) : acc = acc' := by
  induction bs generalizing acc acc' with
  | nil => exact h
  | cons b bs ih =>
    have := ih (acc := acc * 16 + hexDigitVal b) (acc' := acc' * 16 + hexDigitVal b) h
    omega

theorem hexFold_lt {bs : List Byte} (h : bs.all isHex = true) (acc : Nat) :
    hexFold acc bs < (acc + 1) * 16 ^ bs.length := by
  induction bs generalizing acc with
  | nil => exact (Nat.lt_succ_self acc).trans_eq (Nat.mul_one _).symm
  | cons b bs ih =>
    rw [List.all_cons, Bool.and_eq_true] at h
    obtain ⟨hb, hbs⟩ := h
    have hlt := hexDigitVal_lt hb
    calc hexFold acc (b :: bs)
        = hexFold (acc * 16 + hexDigitVal b) bs := rfl
      _ < (acc * 16 + hexDigitVal b + 1) * 16 ^ bs.length := ih hbs _
      _ ≤ (acc + 1) * 16 * 16 ^ bs.length := Nat.mul_le_mul_right _ (by omega)
      _ = (acc + 1) * 16 ^ (b :: bs).length := by rw [List.length_cons, Nat.pow_succ', Nat.mul_assoc]

/-- Eight hex digits fit a word. -/
theorem toNat_hexVal {bs : List Byte} (h : bs.all isHex = true) (hlen : bs.length = 8) :
    (hexVal bs).toNat = hexFold 0 bs := by
  have hlt := hexFold_lt h 0
  rw [hlen, Nat.zero_add, Nat.one_mul] at hlt
  rw [hexVal_eq_hexFold, BitVec.toNat_ofNat, Nat.mod_eq_of_lt (hlt.trans_eq (by decide))]

theorem hexVal_congr_digit {pre post : List Byte} {b b' : Byte} (h : hexDigitVal b' = hexDigitVal b) :
    hexVal (pre ++ b' :: post) = hexVal (pre ++ b :: post) := by
  rw [hexVal_eq_hexFold, hexVal_eq_hexFold, hexFold_split, hexFold_split, h]

/-- A digit of another value changes the value of the field. -/
theorem hexVal_ne_of_digit {pre post : List Byte} {b b' : Byte} (hall : (pre ++ b :: post).all isHex = true)
    (hall' : (pre ++ b' :: post).all isHex = true) (hlen : (pre ++ b :: post).length = 8)
    (hne : hexDigitVal b' ≠ hexDigitVal b) : hexVal (pre ++ b' :: post) ≠ hexVal (pre ++ b :: post) := by
  intro h
  have h := congrArg BitVec.toNat h
  rw [toNat_hexVal hall hlen, toNat_hexVal hall' (by simpa using hlen), hexFold_split, hexFold_split] at h
  have := hexFold_inj h
  omega

end Sys2Proof.Machine
end

section
/-! SUPPORT. RXBUF with one byte changed: the strings that keep it out, the ones that hold it, and what becomes of a
burst that `SCAN` verified (rules R168, R204 to R211, R217). -/

namespace Sys2Proof.Machine

/-- `s'` is `s` with another memory, in which one byte `x` of RXBUF is another one (rule R217). -/
structure State.DiffersAt (s s' : State) (x : Nat) : Prop where
  frame : s' = { s with mem := s'.mem }
  changed : s'.bufByte .rxbuf x ≠ s.bufByte .rxbuf x
  others : ∀ y, y ≠ x → s'.bufByte .rxbuf y = s.bufByte .rxbuf y

/-- `SCAN` verifies a burst with header `hd` at the magic `q` (rule R211). -/
structure State.VerifiedAt (s : State) (q : Nat) (hd : Header) : Prop where
  header : classify (s.bufBytes .rxbuf q 24) = some hd
  arrived : 32 + hd.payload ≤ s.rxLen.toNat - q
  fieldHex : (s.bufBytes .rxbuf (q + 24) 8).all isHex = true
  crc : hexVal (s.bufBytes .rxbuf (q + 24) 8) = s.cfg.crc32 (s.coveredAt q hd.payload)

/-- The outcome of an attempt that verifies a burst at `q`. -/
def State.verifiedOutcome (s : State) (q : Nat) (hd : Header) : ScanOutcome :=
  .verified q (s.bufBytes .rxbuf q 24) hd (s.coveredAt q hd.payload)

theorem State.VerifiedAt.exec_scan {s : State} {q : Nat} {hd : Header} (hv : s.VerifiedAt q hd)
    (h : s.RxRangeOk) (hq : s.FirstMagic q) : exec .scan s = .next (s.applyScan (s.verifiedOutcome q hd)) := by
  rw [exec_scan_of_firstMagic h hq, State.scanAt_of_classify hv.header hv.arrived,
    State.checkCrc_of_eq hv.fieldHex hv.crc, State.verifiedOutcome]

/-- A `SCAN` that reports a kind of burst verified one at its first magic (rules R40, R211). -/
theorem exists_verifiedAt_of_firstMagic {s t : State} {q : Nat} (h : s.RxRangeOk) (hq : s.FirstMagic q)
    (ht : exec .scan s = .next t) (hk : t.rxKind ≠ .none) :
    ∃ hd, s.VerifiedAt q hd ∧ t = s.applyScan (s.verifiedOutcome q hd) := by
  obtain rfl : t = s.applyScan (s.scanAt q) := Host.Outcome.next.inj (ht.symm.trans (exec_scan_of_firstMagic h hq))
  rcases s.scanAt_cases q with ⟨-, e⟩ | ⟨-, -, e⟩ | ⟨hd, -, hclass, ⟨-, e⟩ | ⟨hlen, e⟩⟩ <;> rw [e] at hk
  · exact absurd rfl hk
  · exact absurd rfl hk
  · exact absurd rfl hk
  · rcases s.checkCrc_cases q hd _ _ rfl rfl with ⟨hhex, hcrc, c⟩ | ⟨-, -, c⟩ | ⟨-, c⟩ <;> rw [c] at hk
    · exact ⟨hd, ⟨hclass, hlen, hhex, hcrc⟩, by rw [e, c]; rfl⟩
    · exact absurd rfl hk
    · exact absurd rfl hk

theorem exists_firstMagic_of_rxKind {s t : State} (h : s.RxRangeOk) (ht : exec .scan s = .next t)
    (hk : t.rxKind ≠ .none) : ∃ q, s.FirstMagic q := by
  rcases s.scanWindow_cases with ⟨-, hf⟩ | ⟨q, -, hq⟩
  · obtain rfl := Host.Outcome.next.inj (ht.symm.trans (exec_scan_of_no_magic h hf))
    exact absurd rfl hk
  · exact ⟨q, hq⟩

/-! ### Strings of RXBUF -/

theorem State.bufByte_mem_bufBytes (s : State) (b : Buf) {p n y : Nat} (hp : p ≤ y) (hy : y < p + n) :
    s.bufByte b y ∈ s.bufBytes b p n := by
  obtain ⟨k, rfl⟩ := Nat.exists_eq_add_of_le hp
  rw [← State.getElem_bufBytes s b p n k (by rw [State.length_bufBytes]; omega)]
  exact List.getElem_mem _

theorem State.slice_bufBytes (s : State) (b : Buf) {p n i k : Nat} (h : i + k ≤ n) :
    slice (s.bufBytes b p n) i k = s.bufBytes b (p + i) k := by
  obtain ⟨r, rfl⟩ := Nat.exists_eq_add_of_le h
  rw [slice, State.bufBytes_add, State.bufBytes_add, List.append_assoc, List.drop_left' (State.length_bufBytes ..),
    List.take_left' (State.length_bufBytes ..)]

section DiffersAt

variable {s s' : State} {x : Nat} (hx : s.DiffersAt s' x)
include hx

theorem State.DiffersAt.cfg_eq : s'.cfg = s.cfg := by rw [hx.frame]

theorem State.DiffersAt.rxLen_eq : s'.rxLen = s.rxLen := by rw [hx.frame]

theorem State.DiffersAt.rxPos_eq : s'.rxPos = s.rxPos := by rw [hx.frame]

theorem State.DiffersAt.rxRangeOk (h : s.RxRangeOk) : s'.RxRangeOk := by
  rwa [State.RxRangeOk, hx.cfg_eq, hx.rxLen_eq, hx.rxPos_eq]

/-- A string that does not hold the byte is unchanged. -/
theorem State.DiffersAt.bufBytes_eq {p n : Nat} (h : x < p ∨ p + n ≤ x) :
    s'.bufBytes .rxbuf p n = s.bufBytes .rxbuf p n := by
  refine List.ext_getElem (by simp) fun i hi _ => ?_
  rw [State.length_bufBytes] at hi
  rw [State.getElem_bufBytes, State.getElem_bufBytes, hx.others _ (by omega)]

/-- A string that holds the byte is changed there and nowhere else. -/
theorem State.DiffersAt.bufBytes_split {p n : Nat} (hp : p ≤ x) (hn : x < p + n) :
    ∃ pre post, s.bufBytes .rxbuf p n = pre ++ s.bufByte .rxbuf x :: post ∧
      s'.bufBytes .rxbuf p n = pre ++ s'.bufByte .rxbuf x :: post := by
  obtain ⟨k, rfl⟩ := Nat.exists_eq_add_of_le hp
  obtain ⟨r, rfl⟩ : ∃ r, n = k + (r + 1) := ⟨n - k - 1, by omega⟩
  refine ⟨s.bufBytes .rxbuf p k, s.bufBytes .rxbuf (p + k + 1) r, ?_, ?_⟩ <;>
    rw [State.bufBytes_add, State.bufBytes_succ]
  rw [hx.bufBytes_eq (.inr (Nat.le_refl _)), hx.bufBytes_eq (.inl (Nat.lt_succ_self _))]

theorem State.DiffersAt.firstMagic {q : Nat} (hq : s.FirstMagic q) (hxq : q + 4 ≤ x) : s'.FirstMagic q := by
  obtain ⟨hp, hend, hm, hfirst⟩ := hq
  refine ⟨by rwa [hx.rxPos_eq], by rwa [hx.rxLen_eq], ?_, fun r hr hpr => ?_⟩
  · rw [State.MagicAt, hx.bufBytes_eq (.inr hxq)]
    exact hm
  · rw [State.MagicAt, hx.bufBytes_eq (.inr (by omega))]
    exact hfirst r hr (by rwa [hx.rxPos_eq] at hpr)

/-- The bytes a CRC covers are changed in one place when the byte is among them. -/
theorem State.DiffersAt.coveredAt_split {q n : Nat} (h : q ≤ x ∧ x < q + 24 ∨ q + 32 ≤ x ∧ x < q + 32 + n) :
    ∃ pre post, s.coveredAt q n = pre ++ s.bufByte .rxbuf x :: post ∧
      s'.coveredAt q n = pre ++ s'.bufByte .rxbuf x :: post := by
  rcases h with ⟨hlo, hhi⟩ | ⟨hlo, hhi⟩ <;> obtain ⟨pre, post, e, e'⟩ := hx.bufBytes_split hlo hhi
  · refine ⟨pre, post ++ s.bufBytes .rxbuf (q + 32) n, ?_, ?_⟩
    · rw [State.coveredAt, e, List.append_assoc, List.cons_append]
    · rw [State.coveredAt, e', hx.bufBytes_eq (.inl (by omega)), List.append_assoc, List.cons_append]
  · refine ⟨s.bufBytes .rxbuf q 24 ++ pre, post, ?_, ?_⟩
    · rw [State.coveredAt, e, List.append_assoc]
    · rw [State.coveredAt, e', hx.bufBytes_eq (.inr (by omega)), List.append_assoc]

end DiffersAt

/-- Changing one byte changes the CRC: any change for the decided function, a flipped bit for every other
(rules R165, R168). -/
theorem Config.crc32_ne_of_one_byte {c : Config} (hc : c.Legal) {b b' : Byte} (hne : b' ≠ b)
    (hflip : c.crc32fn = .decided ∨ ∃ j, j < 8 ∧ b' = b ^^^ BitVec.twoPow 8 j) (pre post : List Byte) :
    c.crc32 (pre ++ b' :: post) ≠ c.crc32 (pre ++ b :: post) := by
  rcases hflip with hd | ⟨j, hj, rfl⟩
  · rw [Config.crc32_decided hd, Config.crc32_decided hd]
    exact crc32_ne_of_byte hne pre post
  · obtain ⟨-, -, -, -, -, hsensitive, -⟩ := hc
    exact hsensitive pre post b j hj

/-! ### The header with one byte changed -/

/-- The kind and the size of a header depend on bytes 17 to 23 only (rule R106). -/
theorem classify_eq_of_tail_eq {h h' : List Byte} {hd hd' : Header} (hc : classify h = some hd)
    (hc' : classify h' = some hd') (ht : slice h' 17 7 = slice h 17 7) : hd' = hd := by
  have h3 : slice h' 17 3 = slice h 17 3 := by rw [slice_17_3, slice_17_3, ht]
  have h4 : slice h' 20 4 = slice h 20 4 := by rw [slice_20_4, slice_20_4, ht]
  obtain ⟨-, hcase⟩ := classify_eq_some hc
  obtain ⟨-, hcase'⟩ := classify_eq_some hc'
  rw [ht, h3, h4] at hcase'
  have hdigits (hz : slice h 17 7 = terminalMark) (hall : (slice h 17 7).all isDigit = true) : False :=
    ne_terminalMark_of_all_isDigit hall hz
  rcases hcase with ⟨rfl, hz⟩ | ⟨hall, hn, rfl⟩ | ⟨hall, hn, -, rfl⟩ <;>
    rcases hcase' with ⟨rfl, hz'⟩ | ⟨hall', hn', rfl⟩ | ⟨hall', hn', -, rfl⟩
  · rfl
  · exact (hdigits hz hall').elim
  · exact (hdigits hz hall').elim
  · exact (hdigits hz' hall).elim
  · rfl
  · exact absurd hn hn'
  · exact (hdigits hz' hall).elim
  · exact absurd hn' hn
  · rfl

/-- A header whose number is 0 announces no payload (rule R106). -/
theorem payload_eq_zero_of_number_eq_zero {h : List Byte} {hd : Header} (hc : classify h = some hd)
    (hn : decVal (slice h 17 3) = 0) : hd.payload = 0 := by
  obtain ⟨-, ⟨rfl, -⟩ | ⟨-, -, rfl⟩ | ⟨-, hne, -⟩⟩ := classify_eq_some hc
  · rfl
  · rfl
  · exact absurd hn hne

/-- Three digits of value 0 are `"000"`. -/
theorem eq_zeros_of_decVal_eq_zero {a b c : Byte} (h : [a, b, c].all isDigit = true) (hv : decVal [a, b, c] = 0) :
    [a, b, c] = [0x30, 0x30, 0x30] := by
  simp only [List.all_cons, List.all_nil, isDigit, Bool.and_eq_true, decide_eq_true_eq, Bool.and_true] at h
  simp only [decVal, List.foldl_cons, List.foldl_nil] at hv
  obtain ⟨ha, hb, hc⟩ := h
  have hzero (d : Byte) (hd : d.toNat = 0x30) : d = 0x30 := BitVec.eq_of_toNat_eq hd
  rw [hzero a (by omega), hzero b (by omega), hzero c (by omega)]

/-- Bytes 17 to 23 of a well-formed header: all `'Z'`, or all digits (rules R104, R106). -/
theorem State.tail_cases {s : State} {q : Nat} {hd : Header} (hc : classify (s.bufBytes .rxbuf q 24) = some hd) :
    (hd.kind = .terminal ∧ ∀ y, q + 17 ≤ y → y < q + 24 → s.bufByte .rxbuf y = 0x5A) ∨
      (hd.kind ≠ .terminal ∧ ∀ y, q + 17 ≤ y → y < q + 24 → isDigit (s.bufByte .rxbuf y) = true) := by
  have htail : slice (s.bufBytes .rxbuf q 24) 17 7 = s.bufBytes .rxbuf (q + 17) 7 := s.slice_bufBytes .rxbuf (by omega)
  have hmem (y : Nat) (h1 : q + 17 ≤ y) (h2 : y < q + 24) := s.bufByte_mem_bufBytes .rxbuf (n := 7) h1 h2
  obtain ⟨-, hcase⟩ := classify_eq_some hc
  rw [htail] at hcase
  rcases hcase with ⟨rfl, hz⟩ | ⟨hall, -, rfl⟩ | ⟨hall, -, -, rfl⟩
  · refine .inl ⟨rfl, fun y h1 h2 => ?_⟩
    have hy := hmem y h1 h2
    rw [hz] at hy
    exact List.eq_of_mem_replicate (n := 7) hy
  · exact .inr ⟨RxKind.noConfusion, fun y h1 h2 => List.all_eq_true.1 hall _ (hmem y h1 h2)⟩
  · exact .inr ⟨RxKind.noConfusion, fun y h1 h2 => List.all_eq_true.1 hall _ (hmem y h1 h2)⟩

section Header

variable {s s' : State} {x q : Nat} {hd hd' : Header} (hx : s.DiffersAt s' x)
  (hc : classify (s.bufBytes .rxbuf q 24) = some hd) (hc' : classify (s'.bufBytes .rxbuf q 24) = some hd')
include hx hc hc'

/-- Outside bytes 17 to 23 a change leaves the size of the burst alone. -/
theorem State.DiffersAt.payload_eq_of_tail_kept (h : x < q + 17 ∨ q + 24 ≤ x) : hd'.payload = hd.payload := by
  refine congrArg Header.payload (classify_eq_of_tail_eq hc hc' ?_)
  rw [State.slice_bufBytes _ _ (by omega), State.slice_bufBytes _ _ (by omega), hx.bufBytes_eq h]

/-- An announce burst with another count announces no payload. -/
theorem State.DiffersAt.payload_eq_of_announce (hk : hd.kind = .announce) (h : q + 20 ≤ x) :
    hd'.payload = hd.payload := by
  have hn : decVal (slice (s.bufBytes .rxbuf q 24) 17 3) = 0 := by
    obtain ⟨-, ⟨rfl, -⟩ | ⟨-, hn, -⟩ | ⟨-, -, -, rfl⟩⟩ := classify_eq_some hc
    · cases hk
    · exact hn
    · cases hk
  have hn' : decVal (slice (s'.bufBytes .rxbuf q 24) 17 3) = 0 := by
    rwa [State.slice_bufBytes _ _ (by omega), hx.bufBytes_eq (.inr (by omega)),
      ← State.slice_bufBytes (n := 24) _ _ (by omega)]
  rw [payload_eq_zero_of_number_eq_zero hc hn, payload_eq_zero_of_number_eq_zero hc' hn']

/-- One byte changed in bytes 17 to 23 of a header that stays well-formed: they were digits and still are. -/
theorem State.DiffersAt.tail_digits (h1 : q + 17 ≤ x) (h2 : x < q + 24) :
    hd.kind ≠ .terminal ∧ hd'.kind ≠ .terminal ∧ isDigit (s'.bufByte .rxbuf x) = true := by
  obtain ⟨y, hy1, hy2, hne⟩ : ∃ y, q + 17 ≤ y ∧ y < q + 24 ∧ y ≠ x := by
    by_cases h : x = q + 17
    · exact ⟨q + 18, by omega, by omega, by omega⟩
    · exact ⟨q + 17, by omega, by omega, by omega⟩
  have hsame := hx.others y hne
  have hz : isDigit 0x5A ≠ true := by decide
  rcases State.tail_cases hc with ⟨-, hall⟩ | ⟨hk, hall⟩ <;>
    rcases State.tail_cases hc' with ⟨-, hall'⟩ | ⟨hk', hall'⟩
  · exact absurd ((hall' x h1 h2).trans (hall x h1 h2).symm) hx.changed
  · exact absurd (hsame.trans (hall y hy1 hy2) ▸ hall' y hy1 hy2) hz
  · exact absurd (hsame.symm.trans (hall' y hy1 hy2) ▸ hall y hy1 hy2) hz
  · exact ⟨hk, hk', hall' x h1 h2⟩

/-- A data burst with another number, not `"000"`, has the same size. -/
theorem State.DiffersAt.payload_eq_of_data (hk : hd.kind = .data) (h1 : q + 17 ≤ x) (h2 : x < q + 20)
    (hne : s'.bufBytes .rxbuf (q + 17) 3 ≠ [0x30, 0x30, 0x30]) : hd'.payload = hd.payload := by
  have hsize : slice (s'.bufBytes .rxbuf q 24) 20 4 = slice (s.bufBytes .rxbuf q 24) 20 4 := by
    rw [State.slice_bufBytes _ _ (by omega), State.slice_bufBytes _ _ (by omega), hx.bufBytes_eq (.inl h2)]
  have hpay : hd.payload = decVal (slice (s.bufBytes .rxbuf q 24) 20 4) := by
    obtain ⟨-, ⟨rfl, -⟩ | ⟨-, -, rfl⟩ | ⟨-, -, -, rfl⟩⟩ := classify_eq_some hc
    · cases hk
    · cases hk
    · rfl
  obtain ⟨-, hkind', -⟩ := hx.tail_digits hc hc' h1 (by omega)
  obtain ⟨-, ⟨rfl, -⟩ | ⟨hall, hn, -⟩ | ⟨-, -, -, rfl⟩⟩ := classify_eq_some hc'
  · exact absurd rfl hkind'
  · have hdigits := all_slice_of_all_slice (j := 17) (k := 3) hall (by omega) (by omega)
    rw [State.slice_bufBytes _ _ (by omega)] at hn hdigits
    exact absurd (eq_zeros_of_decVal_eq_zero hdigits hn) hne
  · rw [hpay, ← hsize]
    rfl

end Header

/-! ### The outcome -/

/-- A burst of unchanged size, with a byte that its CRC covers changed, is CRC_BAD, or its header is MALFORMED
(rule R217). -/
theorem State.DiffersAt.exec_scan_covered {s s' : State} {x q : Nat} {hd : Header} (hx : s.DiffersAt s' x)
    (hc : s.cfg.Legal) (h : s.RxRangeOk) (hq : s.FirstMagic q) (hv : s.VerifiedAt q hd) (hlow : q + 4 ≤ x)
    (hin : x < q + 24 ∨ q + 32 ≤ x ∧ x < q + 32 + hd.payload)
    (hflip : s.cfg.crc32fn = .decided ∨
      ∃ j, j < 8 ∧ s'.bufByte .rxbuf x = s.bufByte .rxbuf x ^^^ BitVec.twoPow 8 j)
    (hsize : ∀ hd', classify (s'.bufBytes .rxbuf q 24) = some hd' → hd'.payload = hd.payload) :
    ∃ t', exec .scan s' = .next t' ∧ (t'.result = .crcBad ∨ t'.result = .malformed) ∧ t'.rxKind = .none ∧
      t'.rxPos.toNat = q + 4 := by
  have hexec := exec_scan_of_firstMagic (hx.rxRangeOk h) (hx.firstMagic hq hlow)
  have hend : q + 4 ≤ s'.rxLen.toNat := (hx.firstMagic hq hlow).2.1
  have harrived : 32 + hd.payload ≤ s'.rxLen.toNat - q := by rw [hx.rxLen_eq]; exact hv.arrived
  cases hclass : classify (s'.bufBytes .rxbuf q 24) with
  | none =>
    rw [State.scanAt_of_malformed (by omega) hclass] at hexec
    exact ⟨_, hexec, .inr rfl, rfl, State.toNat_resync hend⟩
  | some hd' =>
    have hpay := hsize hd' hclass
    obtain ⟨pre, post, e, e'⟩ := hx.coveredAt_split (q := q) (n := hd.payload) (by omega)
    have hne : hexVal (s'.bufBytes .rxbuf (q + 24) 8) ≠ s'.cfg.crc32 (s'.coveredAt q hd'.payload) := by
      rw [hx.bufBytes_eq (by omega), hv.crc, hx.cfg_eq, hpay, e, e']
      exact (Config.crc32_ne_of_one_byte hc hx.changed hflip pre post).symm
    obtain ⟨rcvd, hcheck, -⟩ := State.checkCrc_of_ne (.inr hne)
    rw [State.scanAt_of_classify hclass (by rwa [hpay]), hcheck] at hexec
    exact ⟨_, hexec, .inl rfl, rfl, State.toNat_resync hend⟩

section CrcField

variable {s s' : State} {x q : Nat} {hd : Header} (hx : s.DiffersAt s' x) (hv : s.VerifiedAt q hd)
  (hlo : q + 24 ≤ x) (hhi : x < q + 32)
include hx hv hlo hhi

/-- A change in the CRC field leaves header, size and the bytes covered alone. -/
theorem State.DiffersAt.around_crcField :
    s'.bufBytes .rxbuf q 24 = s.bufBytes .rxbuf q 24 ∧
      s'.cfg.crc32 (s'.coveredAt q hd.payload) = hexVal (s.bufBytes .rxbuf (q + 24) 8) ∧
      32 + hd.payload ≤ s'.rxLen.toNat - q := by
  refine ⟨hx.bufBytes_eq (.inr hlo), ?_, by rw [hx.rxLen_eq]; exact hv.arrived⟩
  rw [State.coveredAt, hx.bufBytes_eq (.inr hlo), hx.bufBytes_eq (.inl hhi), hx.cfg_eq, hv.crc, State.coveredAt]

/-- A digit of the CRC field in its other case: the burst is verified as before (rule R13). -/
theorem State.DiffersAt.verifiedAt_of_case (hletter : 0x41 ≤ (s.bufByte .rxbuf x).toNat)
    (hcase : s'.bufByte .rxbuf x = s.bufByte .rxbuf x ^^^ 0x20) : s'.VerifiedAt q hd := by
  obtain ⟨hhdr, hcrc, harrived⟩ := hx.around_crcField hv hlo hhi
  obtain ⟨pre, post, e, e'⟩ := hx.bufBytes_split (n := 8) hlo hhi
  have hhex := hv.fieldHex
  rw [e, List.all_append, List.all_cons, Bool.and_eq_true, Bool.and_eq_true] at hhex
  obtain ⟨hpre, hb, hpost⟩ := hhex
  obtain ⟨hb', hval⟩ := isHex_other_case hb hletter
  rw [← hcase] at hb' hval
  refine ⟨hhdr ▸ hv.header, harrived, ?_, ?_⟩
  · rw [e', List.all_append, List.all_cons, hpre, hb', hpost]
    rfl
  · rw [e', hcrc, e, hexVal_congr_digit hval]

/-- Any other change of the CRC field makes the burst CRC_BAD (rule R210). -/
theorem State.DiffersAt.exec_scan_crcField (h : s.RxRangeOk) (hq : s.FirstMagic q)
    (hcase : ¬ (0x41 ≤ (s.bufByte .rxbuf x).toNat ∧ s'.bufByte .rxbuf x = s.bufByte .rxbuf x ^^^ 0x20)) :
    ∃ t', exec .scan s' = .next t' ∧ t'.result = .crcBad ∧ t'.rxKind = .none ∧ t'.rxPos.toNat = q + 4 := by
  obtain ⟨hhdr, hcrc, harrived⟩ := hx.around_crcField hv hlo hhi
  obtain ⟨pre, post, e, e'⟩ := hx.bufBytes_split (n := 8) hlo hhi
  have hhex := hv.fieldHex
  rw [e] at hhex hcrc
  have hq' := hx.firstMagic hq (by omega)
  have hbad : ¬ (s'.bufBytes .rxbuf (q + 24) 8).all isHex = true ∨
      hexVal (s'.bufBytes .rxbuf (q + 24) 8) ≠ s'.cfg.crc32 (s'.coveredAt q hd.payload) := by
    rw [hcrc, e', or_iff_not_imp_left, not_not]
    intro hhex'
    have hb : isHex (s.bufByte .rxbuf x) = true := List.all_eq_true.1 hhex _ (by simp)
    have hb' : isHex (s'.bufByte .rxbuf x) = true := List.all_eq_true.1 hhex' _ (by simp)
    exact hexVal_ne_of_digit hhex hhex' (e ▸ s.length_bufBytes ..) fun hval =>
      hcase (other_case_of_hexDigitVal_eq hb hb' hx.changed hval)
  have hexec := exec_scan_of_firstMagic (hx.rxRangeOk h) hq'
  obtain ⟨rcvd, hcheck, -⟩ := State.checkCrc_of_ne hbad
  rw [State.scanAt_of_classify (hhdr ▸ hv.header) harrived, hcheck] at hexec
  exact ⟨_, hexec, rfl, rfl, State.toNat_resync hq'.2.1⟩

end CrcField

/-- The place of a burst that `SCAN` verified shows in `RX_PAY` (rule R211). -/
theorem exists_magicAt_of_rxKind {s t : State} (h : s.RxRangeOk) (ht : exec .scan s = .next t)
    (hk : t.rxKind ≠ .none) : ∃ q, s.MagicAt q ∧ t.rxPay.toNat = q + 32 := by
  obtain ⟨q, hq⟩ := exists_firstMagic_of_rxKind h ht hk
  obtain ⟨hd, hv, rfl⟩ := exists_verifiedAt_of_firstMagic h hq ht hk
  obtain ⟨-, hend, hm, -⟩ := hq
  have harrived := hv.arrived
  obtain ⟨-, -, -, hpay, -⟩ := State.applyScan_verified_report (s := s) (q := q)
    (covered := s.coveredAt q hd.payload) hv.header (by omega)
  exact ⟨q, hm, hpay⟩

end Sys2Proof.Machine
end

section
/-! PROOFS. The family `other`: changed bytes. -/

namespace Sys2Proof

open Machine

/-- Settles O34: in each case the size stays or the header is malformed, and the byte is one that the CRC covers. -/
theorem oneChangedByteIsNotVerified : Obligations.OneChangedByteIsNotVerified := by
  intro s s' t q x hc h hq ht hk hframe hplace hne hflip hothers
  have hx : s.DiffersAt s' x := ⟨hframe, hne, hothers⟩
  obtain ⟨hd, hv, rfl⟩ := exists_verifiedAt_of_firstMagic h hq ht hk
  have harrived := hv.arrived
  obtain ⟨-, -, -, -, -, -, hvalue⟩ := State.applyScan_verified_report (s := s) (q := q)
    (covered := s.coveredAt q hd.payload) hv.header (by have := hq.2.1; omega)
  rw [State.verifiedOutcome, hvalue] at hplace
  change (q + 4 ≤ x ∧ x < q + 17) ∨ (hd.kind = .announce ∧ _) ∨ (hd.kind = .data ∧ _) ∨
    (hd.kind = .terminal ∧ _) ∨ _ ∨ (hd.kind = .data ∧ _) at hplace
  have hscan := hx.exec_scan_covered hc h hq hv
  rcases hplace with ⟨h1, h2⟩ | ⟨hkind, h1, h2⟩ | ⟨hkind, h1, h2, hzeros⟩ | ⟨hkind, h1, h2⟩ | ⟨h1, h2, hdigit⟩ |
    ⟨hkind, h1, h2⟩
  · exact hscan h1 (.inl (by omega)) hflip fun hd' hc' => hx.payload_eq_of_tail_kept hv.header hc' (.inl h2)
  · exact hscan (by omega) (.inl h2) hflip fun hd' hc' => hx.payload_eq_of_announce hv.header hc' hkind h1
  · exact hscan (by omega) (.inl (by omega)) hflip fun hd' hc' =>
      hx.payload_eq_of_data hv.header hc' hkind h1 h2 hzeros
  · exact hscan (by omega) (.inl h2) hflip fun hd' hc' => absurd hkind (hx.tail_digits hv.header hc' h1 h2).1
  · refine hscan (by omega) (.inl h2) hflip fun hd' hc' => absurd ?_ hdigit
    exact of_decide_eq_true (hx.tail_digits hv.header hc' h1 h2).2.2
  · have hpay : hd.val = hd.payload := by
      cases hd with
      | data bn size => rfl
      | announce count => cases hkind
      | terminal => cases hkind
    rw [hpay] at h2
    exact hscan (by omega) (.inr ⟨h1, h2⟩) hflip fun hd' hc' =>
      hx.payload_eq_of_tail_kept hv.header hc' (.inr (by omega))

/-- Settles O35: without its magic no burst is found at `q`; in the CRC field only a letter's case leaves the value of a
digit alone. -/
theorem changedMagicOrCrcFieldIsSeen : Obligations.ChangedMagicOrCrcFieldIsSeen := by
  intro s s' t q x h hq ht hk hframe hne hothers caseOnly
  have hx : s.DiffersAt s' x := ⟨hframe, hne, hothers⟩
  refine ⟨fun hlo hhi => ?_, fun hlo hhi => ?_⟩
  · have hmagic : ¬ s'.MagicAt q := by
      obtain ⟨pre, post, e, e'⟩ := hx.bufBytes_split hlo hhi
      intro hm
      have heq := e'.symm.trans (hm.trans (hq.2.2.1.symm.trans e))
      exact hne (List.cons.inj (List.append_cancel_left heq)).1
    refine ⟨hmagic, _, exec_scan_of_range (hx.rxRangeOk h), fun hk' hpay => hmagic ?_⟩
    obtain ⟨q', hm', hpay'⟩ := exists_magicAt_of_rxKind (hx.rxRangeOk h) (exec_scan_of_range (hx.rxRangeOk h)) hk'
    obtain rfl : q' = q := by omega
    exact hm'
  · obtain ⟨hd, hv, rfl⟩ := exists_verifiedAt_of_firstMagic h hq ht hk
    refine ⟨fun ⟨hletter, hcase⟩ => ?_, hx.exec_scan_crcField hv hlo hhi h hq⟩
    have hv' := hx.verifiedAt_of_case hv hlo hhi hletter hcase
    have hout : s'.verifiedOutcome q hd = s.verifiedOutcome q hd := by
      rw [State.verifiedOutcome, State.verifiedOutcome, State.coveredAt, State.coveredAt,
        hx.bufBytes_eq (.inr hlo), hx.bufBytes_eq (.inl hhi)]
    rw [hv'.exec_scan (hx.rxRangeOk h) (hx.firstMagic hq (by omega)), hout, hframe]
    rfl

end Sys2Proof
end
